-- ==== Sys2Proof/Word.lean ====
section
/-! DEFINITION. The byte and the byte string, the RHC's only storage shapes (spec/00_scope.md R8, spec/20_memory.md R40). -/

namespace Sys2Proof

/-- A byte: 8 bits, bit 7 the most significant (R8). -/
abbrev Byte := BitVec 8

/-- A byte string indexed from 0 (R8, R40). An address of a buffer is an index into it, so equal buffers are equal data:
the list is its own canonical form, with no unlisted address below its length and none at or above it. -/
abbrev Buffer := List Byte

end Sys2Proof
end

