-- ==== Sys2Proof/Config.lean ====
section
/-! DEFINITION. The parameters of the RHC that are fixed (spec/00_scope.md R6), the operands of the INIT that State.reset
stands for (assumption log 2), and the free values (logs 3 and 4). `ACC_CAP`, the one open parameter a rule depends on, is
a field of State (log 5). `ACC_SLACK` (8000) and `LENW` (32) have no definition: no rule depends on the first, and lengths
are naturals here (D40, log 6). -/

namespace Sys2Proof

/-- `RTP_FIXED`: size of the RTP fixed header (R6). -/
def Config.rtpFixed : Nat := 12

/-- `RTP_VERSION`: the only accepted version (R6). -/
def Config.rtpVersion : BitVec 2 := 2

/-- The least legal `MAXPKT` (R6, R160, D14). -/
def Config.minMaxPkt : Nat := 15

/-- `FU_OVERHEAD`: bytes of an FU-A fragment before its chunk (R6). -/
def Config.fuOverhead : Nat := 14

/-- Operand `pt` of the INIT that State.reset stands for. DESIGN CHOICE (log 2), unsafe: the spec leaves it to the host. -/
def Config.pt0 : BitVec 7 := 0

/-- Operand `seq0` of the INIT that State.reset stands for. DESIGN CHOICE (log 2), unsafe: the spec leaves it to the host. -/
def Config.seq0 : BitVec 16 := 0

/-- Operand `ssrc` of the INIT that State.reset stands for. DESIGN CHOICE (log 2), unsafe: the spec leaves it to the host. -/
def Config.ssrc0 : BitVec 32 := 0

/-- Operand `maxpkt` of the INIT that State.reset stands for: the least value INIT accepts. DESIGN CHOICE (log 2), unsafe:
the spec leaves it to the host. -/
def Config.maxPkt0 : Nat := 15

/-- FREE VALUE: the host's answer to an `alloc` that State.answers does not cover (R7, I20): `true` is grant. The argument is
the counter State.freeCtr. Safe (log 4). -/
opaque Config.allocAnswer : Nat → Bool

/-- FREE VALUE: what `TX_TS` reads as after an INIT (R160 "no value", I23 "any value"). Safe (log 3). -/
opaque Config.initTxTs : Nat → BitVec 32

/-- FREE VALUE: what `RX_LASTSEQ` reads as after an INIT (R160 "no value", I23 "any value"). Safe (log 3). -/
opaque Config.initRxLastSeq : Nat → BitVec 16

end Sys2Proof
end

