-- ==== Sys2Proof/Syntax.lean ====
section
/-! DEFINITION. The packet record PKT (spec/10_state.md R11) and the instructions of the RHC: one constructor for each
mnemonic of spec/opcode_table.json, carrying the operands its rule gives it. The rows that share a mnemonic (23 SNAL, 3 RSVD)
differ only in the value of `TYPE`, which is an operand here (assumption log 8). -/

namespace Sys2Proof

/-- The packet record `PKT` (R11). `PAYLEN` is the length of `pay` (R11: `len(PKT.PAY)`), so it is a view and not a field.
The CSRC file is held as the list of its `CC` valid slots (R13). -/
structure Pkt where
  v : BitVec 2
  p : Bool
  x : Bool
  cc : BitVec 4
  m : Bool
  pt : BitVec 7
  seq : BitVec 16
  ts : BitVec 32
  ssrc : BitVec 32
  csrc : List (BitVec 32)
  extRsvd : BitVec 16
  extLen : BitVec 16
  ext : Buffer
  pay : Buffer
  deriving DecidableEq, Repr

/-- The instructions. The first six are the host's commands (R2, R79); the next eight are the actions of HUNPACK, one for
each row of the dispatch map (R68); the next four are the cases of the FU header's flags (R142); then the fixed header's
format row (R61) and the two emission modes of HPACK (R115, R116). -/
inductive Instr where
  /-- `INIT pt seq0 ssrc maxpkt` (R160). -/
  | init (pt : BitVec 7) (seq0 : BitVec 16) (ssrc : BitVec 32) (maxpkt : Nat)
  /-- `DESER IN` (R91). -/
  | deser (inp : Buffer)
  /-- `SERHDR PKT cap` (R96). -/
  | serhdr (pkt : Pkt) (cap : Nat)
  /-- `SER PKT cap` (R97). -/
  | ser (pkt : Pkt) (cap : Nat)
  /-- `HPACK IN ts` (R111). -/
  | hpack (inp : Buffer) (ts : BitVec 32)
  /-- `HUNPACK IN` (R131). -/
  | hunpack (inp : Buffer)
  /-- `RSVD` (R135): a payload whose first byte has `REF = ref` and `TYPE = ty`, followed by `rest`. -/
  | rsvd (ref : BitVec 3) (ty : BitVec 5) (rest : Buffer) (ts : BitVec 32)
  /-- `SNAL` (R136): the payload is the header byte (`ref`, `ty`) and `rest`; `ts` is the packet's timestamp. -/
  | snal (ref : BitVec 3) (ty : BitVec 5) (rest : Buffer) (ts : BitVec 32)
  /-- `STAPA` (R138): the payload is the header byte (`ref`, 24) and `rest`. -/
  | stapa (ref : BitVec 3) (rest : Buffer) (ts : BitVec 32)
  /-- `STAPB` (R139): the payload is the header byte (`ref`, 25) and `rest`. -/
  | stapb (ref : BitVec 3) (rest : Buffer) (ts : BitVec 32)
  /-- `MTAP16` (R140): the payload is the header byte (`ref`, 26) and `rest`. -/
  | mtap16 (ref : BitVec 3) (rest : Buffer) (ts : BitVec 32)
  /-- `MTAP24` (R141): the payload is the header byte (`ref`, 27) and `rest`. -/
  | mtap24 (ref : BitVec 3) (rest : Buffer) (ts : BitVec 32)
  /-- `FUA` (R143): the payload is the FU indicator (`ref`, 28) and `rest`. -/
  | fua (ref : BitVec 3) (rest : Buffer) (ts : BitVec 32)
  /-- `FUB` (R144): the payload is the FU indicator (`ref`, 29) and `rest`. -/
  | fub (ref : BitVec 3) (rest : Buffer) (ts : BitVec 32)
  /-- `FU_MID`, S = 0 and E = 0 (R142): FU header bits `R = r` and `OTYPE = otype`, then the fragment's `data`; `ref` is the
  indicator's `REF`. -/
  | fuMid (ref : BitVec 3) (r : Bool) (otype : BitVec 5) (data : Buffer) (ts : BitVec 32)
  /-- `FU_END`, S = 0 and E = 1 (R142). -/
  | fuEnd (ref : BitVec 3) (r : Bool) (otype : BitVec 5) (data : Buffer) (ts : BitVec 32)
  /-- `FU_START`, S = 1 and E = 0 (R142). -/
  | fuStart (ref : BitVec 3) (r : Bool) (otype : BitVec 5) (data : Buffer) (ts : BitVec 32)
  /-- `FU_STARTEND`, S = 1 and E = 1 (R142). -/
  | fuStartEnd (ref : BitVec 3) (r : Bool) (otype : BitVec 5) (data : Buffer) (ts : BitVec 32)
  /-- `RTPFIX` (R61): a packet whose fixed header has `V = 2` and these fields, followed by `rest`. -/
  | rtpfix (p x : Bool) (cc : BitVec 4) (m : Bool) (pt : BitVec 7) (seq : BitVec 16) (ts : BitVec 32) (ssrc : BitVec 32)
      (rest : Buffer)
  /-- `SNALPKT` (R115): send the NAL unit `nal` as one packet. -/
  | snalpkt (nal : Buffer)
  /-- `FUAPKT` (R116): send the NAL unit `nal` as FU-A fragments. -/
  | fuapkt (nal : Buffer)
  deriving DecidableEq, Repr

end Sys2Proof
end

