-- ==== Sys2Proof/WellFormed.lean ====
section
/-! DEFINITION. Which instructions are well formed: the relations between operands that the rules of spec/ state and the
types of Instr do not. -/

namespace Sys2Proof

/-- A packet record proper: the CSRC file holds `CC` words (R11, R13) and the extension `4·EXT_LEN` bytes (R11). -/
def Pkt.wf (k : Pkt) : Bool :=
  k.csrc.length == k.cc.toNat && k.ext.length == 4 * k.extLen.toNat

/-- A record that SERHDR and SER can be given: it has every CSRC word and every extension byte that `WRITEHDR` reads (R96).
CSRC slots at and above `CC` may hold anything (R13, I22), and without the extension flag the extension fields are ignored
whatever they are (R98 (3)). -/
def Pkt.complete (k : Pkt) : Bool :=
  decide (k.cc.toNat ≤ k.csrc.length) && (!k.x || decide (4 * k.extLen.toNat ≤ k.ext.length))

/-- The types of the dispatch map's RSVD rows (R68, R135). -/
def rsvdType (ty : BitVec 5) : Bool := ty == 0 || ty == 30 || ty == 31

/-- A NAL type in 1 to 23, the single NAL unit types (R68, R136). -/
def singleType (ty : BitVec 5) : Bool := 1 ≤ ty.toNat && ty.toNat ≤ 23

/-- Well-formedness of an instruction: records are complete, and the two rows with a type operand have a type of their own
row. A NAL unit to be sent has at least its header byte (R114, R115). -/
def Instr.wf (i : Instr) : Bool :=
  match i with
  | .init _ _ _ _ => true
  | .deser _ => true
  | .serhdr pkt _ => pkt.complete
  | .ser pkt _ => pkt.complete
  | .hpack _ _ => true
  | .hunpack _ => true
  | .rsvd _ ty _ _ => rsvdType ty
  | .snal _ ty _ _ => singleType ty
  | .stapa _ _ _ => true
  | .stapb _ _ _ => true
  | .mtap16 _ _ _ => true
  | .mtap24 _ _ _ => true
  | .fua _ _ _ => true
  | .fub _ _ _ => true
  | .fuMid _ _ _ _ _ => true
  | .fuEnd _ _ _ _ _ => true
  | .fuStart _ _ _ _ _ => true
  | .fuStartEnd _ _ _ _ _ => true
  | .rtpfix _ _ _ _ _ _ _ _ _ => true
  | .snalpkt nal => 1 ≤ nal.length
  | .fuapkt nal => 1 ≤ nal.length

end Sys2Proof
end

