-- ==== Sys2Proof/Decode.lean ====
section
/-! DEFINITION. The encodings of spec/30_encoding.md: the bits of each header byte, read and written; multi-byte fields
(spec/20_memory.md R41, spec/00_scope.md R8); the decoder, total on any request and rejecting by name; then the encoder. -/

namespace Sys2Proof

/-! ### Bytes and multi-byte fields -/

/-- The byte at offset `o`. Rules read only inside a buffer (R8); outside it this answers 0, which no rule relies on (log 20). -/
def byteAt (b : Buffer) (o : Nat) : Byte := b.getD o 0

/-- The big-endian number that a byte string spells (R8, R41). -/
def beNat (bs : Buffer) : Nat := bs.foldl (fun acc b => acc * 256 + b.toNat) 0

/-- `MemRead(B+o, n)`: the unsigned big-endian number in `n` bytes at offset `o` (R8). -/
def memRead (b : Buffer) (o n : Nat) : Nat := beNat ((b.drop o).take n)

/-- `MemWrite(_, n, v)`: the `n` bytes of `v`, most significant first (R8). -/
def memWrite : Nat → Nat → Buffer
  | 0, _ => []
  | n + 1, v => BitVec.ofNat 8 (v / 256 ^ n) :: memWrite n v

/-- The byte string `b[o..o+k)` (R8). -/
def slice (b : Buffer) (o k : Nat) : Buffer := (b.drop o).take k

/-! ### RTPFIX (R61) -/

/-- `V`, bits 7:6 of byte 0. -/
def fixV (b0 : Byte) : BitVec 2 := b0.extractLsb' 6 2

/-- `P`, bit 5 of byte 0. -/
def fixP (b0 : Byte) : Bool := b0.getLsbD 5

/-- `X`, bit 4 of byte 0. -/
def fixX (b0 : Byte) : Bool := b0.getLsbD 4

/-- `CC`, bits 3:0 of byte 0. -/
def fixCc (b0 : Byte) : BitVec 4 := b0.extractLsb' 0 4

/-- `M`, bit 7 of byte 1. -/
def fixM (b1 : Byte) : Bool := b1.getLsbD 7

/-- `PT`, bits 6:0 of byte 1. -/
def fixPt (b1 : Byte) : BitVec 7 := b1.extractLsb' 0 7

/-- Byte 0 of a packet: `V<<6 | P<<5 | X<<4 | CC`. -/
def fixByte0 (v : BitVec 2) (p x : Bool) (cc : BitVec 4) : Byte := v ++ BitVec.ofBool p ++ BitVec.ofBool x ++ cc

/-- Byte 1 of a packet: `M<<7 | PT`. -/
def fixByte1 (m : Bool) (pt : BitVec 7) : Byte := BitVec.ofBool m ++ pt

/-- The 12 bytes of the fixed header (R61, the first five writes of R96). -/
def fixBytes (v : BitVec 2) (p x : Bool) (cc : BitVec 4) (m : Bool) (pt : BitVec 7) (seq : BitVec 16) (ts ssrc : BitVec 32) :
    Buffer :=
  fixByte0 v p x cc :: fixByte1 m pt :: (memWrite 2 seq.toNat ++ memWrite 4 ts.toNat ++ memWrite 4 ssrc.toNat)

/-! ### NALHDR, FUIND, FUHDR (R67, R70, R71) -/

/-- `REF`, bits 7:5 of a NAL header or FU indicator. -/
def nalRef (b : Byte) : BitVec 3 := b.extractLsb' 5 3

/-- `TYPE`, bits 4:0 of a NAL header or FU indicator. -/
def nalType (b : Byte) : BitVec 5 := b.extractLsb' 0 5

/-- The byte with these `REF` and `TYPE` bits: a NAL header, an FU indicator (`TYPE` 28 or 29), or the header rebuilt from a
fragment, `(fuind & 0xE0) | (fuhdr & 0x1F)` (R72, R77). -/
def nalByte (ref : BitVec 3) (ty : BitVec 5) : Byte := ref ++ ty

/-- Whether a NAL header's type is in 1 to 23 (R137, R142: "validate type in 1–23"). -/
def unitTypeOk (b : Byte) : Bool := 1 ≤ (nalType b).toNat && (nalType b).toNat ≤ 23

/-- `S`, bit 7 of the FU header. -/
def fuS (b : Byte) : Bool := b.getLsbD 7

/-- `E`, bit 6 of the FU header. -/
def fuE (b : Byte) : Bool := b.getLsbD 6

/-- `R`, bit 5 of the FU header: written 0 by the packetizer, ignored by the depacketizer. -/
def fuR (b : Byte) : Bool := b.getLsbD 5

/-- `OTYPE`, bits 4:0 of the FU header. -/
def fuOtype (b : Byte) : BitVec 5 := b.extractLsb' 0 5

/-- The FU header byte. -/
def fuByte (sBit eBit r : Bool) (otype : BitVec 5) : Byte := BitVec.ofBool sBit ++ BitVec.ofBool eBit ++ BitVec.ofBool r ++ otype

/-- The eight actions of HUNPACK (R68, C12). -/
inductive NalAction where
  | rsvd | snal | stapa | stapb | mtap16 | mtap24 | fua | fub
  deriving DecidableEq, Repr

/-- The dispatch map (R68): total on the 32 types. -/
def nalAction (ty : BitVec 5) : NalAction :=
  if ty = 0 then .rsvd
  else if ty.toNat ≤ 23 then .snal
  else if ty = 24 then .stapa
  else if ty = 25 then .stapb
  else if ty = 26 then .mtap16
  else if ty = 27 then .mtap24
  else if ty = 28 then .fua
  else if ty = 29 then .fub
  else .rsvd

/-! ### Requests: what the decoder reads -/

/-- The selector spaces of the opcode table (R83). Only `cmd` is the host's (R79); the others are the places inside a
command where the table's other rows select (log 8). -/
inductive Space where
  | cmd | nalhdr | fuhdr | rtpfix | snalpkt | fuapkt
  deriving DecidableEq, Repr

/-- The operands that travel beside an instruction's bytes, with the widths of R79. An instruction reads those its rule
names and no other. -/
structure Operands where
  pt : BitVec 7
  seq0 : BitVec 16
  ssrc : BitVec 32
  maxpkt : Nat
  pkt : Pkt
  cap : Nat
  inp : Buffer
  ts : BitVec 32
  ref : BitVec 3
  deriving DecidableEq, Repr

/-- A record with every field zero. -/
def Pkt.zero : Pkt := ⟨0, false, false, 0, false, 0, 0, 0, 0, [], 0, 0, [], []⟩

/-- All operands zero or empty. -/
def Operands.zero : Operands := ⟨0, 0, 0, 0, Pkt.zero, 0, [], 0, 0⟩

/-- One instruction as it is presented to the block: its selector space, its bytes, its operands. -/
structure Request where
  space : Space
  bytes : Buffer
  ops : Operands
  deriving DecidableEq, Repr

/-- Why the decoder rejects a request. -/
inductive Reject where
  /-- A command request whose byte is no selector of R79. -/
  | noSuchCommand (sel : Byte)
  /-- A request with too few or too many bytes for its space. -/
  | badLength
  /-- An RTPFIX request whose version is not 2: the row's pattern does not match (R61, R83). -/
  | notVersionTwo
  /-- The operands break Instr.wf: the record lacks a CSRC word or an extension byte that R96 reads (R11, R13), or the NAL unit
  is empty (R115). -/
  | illFormed
  deriving DecidableEq, Repr

/-! ### The decoder -/

/-- The command that a selector byte names (R79). -/
def decodeCmd (sel : Byte) (o : Operands) : Except Reject Instr :=
  if sel = 0x00#8 then .ok (.init o.pt o.seq0 o.ssrc o.maxpkt)
  else if sel = 0x01#8 then .ok (.deser o.inp)
  else if sel = 0x02#8 then .ok (.serhdr o.pkt o.cap)
  else if sel = 0x03#8 then .ok (.ser o.pkt o.cap)
  else if sel = 0x10#8 then .ok (.hpack o.inp o.ts)
  else if sel = 0x11#8 then .ok (.hunpack o.inp)
  else .error (.noSuchCommand sel)

/-- The action that a payload's first byte selects (R68). -/
def decodeNal (b : Byte) (rest : Buffer) (ts : BitVec 32) : Instr :=
  match nalAction (nalType b) with
  | .rsvd => .rsvd (nalRef b) (nalType b) rest ts
  | .snal => .snal (nalRef b) (nalType b) rest ts
  | .stapa => .stapa (nalRef b) rest ts
  | .stapb => .stapb (nalRef b) rest ts
  | .mtap16 => .mtap16 (nalRef b) rest ts
  | .mtap24 => .mtap24 (nalRef b) rest ts
  | .fua => .fua (nalRef b) rest ts
  | .fub => .fub (nalRef b) rest ts

/-- The case that the FU header's flags select (R71, R142). -/
def decodeFu (ref : BitVec 3) (b : Byte) (data : Buffer) (ts : BitVec 32) : Instr :=
  match fuS b, fuE b with
  | false, false => .fuMid ref (fuR b) (fuOtype b) data ts
  | false, true => .fuEnd ref (fuR b) (fuOtype b) data ts
  | true, false => .fuStart ref (fuR b) (fuOtype b) data ts
  | true, true => .fuStartEnd ref (fuR b) (fuOtype b) data ts

/-- The fixed header's fields (R61), of a packet of 12 bytes or more whose version is 2. -/
def decodeFix (bs : Buffer) : Except Reject Instr :=
  if bs.length < Config.rtpFixed then .error .badLength
  else if fixV (byteAt bs 0) ≠ Config.rtpVersion then .error .notVersionTwo
  else .ok (.rtpfix (fixP (byteAt bs 0)) (fixX (byteAt bs 0)) (fixCc (byteAt bs 0)) (fixM (byteAt bs 1)) (fixPt (byteAt bs 1))
    (BitVec.ofNat 16 (memRead bs 2 2)) (BitVec.ofNat 32 (memRead bs 4 4)) (BitVec.ofNat 32 (memRead bs 8 4))
    (bs.drop Config.rtpFixed))

/-- The decoder before the well-formedness check. -/
def decodeRaw (r : Request) : Except Reject Instr :=
  match r.space, r.bytes with
  | .cmd, [sel] => decodeCmd sel r.ops
  | .cmd, _ => .error .badLength
  | .nalhdr, b :: rest => .ok (decodeNal b rest r.ops.ts)
  | .nalhdr, [] => .error .badLength
  | .fuhdr, b :: data => .ok (decodeFu r.ops.ref b data r.ops.ts)
  | .fuhdr, [] => .error .badLength
  | .rtpfix, bs => decodeFix bs
  | .snalpkt, bs => .ok (.snalpkt bs)
  | .fuapkt, bs => .ok (.fuapkt bs)

/-- The decoder: total, and what it accepts is well formed. -/
def decode (r : Request) : Except Reject Instr :=
  match decodeRaw r with
  | .error e => .error e
  | .ok i => if i.wf then .ok i else .error .illFormed

/-! ### The encoder -/

/-- The request that presents an instruction: its bytes by the tables of R61, R67, R71, R79, its operands beside them. -/
def encode (i : Instr) : Request :=
  match i with
  | .init pt seq0 ssrc maxpkt =>
    ⟨.cmd, [0x00#8], { Operands.zero with pt := pt, seq0 := seq0, ssrc := ssrc, maxpkt := maxpkt }⟩
  | .deser inp => ⟨.cmd, [0x01#8], { Operands.zero with inp := inp }⟩
  | .serhdr pkt cap => ⟨.cmd, [0x02#8], { Operands.zero with pkt := pkt, cap := cap }⟩
  | .ser pkt cap => ⟨.cmd, [0x03#8], { Operands.zero with pkt := pkt, cap := cap }⟩
  | .hpack inp ts => ⟨.cmd, [0x10#8], { Operands.zero with inp := inp, ts := ts }⟩
  | .hunpack inp => ⟨.cmd, [0x11#8], { Operands.zero with inp := inp }⟩
  | .rsvd ref ty rest ts => ⟨.nalhdr, nalByte ref ty :: rest, { Operands.zero with ts := ts }⟩
  | .snal ref ty rest ts => ⟨.nalhdr, nalByte ref ty :: rest, { Operands.zero with ts := ts }⟩
  | .stapa ref rest ts => ⟨.nalhdr, nalByte ref 24 :: rest, { Operands.zero with ts := ts }⟩
  | .stapb ref rest ts => ⟨.nalhdr, nalByte ref 25 :: rest, { Operands.zero with ts := ts }⟩
  | .mtap16 ref rest ts => ⟨.nalhdr, nalByte ref 26 :: rest, { Operands.zero with ts := ts }⟩
  | .mtap24 ref rest ts => ⟨.nalhdr, nalByte ref 27 :: rest, { Operands.zero with ts := ts }⟩
  | .fua ref rest ts => ⟨.nalhdr, nalByte ref 28 :: rest, { Operands.zero with ts := ts }⟩
  | .fub ref rest ts => ⟨.nalhdr, nalByte ref 29 :: rest, { Operands.zero with ts := ts }⟩
  | .fuMid ref r otype data ts => ⟨.fuhdr, fuByte false false r otype :: data, { Operands.zero with ref := ref, ts := ts }⟩
  | .fuEnd ref r otype data ts => ⟨.fuhdr, fuByte false true r otype :: data, { Operands.zero with ref := ref, ts := ts }⟩
  | .fuStart ref r otype data ts => ⟨.fuhdr, fuByte true false r otype :: data, { Operands.zero with ref := ref, ts := ts }⟩
  | .fuStartEnd ref r otype data ts => ⟨.fuhdr, fuByte true true r otype :: data, { Operands.zero with ref := ref, ts := ts }⟩
  | .rtpfix p x cc m pt seq ts ssrc rest =>
    ⟨.rtpfix, fixBytes Config.rtpVersion p x cc m pt seq ts ssrc ++ rest, Operands.zero⟩
  | .snalpkt nal => ⟨.snalpkt, nal, Operands.zero⟩
  | .fuapkt nal => ⟨.fuapkt, nal, Operands.zero⟩

/-! ### Words as the opcode table numbers them (log 9) -/

/-- The request that a word of `nbits` bits stands for, operands all zero or empty. A 96-bit word is the RTPFIX row, which the
table writes with byte 0 in bits 95 to 88. An 8-bit word is a selector byte, and the table's three 8-bit spaces overlap: a
command selector (R79) is taken first, then an FU header with a flag set and its other bits 0 (R71), then a NAL header
(R67). DESIGN CHOICE: a word alone does not say which space it is read in. -/
def tableRequest (nbits w : Nat) : Request :=
  if nbits = 96 then ⟨.rtpfix, memWrite 12 w, Operands.zero⟩
  else if nbits = 8 then
    if w ∈ [0x00, 0x01, 0x02, 0x03, 0x10, 0x11] then ⟨.cmd, memWrite 1 w, Operands.zero⟩
    else if w ∈ [0x40, 0x80, 0xC0] then ⟨.fuhdr, memWrite 1 w, Operands.zero⟩
    else ⟨.nalhdr, memWrite 1 w, Operands.zero⟩
  else ⟨.cmd, [], Operands.zero⟩

/-- What the decoder reads from a word numbered as the opcode table numbers it. -/
def decodeTableWord (nbits w : Nat) : Option Instr :=
  match decode (tableRequest nbits w) with
  | .ok i => some i
  | .error _ => none

end Sys2Proof
end

