-- ==== Sys2Proof/Machine/State.lean ====
section
/-! DEFINITION. The state of one RHC session (spec/10_state.md R10), the host's inputs to come (R33), and the state after
reset (R32). Plain data only. -/

namespace Sys2Proof.Machine

/-- The result codes (spec/60_exceptions.md R176). -/
inductive Status where
  | ok | headerTooShort | versionMismatch | insufficientBytes | payloadTooShort | bufferTooSmall | packetLost | allocFailed
  | discarded | invalidConfig | accOverflow
  deriving DecidableEq, Repr

/-- One event of the trace (spec/43_session_and_host.md R163), bytes recorded by value. -/
inductive Event where
  /-- `Alloc(size, answer)`; `granted` is true for `grant`. -/
  | alloc (size : Nat) (granted : Bool)
  /-- `DeliverPacket(bytes, length, timestamp, lossFlags)`, packer side. -/
  | deliverPacket (bytes : Buffer) (length : Nat) (timestamp : BitVec 32) (lossFlags : Nat)
  /-- `Free`. -/
  | free
  /-- `DeliverUnit(data, length, timestamp, lossFlags)`, unpacker side. -/
  | deliverUnit (data : Buffer) (length : Nat) (timestamp : BitVec 32) (lossFlags : Nat)
  deriving DecidableEq, Repr

/-- Where the machine stops although an instruction was decoded. -/
inductive Fault where
  /-- Raised by FUAPKT, and by HPACK through it, when `MAXPKT` is below 15: the fragmentation loop makes no progress (R212,
  I3 "stuck"). Safe: no state that a run reaches has such a `MAXPKT` (log 11). -/
  | noProgress
  deriving DecidableEq, Repr

/-- Why an instruction is refused. -/
inductive Refusal where
  /-- Raised by exec's arms for an instruction without a meaning yet; none is left. Safe. -/
  | notModelled (mnemonic : String)
  /-- Raised by every instruction of the packetizer and the depacketizer while no session exists (R202, I17: "no move").
  Safe (log 13). -/
  | noSession
  /-- Raised by step when the decoder rejects the request: a selector that names no command (R79, I18: "the model's decoder
  rejects it"), or operands that are none of the command's (R11, R13, R115). Safe (logs 14 and 21). -/
  | undecodable (why : Reject)
  /-- Raised by SNALPKT and FUAPKT on a NAL unit that the mode choice of R114 gives to the other mode (the operand ranges of
  R115 and R116). Safe (log 12). -/
  | modeNotSelected
  deriving DecidableEq, Repr

/-- The state. Registers of the session (R16, R20), result registers (R29) with the result ports, the event trace (R163),
one configuration value (R6), and the host's inputs to come (R33). -/
structure State where
  /-- Whether a session exists (R32, R202). -/
  session : Bool
  /-- `TPL_PT` (R16). -/
  tplPt : BitVec 7
  /-- `TPL_SSRC` (R16). -/
  tplSsrc : BitVec 32
  /-- `TX_SEQ`, the sequence number of the next packet (R18). -/
  txSeq : BitVec 16
  /-- `MAXPKT`, RTP fixed header included (R16, C1). -/
  maxPkt : Nat
  /-- `TX_TS` (R19). -/
  txTs : BitVec 32
  /-- `RX_SEEN` (R21). -/
  rxSeen : Bool
  /-- `RX_LASTSEQ` (R22). -/
  rxLastSeq : BitVec 16
  /-- `LOSS` (R23). -/
  loss : Bool
  /-- `ACC[0..ACC_SIZE)` (R24, R54); `ACC_SIZE` is its length. -/
  acc : Buffer
  /-- `STATUS` (R29). -/
  status : Status
  /-- `COUNT` (R29). -/
  count : Nat
  /-- The record returned by the last command, if it was a successful DESER (R29). -/
  resPkt : Option Pkt
  /-- The bytes of `OUT` written by the last command, if it was a successful SERHDR or SER (R96, R97). -/
  resOut : Buffer
  /-- The event trace, oldest first (R163). -/
  trace : List Event
  /-- `ACC_CAP`; none is `unbounded` (R6, D33). No step writes it. -/
  accCap : Option Nat
  /-- The commands the host will give, in order (R33). -/
  script : List Request
  /-- The host's next answers to `alloc`, in order; true is grant (R7, R33). -/
  answers : List Bool
  /-- Numbers the free values (logs 3 and 4). -/
  freeCtr : Nat
  deriving DecidableEq, Repr

/-- `ACC_SIZE` (R24): the number of bytes accumulated. -/
def State.accSize (s : State) : Nat := s.acc.length

/-- The machine right after reset. Reset is the command INIT (R200, R32); its operands are the host's, and stand here at the
values of Config (log 2). `TX_TS` and `RX_LASTSEQ` have no value in R32; they hold 0 (log 3). -/
def State.reset : State where
  session := true
  tplPt := Config.pt0
  tplSsrc := Config.ssrc0
  txSeq := Config.seq0
  maxPkt := Config.maxPkt0
  txTs := 0
  rxSeen := false
  rxLastSeq := 0
  loss := false
  acc := []
  status := .ok
  count := 0
  resPkt := none
  resOut := []
  trace := []
  accCap := none
  script := []
  answers := []
  freeCtr := 0

/-- The machine before the first INIT: no session exists (R32, R202). The registers "have no value" then and no instruction
reads them; they stand at reset's values (log 3). -/
def State.powerOn : State := { State.reset with session := false }

end Sys2Proof.Machine
end

