-- ==== Sys2Proof/Machine/Ops.lean ====
section
/-! DEFINITION. The named operations over the state that the meanings share: concluding a command (the RHC's "trap entry",
spec/60_exceptions.md R191), the reassembly buffer (spec/20_memory.md R54), events and the alloc oracle
(spec/43_session_and_host.md R161, R163), registers by number (spec/10_state.md R31), taking the host's next command. -/

namespace Sys2Proof.Machine

/-! ### The end of a command (R29, R175, R191) -/

/-- The numeric result code (R176). -/
def statusCode (st : Status) : Nat :=
  match st with
  | .ok => 0
  | .headerTooShort => 1
  | .versionMismatch => 2
  | .insufficientBytes => 3
  | .payloadTooShort => 4
  | .bufferTooSmall => 5
  | .packetLost => 6
  | .allocFailed => 7
  | .discarded => 8
  | .invalidConfig => 9
  | .accOverflow => 10

/-- Every command ends here: `STATUS`, `COUNT` and the result ports are overwritten, and control is back with the host (R29,
R175). -/
def conclude (st : Status) (count : Nat) (pkt : Option Pkt) (out : Buffer) (s : State) : State :=
  { s with status := st, count := count, resPkt := pkt, resOut := out }

/-- `raise <Name>` and `return <Status>` of a command that returns no record and writes no bytes: `STATUS` gets the code and
`COUNT` gets 0; nothing else is recorded (R177, R191). An error returns to the host like any result (R192). -/
def raise (st : Status) (s : State) : State := conclude st 0 none [] s

/-- A command of the packetizer or the depacketizer, which has no meaning before the first INIT (R202, I17). -/
def inSession (s : State) (next : Host.Outcome State Fault Refusal) : Host.Outcome State Fault Refusal :=
  if s.session then next else .refused .noSession

/-- The end of an action of HUNPACK: the state it leaves and the result it returns or raises. -/
def finishWith (r : State × Status) : Host.Outcome State Fault Refusal := .next (raise r.2 r.1)

/-! ### The reassembly buffer (R54, R145, R146) -/

/-- Truncate: `ACC_SIZE <- 0` (R54). -/
def truncAcc (s : State) : State := { s with acc := [] }

/-- Whether `ACC_SIZE + k` exceeds a finite `ACC_CAP` (R146). -/
def overflows (s : State) (k : Nat) : Bool :=
  match s.accCap with
  | none => false
  | some c => c < s.accSize + k

/-- `ACC_SIZE ≤ ACC_CAP` when `ACC_CAP` is finite (R24): the form that every memory operation keeps. -/
def Memory.wf (s : State) : Bool :=
  match s.accCap with
  | none => true
  | some c => s.accSize ≤ c

/-- The effect that `LOSTFAIL` and an overflowing `APPEND` have on the state: `LOSS <- 1`, `ACC_SIZE <- 0` (R145, R146). -/
def dropLost (s : State) : State := { truncAcc s with loss := true }

/-- `LOSTFAIL` (R145): the state and the result `PacketLost`. -/
def lostFail (s : State) : State × Status := (dropLost s, .packetLost)

/-- `APPEND` (R146) when the bytes fit: `ACC[ACC_SIZE..ACC_SIZE+k) <- bytes`. -/
def appendAcc (bytes : Buffer) (s : State) : State := { s with acc := s.acc ++ bytes }

/-! ### Events and the oracle (R161 to R164) -/

/-- `emit <Event>` (R8): the trace only grows at its end (R163). -/
def emitEvents (es : List Event) (s : State) : State := { s with trace := s.trace ++ es }

/-- `oracle alloc(size)` (R7, R8): the host's next answer, or a free value where State.answers holds none (log 4). -/
def allocAnswer (s : State) : Bool :=
  match s.answers with
  | a :: _ => a
  | [] => Config.allocAnswer s.freeCtr

/-- The state after one answer is taken. -/
def takeAnswer (s : State) : State :=
  match s.answers with
  | _ :: rest => { s with answers := rest }
  | [] => { s with freeCtr := s.freeCtr + 1 }

/-- `DELIVER` (R147): the unit goes to the consumer with the current loss flag, which is then cleared. `lossFlags` has the flag
as bit 0 and no other bit (D34). -/
def deliver (bytes : Buffer) (ts : BitVec 32) (s : State) : State :=
  { emitEvents [.deliverUnit bytes bytes.length ts s.loss.toNat] s with loss := false }

/-! ### Registers by number (R31) -/

/-- What the host reads from register `n` (R31), as a number. There is no write: registers change only through commands. -/
def readReg (n : Nat) (s : State) : Option Nat :=
  match n with
  | 0 => some (statusCode s.status)
  | 1 => some s.count
  | 2 => some s.tplPt.toNat
  | 3 => some s.tplSsrc.toNat
  | 4 => some s.txSeq.toNat
  | 5 => some s.maxPkt
  | 6 => some s.txTs.toNat
  | 7 => some s.rxSeen.toNat
  | 8 => some s.rxLastSeq.toNat
  | 9 => some s.loss.toNat
  | 10 => some s.accSize
  | _ => none

/-! ### The host's next command (R33) -/

/-- The host's next command and the state in which it runs, or none when the host gives no further command. -/
def nextCommand (s : State) : Option (Request × State) :=
  match s.script with
  | [] => none
  | r :: rest => some (r, { s with script := rest })

end Sys2Proof.Machine
end

