-- ==== Sys2Proof/Machine/Operands.lean ====
section
/-! DEFINITION. Operand forms: the parts of an RTP packet read from a buffer and written to one (spec/30_encoding.md R61 to
R66, spec/40_wire_codec.md R91, R96), payloads, aggregation entries (R73 to R76, spec/42_h264_depacketizer.md R137), and the
NAL unit spans of a byte stream (spec/41_h264_packetizer.md R112, R113). -/

namespace Sys2Proof.Machine

/-! ### Parts of a packet, read -/

/-- `CSRC[0..CC)`: big-endian words right after the fixed header (R62). -/
def readCsrc (inp : Buffer) (cc : Nat) : List (BitVec 32) :=
  (List.range cc).map fun i => BitVec.ofNat 32 (memRead inp (Config.rtpFixed + 4 * i) 4)

/-- The extension fields of a packet and the bytes they take on the wire (R63). -/
structure ExtPart where
  rsvd : BitVec 16
  len : BitVec 16
  bytes : Buffer
  size : Nat
  deriving DecidableEq, Repr

/-- The extension, step 7 of DESER (R91, R93): `off` is where it starts, `paylen` the nominal payload length. -/
def readExt (x : Bool) (inp : Buffer) (off paylen : Nat) : Except Status ExtPart :=
  if x then
    if paylen < 4 then .error .payloadTooShort
    else if paylen < 4 * memRead inp (off + 2) 2 + 4 then .error .payloadTooShort
    else .ok ⟨BitVec.ofNat 16 (memRead inp off 2), BitVec.ofNat 16 (memRead inp (off + 2) 2),
      slice inp (off + 4) (4 * memRead inp (off + 2) 2), 4 + 4 * memRead inp (off + 2) 2⟩
  else .ok ⟨0, 0, [], 0⟩

/-- The payload length once padding is taken off, step 8 of DESER (R91, R94). -/
def stripPad (p : Bool) (inp : Buffer) (paylen : Nat) : Except Status Nat :=
  if p then
    if paylen = 0 then .error .insufficientBytes
    else if paylen < memRead inp (inp.length - 1) 1 then .error .insufficientBytes
    else .ok (paylen - memRead inp (inp.length - 1) 1)
  else .ok paylen

/-! ### Parts of a packet, written -/

/-- `PAYLEN` (R11). -/
def payLen (k : Pkt) : Nat := k.pay.length

/-- `HDRLEN(PKT)` (R96). -/
def hdrLen (k : Pkt) : Nat :=
  Config.rtpFixed + 4 * k.cc.toNat + (if k.x then 4 + 4 * k.extLen.toNat else 0)

/-- The CSRC words as written (R96): the `CC` valid slots (R13). -/
def csrcBytes (k : Pkt) : Buffer := (k.csrc.take k.cc.toNat).flatMap fun w => memWrite 4 w.toNat

/-- The extension as written: exactly when the flag is set (R96, R98 (3)). -/
def extBytes (k : Pkt) : Buffer :=
  if k.x then memWrite 2 k.extRsvd.toNat ++ memWrite 2 k.extLen.toNat ++ k.ext.take (4 * k.extLen.toNat) else []

/-- `WRITEHDR(PKT, OUT)` (R96): the bytes written from `OUT+0`. -/
def writeHdr (k : Pkt) : Buffer :=
  fixBytes k.v k.p k.x k.cc k.m k.pt k.seq k.ts k.ssrc ++ csrcBytes k ++ extBytes k

/-! ### Aggregation entries (R73 to R76, R137) -/

/-- `eh`: the bytes of an entry header, for a timestamp offset of `w` bytes (R137). -/
def entryHdr (w : Nat) : Nat := if w = 0 then 2 else 3 + w

/-- `tsoff` of the entry at the head of `rest` (R137); the DOND byte is not read. -/
def entryTsOff (w : Nat) (rest : Buffer) : BitVec 32 := if w = 0 then 0 else BitVec.ofNat 32 (memRead rest 3 w)

/-- Pass 1 of `AGG` (R137): the units of a sequence of entries with their timestamps, or none where an entry is malformed.
Every entry takes at least one byte, so `fuel` of the sequence's length is enough. -/
def aggEntries (fuel w : Nat) (ts : BitVec 32) (rest : Buffer) : Option (List (Buffer × BitVec 32)) :=
  match rest, fuel with
  | [], _ => some []
  | _ :: _, 0 => none
  | b :: bs, fuel + 1 =>
    let entry := b :: bs
    let len := memRead entry 0 2
    let body := entry.drop (entryHdr w)
    if entry.length < entryHdr w then none
    else if body.length < len then none
    else if len = 0 then none
    else if !unitTypeOk (byteAt body 0) then none
    else
      match aggEntries fuel w ts (body.drop len) with
      | none => none
      | some units => some ((body.take len, ts + entryTsOff w entry) :: units)

/-! ### NAL units of an Annex-B byte stream (R112, R113) -/

/-- `SC(IN, n, i)`: a start code at offset `i` (R112). -/
def isStartCode (inp : Buffer) (i : Nat) : Bool :=
  decide (i + 2 < inp.length) && byteAt inp i == 0 && byteAt inp (i + 1) == 0 && byteAt inp (i + 2) == 1

/-- `FINDSC(IN, n, p)`: the least offset from `p` on with a start code (R112). -/
def findStartCode (inp : Buffer) (p : Nat) : Option Nat :=
  (List.range' p (inp.length - p)).find? (isStartCode inp)

/-- `STRIP(IN, b, e)` (R113), where `k` is `e - b`: the end of the span without its trailing zero bytes. -/
def stripEnd (inp : Buffer) (b : Nat) : Nat → Nat
  | 0 => b
  | k + 1 => if byteAt inp (b + k) = 0 then stripEnd inp b k else b + (k + 1)

/-- The loop of `NALSCAN` (R112) from the start code at `i`. Every turn moves forward by 3 bytes or more, so `fuel` of the
input's length is enough. -/
def nalSpansFrom (inp : Buffer) : Nat → Option Nat → List (Nat × Nat)
  | _, none => []
  | 0, some _ => []
  | fuel + 1, some i =>
    let b := i + 3
    let j := findStartCode inp b
    (b, stripEnd inp b (j.getD inp.length - b)) :: nalSpansFrom inp fuel j

/-- `NALSCAN(IN, n)` (R112): the spans `(b, e)` of the NAL units, in order. -/
def nalSpans (inp : Buffer) : List (Nat × Nat) := nalSpansFrom inp inp.length (findStartCode inp 0)

/-- The NAL units that HPACK sends: the bytes of the spans that are not empty (R111 step 4). -/
def nalUnits (inp : Buffer) : List Buffer :=
  ((nalSpans inp).map fun be => slice inp be.1 (be.2 - be.1)).filter fun u => !u.isEmpty

end Sys2Proof.Machine
end

