-- ==== Sys2Proof/Machine/Flags.lean ====
section
/-! DEFINITION. Every flag the RHC computes (spec/10_state.md R28): the marker of an outgoing packet, the S and E flags of a
fragment, the sequence check's loss flag. -/

namespace Sys2Proof.Machine

/-- `M` of a single NAL unit packet: 1 exactly for types 1 to 5 (R115, D19). -/
def singleMarker (nalHdr : Byte) : Bool := 1 ≤ (nalType nalHdr).toNat && (nalType nalHdr).toNat ≤ 5

/-- `fuind` of a fragment of the NAL unit with this header: its `REF` and type 28 (R70). -/
def fuIndicator (nalHdr : Byte) : Byte := nalByte (nalRef nalHdr) 28

/-- `fuhdr` of a fragment: `S` on the first, `E` on the last, `R` written 0, and the original type (R71, R116). -/
def fuHeader (nalHdr : Byte) (first last : Bool) : Byte := fuByte first last false (nalType nalHdr)

/-- Whether `SEQCHECK` finds a gap: never for the first packet, else when `seq` is not `RX_LASTSEQ +16 1` (R21, R133). -/
def seqGap (s : State) (seq : BitVec 16) : Bool := s.rxSeen && seq != s.rxLastSeq + 1

/-- `SEQCHECK` (R133): on a gap `LOSS <- 1` and `ACC_SIZE <- 0`; `RX_SEEN` and `RX_LASTSEQ` in every case. -/
def seqCheck (seq : BitVec 16) (s : State) : State :=
  { (if seqGap s seq then dropLost s else s) with rxSeen := true, rxLastSeq := seq }

end Sys2Proof.Machine
end

