-- ==== Sys2Proof/Machine/WireCodec.lean ====
section
/-! DEFINITION. The Wire Codec unit (spec/40_wire_codec.md): the pure functions `Deser`, `SerHdr`, `Ser` (R90) and the
meanings of DESER, SERHDR, SER and of the fixed header's row. None needs a session (R202). -/

namespace Sys2Proof.Machine

/-- `Deser(bytes)` (R91): the record of a packet, or the first failing check in the order of R92. -/
def deser (inp : Buffer) : Except Status Pkt :=
  let b0 := byteAt inp 0
  let b1 := byteAt inp 1
  let hlen := Config.rtpFixed + 4 * (fixCc b0).toNat
  if inp.length < Config.rtpFixed then .error .headerTooShort
  else if fixV b0 ≠ Config.rtpVersion then .error .versionMismatch
  else if inp.length < hlen then .error .insufficientBytes
  else
    match readExt (fixX b0) inp hlen (inp.length - hlen) with
    | .error e => .error e
    | .ok ext =>
      match stripPad (fixP b0) inp (inp.length - hlen - ext.size) with
      | .error e => .error e
      | .ok paylen => .ok
        { v := fixV b0, p := fixP b0, x := fixX b0, cc := fixCc b0, m := fixM b1, pt := fixPt b1
          seq := BitVec.ofNat 16 (memRead inp 2 2), ts := BitVec.ofNat 32 (memRead inp 4 4)
          ssrc := BitVec.ofNat 32 (memRead inp 8 4), csrc := readCsrc inp (fixCc b0).toNat
          extRsvd := ext.rsvd, extLen := ext.len, ext := ext.bytes, pay := slice inp (hlen + ext.size) paylen }

/-- `SerHdr(record, cap)` (R96). -/
def serHdr (k : Pkt) (cap : Nat) : Except Status Buffer :=
  if k.v ≠ Config.rtpVersion then .error .versionMismatch
  else if cap < hdrLen k then .error .bufferTooSmall
  else .ok (writeHdr k)

/-- `Ser(record, cap)` (R97): the capacity is tested once, before the first write. -/
def ser (k : Pkt) (cap : Nat) : Except Status Buffer :=
  if k.v ≠ Config.rtpVersion then .error .versionMismatch
  else if cap < hdrLen k + payLen k then .error .bufferTooSmall
  else .ok (writeHdr k ++ k.pay)

/-- The end of a decoding command: the record, or the error and no record (R95). -/
def concludePkt (r : Except Status Pkt) (s : State) : State :=
  match r with
  | .ok k => conclude .ok 0 (some k) [] s
  | .error e => raise e s

/-- The end of an encoding command: `COUNT` and the bytes of `OUT`, or the error, `COUNT = 0` and nothing written (R96, R97). -/
def concludeOut (r : Except Status Buffer) (s : State) : State :=
  match r with
  | .ok out => conclude .ok out.length none out s
  | .error e => raise e s

/-- DESER (R91). -/
def execDeser (inp : Buffer) (s : State) : Host.Outcome State Fault Refusal := .next (concludePkt (deser inp) s)

/-- SERHDR (R96). -/
def execSerhdr (pkt : Pkt) (cap : Nat) (s : State) : Host.Outcome State Fault Refusal :=
  .next (concludeOut (serHdr pkt cap) s)

/-- SER (R97). -/
def execSer (pkt : Pkt) (cap : Nat) (s : State) : Host.Outcome State Fault Refusal := .next (concludeOut (ser pkt cap) s)

/-- RTPFIX (R61): what the Wire Codec reads from a packet that begins with this fixed header (R91, log 16). -/
def execRtpfix (p x : Bool) (cc : BitVec 4) (m : Bool) (pt : BitVec 7) (seq : BitVec 16) (ts ssrc : BitVec 32) (rest : Buffer)
    (s : State) : Host.Outcome State Fault Refusal :=
  .next (concludePkt (deser (fixBytes Config.rtpVersion p x cc m pt seq ts ssrc ++ rest)) s)

end Sys2Proof.Machine
end

