-- ==== Sys2Proof/Machine/Depacketizer.lean ====
section
/-! DEFINITION. The H.264 Depacketizer unit (spec/42_h264_depacketizer.md): the aggregation walker, the fragment handler, the
actions of the dispatch map, HUNPACK. An action answers the state it leaves and the result it returns or raises. -/

namespace Sys2Proof.Machine

/-! ### Shared procedures -/

/-- Pass 2 of `AGG` (R137): deliver the units in order. -/
def deliverAll : List (Buffer × BitVec 32) → State → State
  | [], s => s
  | (u, t) :: more, s => deliverAll more (deliver u t s)

/-- `AGG(PAY, m, ts, start, w)` (R137): a malformed packet delivers nothing. -/
def agg (start w : Nat) (pay : Buffer) (ts : BitVec 32) (s : State) : State × Status :=
  if pay.length < start then lostFail s
  else
    match aggEntries pay.length w ts (pay.drop start) with
    | none => lostFail s
    | some units => (deliverAll units s, .ok)

/-- `APPEND` (R146), then what follows it; an overflow ends the command with `AccOverflow`. -/
def appendThen (bytes : Buffer) (s : State) (next : State → State × Status) : State × Status :=
  if overflows s bytes.length then (dropLost s, .accOverflow) else next (appendAcc bytes s)

/-- Step 5 of `FU` (R142): at the END flag the accumulated unit is delivered with the current packet's timestamp and `ACC` is
emptied. -/
def fuFinish (eBit : Bool) (ts : BitVec 32) (s : State) : State × Status :=
  if eBit then (truncAcc (deliver s.acc ts s), .ok) else (s, .ok)

/-- Steps 3 to 6 of `FU` (R142) once the FU bytes are read: flags `S`, `E`, the indicator's `REF`, the header's `OTYPE`, and the
fragment's data. -/
def fuBody (sBit eBit : Bool) (ref : BitVec 3) (otype : BitVec 5) (data : Buffer) (ts : BitVec 32) (s : State) : State × Status :=
  if sBit then
    if unitTypeOk (nalByte ref otype) then
      appendThen [nalByte ref otype] (truncAcc s) fun s1 => appendThen data s1 (fuFinish eBit ts)
    else lostFail s
  else if s.accSize = 0 then lostFail s
  else appendThen data s (fuFinish eBit ts)

/-- `FU(PAY, m, ts, h)` (R142): `h` bytes stand before the fragment's data. -/
def fu (h : Nat) (pay : Buffer) (ts : BitVec 32) (s : State) : State × Status :=
  if pay.length < h then lostFail s
  else
    fuBody (fuS (byteAt pay 1)) (fuE (byteAt pay 1)) (nalRef (byteAt pay 0)) (fuOtype (byteAt pay 1)) (pay.drop h) ts s

/-! ### The actions (R135 to R144) -/

/-- `RSVD` (R135). -/
def actRsvd (s : State) : State × Status := (s, .discarded)

/-- `SNAL` (R136): the whole payload is one unit. -/
def actSnal (pay : Buffer) (ts : BitVec 32) (s : State) : State × Status := (deliver pay ts s, .ok)

/-- `STAPA` (R138). -/
def actStapa (pay : Buffer) (ts : BitVec 32) (s : State) : State × Status := agg 1 0 pay ts s

/-- `STAPB` (R139): entries follow the 16-bit DON. -/
def actStapb (pay : Buffer) (ts : BitVec 32) (s : State) : State × Status := agg 3 0 pay ts s

/-- `MTAP16` (R140): entries follow the 16-bit DONB; 16-bit timestamp offsets. -/
def actMtap16 (pay : Buffer) (ts : BitVec 32) (s : State) : State × Status := agg 3 2 pay ts s

/-- `MTAP24` (R141): as MTAP16 with 24-bit timestamp offsets. -/
def actMtap24 (pay : Buffer) (ts : BitVec 32) (s : State) : State × Status := agg 3 3 pay ts s

/-- `FUA` (R143): two bytes before the data. -/
def actFua (pay : Buffer) (ts : BitVec 32) (s : State) : State × Status := fu 2 pay ts s

/-- `FUB` (R144): the 16-bit DON after the FU header is skipped. -/
def actFub (pay : Buffer) (ts : BitVec 32) (s : State) : State × Status := fu 4 pay ts s

/-- Step 5 of HUNPACK (R131, R134): the action that the payload's first byte selects. -/
def payloadAction (pay : Buffer) (ts : BitVec 32) (s : State) : State × Status :=
  match nalAction (nalType (byteAt pay 0)) with
  | .rsvd => actRsvd s
  | .snal => actSnal pay ts s
  | .stapa => actStapa pay ts s
  | .stapb => actStapb pay ts s
  | .mtap16 => actMtap16 pay ts s
  | .mtap24 => actMtap24 pay ts s
  | .fua => actFua pay ts s
  | .fub => actFub pay ts s

/-- HUNPACK's steps (R131): decode, payload check, sequence check, dispatch. A failure of the first two changes nothing. -/
def hunpack (inp : Buffer) (s : State) : State × Status :=
  match deser inp with
  | .error e => (s, e)
  | .ok k => if k.pay = [] then (s, .payloadTooShort) else payloadAction k.pay k.ts (seqCheck k.seq s)

/-! ### The meanings -/

/-- HUNPACK (R131). -/
def execHunpack (inp : Buffer) (s : State) : Host.Outcome State Fault Refusal := inSession s (finishWith (hunpack inp s))

/-- RSVD (R135): nothing of the payload is read. -/
def execRsvd (s : State) : Host.Outcome State Fault Refusal := inSession s (finishWith (actRsvd s))

/-- SNAL (R136). -/
def execSnal (ref : BitVec 3) (ty : BitVec 5) (rest : Buffer) (ts : BitVec 32) (s : State) : Host.Outcome State Fault Refusal :=
  inSession s (finishWith (actSnal (nalByte ref ty :: rest) ts s))

/-- STAPA (R138). -/
def execStapa (ref : BitVec 3) (rest : Buffer) (ts : BitVec 32) (s : State) : Host.Outcome State Fault Refusal :=
  inSession s (finishWith (actStapa (nalByte ref 24 :: rest) ts s))

/-- STAPB (R139). -/
def execStapb (ref : BitVec 3) (rest : Buffer) (ts : BitVec 32) (s : State) : Host.Outcome State Fault Refusal :=
  inSession s (finishWith (actStapb (nalByte ref 25 :: rest) ts s))

/-- MTAP16 (R140). -/
def execMtap16 (ref : BitVec 3) (rest : Buffer) (ts : BitVec 32) (s : State) : Host.Outcome State Fault Refusal :=
  inSession s (finishWith (actMtap16 (nalByte ref 26 :: rest) ts s))

/-- MTAP24 (R141). -/
def execMtap24 (ref : BitVec 3) (rest : Buffer) (ts : BitVec 32) (s : State) : Host.Outcome State Fault Refusal :=
  inSession s (finishWith (actMtap24 (nalByte ref 27 :: rest) ts s))

/-- FUA (R143). -/
def execFua (ref : BitVec 3) (rest : Buffer) (ts : BitVec 32) (s : State) : Host.Outcome State Fault Refusal :=
  inSession s (finishWith (actFua (nalByte ref 28 :: rest) ts s))

/-- FUB (R144). -/
def execFub (ref : BitVec 3) (rest : Buffer) (ts : BitVec 32) (s : State) : Host.Outcome State Fault Refusal :=
  inSession s (finishWith (actFub (nalByte ref 29 :: rest) ts s))

/-- FU_MID (R142): a continuation that is not the last fragment. -/
def execFuMid (ref : BitVec 3) (otype : BitVec 5) (data : Buffer) (ts : BitVec 32) (s : State) :
    Host.Outcome State Fault Refusal :=
  inSession s (finishWith (fuBody false false ref otype data ts s))

/-- FU_END (R142): the last fragment. -/
def execFuEnd (ref : BitVec 3) (otype : BitVec 5) (data : Buffer) (ts : BitVec 32) (s : State) :
    Host.Outcome State Fault Refusal :=
  inSession s (finishWith (fuBody false true ref otype data ts s))

/-- FU_START (R142): the first fragment. -/
def execFuStart (ref : BitVec 3) (otype : BitVec 5) (data : Buffer) (ts : BitVec 32) (s : State) :
    Host.Outcome State Fault Refusal :=
  inSession s (finishWith (fuBody true false ref otype data ts s))

/-- FU_STARTEND (R142): first and last in one fragment, accepted on receive (D32). -/
def execFuStartEnd (ref : BitVec 3) (otype : BitVec 5) (data : Buffer) (ts : BitVec 32) (s : State) :
    Host.Outcome State Fault Refusal :=
  inSession s (finishWith (fuBody true true ref otype data ts s))

end Sys2Proof.Machine
end

