-- ==== Sys2Proof/Machine/Packetizer.lean ====
section
/-! DEFINITION. The H.264 Packetizer unit (spec/41_h264_packetizer.md): `EMIT`, the two emission modes, HPACK. -/

namespace Sys2Proof.Machine

/-- The record `EMIT` gives to `WRITEHDR`: the header template of R17 with the session's registers (R117). -/
def templatePkt (m : Bool) (s : State) : Pkt :=
  { Pkt.zero with v := Config.rtpVersion, m := m, pt := s.tplPt, seq := s.txSeq, ts := s.txTs, ssrc := s.tplSsrc }

/-- The packet `EMIT` builds around a payload (R82, R117). -/
def buildPacket (m : Bool) (pay : Buffer) (s : State) : Buffer := writeHdr (templatePkt m s) ++ pay

/-- Steps 2 to 5 of `EMIT` (R117), after the host granted the buffer: deliver, free, then the next sequence number. -/
def sendPacket (m : Bool) (pay : Buffer) (s : State) : State :=
  { emitEvents [.deliverPacket (buildPacket m pay s) (Config.rtpFixed + pay.length) s.txTs 0, .free] s with txSeq := s.txSeq + 1 }

/-- `EMIT` (R117): the state after it, and whether the allocation was granted. -/
def emit (m : Bool) (pay : Buffer) (s : State) : State × Bool :=
  let granted := allocAnswer s
  let asked := emitEvents [.alloc (Config.rtpFixed + pay.length) granted] (takeAnswer s)
  if granted then (sendPacket m pay asked, true) else (asked, false)

/-- `EMIT` for each packet of a list, in order, up to the first denial (R119, R120). -/
def emitAll : List (Bool × Buffer) → State → State × Bool
  | [], s => (s, true)
  | (m, pay) :: more, s =>
    match emit m pay s with
    | (s', true) => emitAll more s'
    | (s', false) => (s', false)

/-- The packet of `SNALPKT` (R115): marker and payload. -/
def singlePacket (nal : Buffer) : Bool × Buffer := (singleMarker (byteAt nal 0), nal)

/-- The loop of `FUAPKT` (R116): the remaining bytes `data` cut into chunks of `maxchunk` bytes, `M` and `E` on the last, `S` on
the first. A turn takes at least one byte when `maxchunk` is not 0, so `fuel` of the data's length is enough. -/
def fragmentsFrom (hdr : Byte) (maxchunk : Nat) : Nat → Bool → Buffer → List (Bool × Buffer)
  | 0, _, _ => []
  | fuel + 1, first, data =>
    if data = [] then []
    else
      let last := decide (data.length ≤ maxchunk)
      (last, fuIndicator hdr :: fuHeader hdr first last :: data.take maxchunk) ::
        fragmentsFrom hdr maxchunk fuel false (data.drop maxchunk)

/-- The packets of `FUAPKT` (R116): the NAL header byte is consumed, not sent. -/
def fragments (maxPkt : Nat) (nal : Buffer) : List (Bool × Buffer) :=
  fragmentsFrom (byteAt nal 0) (maxPkt - Config.fuOverhead) nal.length true (nal.drop 1)

/-- The mode choice (R114): whether a NAL unit goes as one packet. -/
def fitsSingle (maxPkt : Nat) (nal : Buffer) : Bool := Config.rtpFixed + nal.length ≤ maxPkt

/-- Whether `FUAPKT` would loop without progress: bytes remain and a fragment has no room for one (R212). -/
def stuckFragments (maxPkt : Nat) (nal : Buffer) : Bool := decide (maxPkt < Config.minMaxPkt) && !fitsSingle maxPkt nal

/-- The packets HPACK emits for one NAL unit (R111 steps 5 and 6). -/
def nalPackets (maxPkt : Nat) (nal : Buffer) : List (Bool × Buffer) :=
  if fitsSingle maxPkt nal then [singlePacket nal] else fragments maxPkt nal

/-- The end of a command of the packetizer: `OK`, or `AllocFailed` at the first denial (R120). -/
def concludeEmit (r : State × Bool) : State := raise (if r.2 then .ok else .allocFailed) r.1

/-- HPACK (R111). -/
def execHpack (inp : Buffer) (ts : BitVec 32) (s : State) : Host.Outcome State Fault Refusal :=
  inSession s <|
    if (nalUnits inp).any (stuckFragments s.maxPkt) then .fault .noProgress
    else .next (concludeEmit (emitAll ((nalUnits inp).flatMap (nalPackets s.maxPkt)) { s with txTs := ts }))

/-- SNALPKT (R115): a NAL unit that fits goes as one packet; the mode is not selected for any other (log 12). -/
def execSnalpkt (nal : Buffer) (s : State) : Host.Outcome State Fault Refusal :=
  inSession s <|
    if fitsSingle s.maxPkt nal then .next (concludeEmit (emitAll [singlePacket nal] s)) else .refused .modeNotSelected

/-- FUAPKT (R116): a NAL unit that does not fit goes as fragments; the mode is not selected for any other (log 12). -/
def execFuapkt (nal : Buffer) (s : State) : Host.Outcome State Fault Refusal :=
  inSession s <|
    if fitsSingle s.maxPkt nal then .refused .modeNotSelected
    else if stuckFragments s.maxPkt nal then .fault .noProgress
    else .next (concludeEmit (emitAll (fragments s.maxPkt nal) s))

end Sys2Proof.Machine
end

