-- ==== Sys2Proof/Machine/Session.lean ====
section
/-! DEFINITION. Session construction, which is the reset of the RHC: INIT (spec/43_session_and_host.md R160). -/

namespace Sys2Proof.Machine

/-- Steps 2 to 4 of INIT (R160, R32): the session registers at their operands or at their reset values, `ACC` and the trace
empty. `TX_TS` and `RX_LASTSEQ` get "no value": each a free value (log 3). -/
def openSession (pt : BitVec 7) (seq0 : BitVec 16) (ssrc : BitVec 32) (maxpkt : Nat) (s : State) : State :=
  { s with
    session := true, tplPt := pt, tplSsrc := ssrc, txSeq := seq0, maxPkt := maxpkt, txTs := Config.initTxTs s.freeCtr
    rxSeen := false, rxLastSeq := Config.initRxLastSeq s.freeCtr, loss := false, acc := [], trace := []
    freeCtr := s.freeCtr + 1 }

/-- INIT (R160): `InvalidConfig` leaves whatever session there was. -/
def execInit (pt : BitVec 7) (seq0 : BitVec 16) (ssrc : BitVec 32) (maxpkt : Nat) (s : State) :
    Host.Outcome State Fault Refusal :=
  if maxpkt < Config.minMaxPkt then .next (raise .invalidConfig s)
  else .next (raise .ok (openSession pt seq0 ssrc maxpkt s))

end Sys2Proof.Machine
end

