-- ==== Sys2Proof/Machine/Dispatch.lean ====
section
/-! DEFINITION. One arm per constructor of Instr. -/

namespace Sys2Proof.Machine

def exec (i : Instr) (s : State) : Host.Outcome State Fault Refusal :=
  match i with
  -- the host's commands (R79)
  | .init pt seq0 ssrc maxpkt => Sys2Proof.Machine.execInit pt seq0 ssrc maxpkt s
  | .deser inp => Sys2Proof.Machine.execDeser inp s
  | .serhdr pkt cap => Sys2Proof.Machine.execSerhdr pkt cap s
  | .ser pkt cap => Sys2Proof.Machine.execSer pkt cap s
  | .hpack inp ts => Sys2Proof.Machine.execHpack inp ts s
  | .hunpack inp => Sys2Proof.Machine.execHunpack inp s
  -- the actions of HUNPACK (R68)
  | .rsvd _ _ _ _ => Sys2Proof.Machine.execRsvd s
  | .snal ref ty rest ts => Sys2Proof.Machine.execSnal ref ty rest ts s
  | .stapa ref rest ts => Sys2Proof.Machine.execStapa ref rest ts s
  | .stapb ref rest ts => Sys2Proof.Machine.execStapb ref rest ts s
  | .mtap16 ref rest ts => Sys2Proof.Machine.execMtap16 ref rest ts s
  | .mtap24 ref rest ts => Sys2Proof.Machine.execMtap24 ref rest ts s
  | .fua ref rest ts => Sys2Proof.Machine.execFua ref rest ts s
  | .fub ref rest ts => Sys2Proof.Machine.execFub ref rest ts s
  -- the cases of the FU header's flags (R142); the R bit is ignored (R71)
  | .fuMid ref _ otype data ts => Sys2Proof.Machine.execFuMid ref otype data ts s
  | .fuEnd ref _ otype data ts => Sys2Proof.Machine.execFuEnd ref otype data ts s
  | .fuStart ref _ otype data ts => Sys2Proof.Machine.execFuStart ref otype data ts s
  | .fuStartEnd ref _ otype data ts => Sys2Proof.Machine.execFuStartEnd ref otype data ts s
  -- the fixed header (R61) and the emission modes (R115, R116)
  | .rtpfix p x cc m pt seq ts ssrc rest => Sys2Proof.Machine.execRtpfix p x cc m pt seq ts ssrc rest s
  | .snalpkt nal => Sys2Proof.Machine.execSnalpkt nal s
  | .fuapkt nal => Sys2Proof.Machine.execFuapkt nal s

end Sys2Proof.Machine
end

