-- ==== Sys2Proof/Machine/Step.lean ====
section
/-! DEFINITION. One step: the host's next command, decoded and run (spec/00_scope.md R7, spec/20_memory.md R49). -/

namespace Sys2Proof.Machine

/-- One step of the machine. With no command given nothing happens (R189: "Nothing happens in the block between commands"). -/
def step (s : State) : Host.Outcome State Fault Refusal :=
  match nextCommand s with
  | none => .next s
  | some (r, s') =>
    match decode r with
    | .error e => .refused (.undecodable e)
    | .ok i => exec i s'

/-- `s` with the instruction of a table word as the host's next command, all its operands zero or empty (logs 9 and 10). -/
def State.withFetchWord (s : State) (nbits w : Nat) : State := { s with script := tableRequest nbits w :: s.script }

end Sys2Proof.Machine
end

