-- ==== Sys2Proof/Safety.lean ====
section
/-! DEFINITION. The terms in which claims about whole steps are stated: which parts of the state two states share, what a
trace may look like (spec/43_session_and_host.md R161 to R164), and the invariants of the machine. -/

namespace Sys2Proof.Machine

/-! ### Parts of the state -/

/-- The packetizer's registers and the session's existence are the same (R16, R32). -/
def SameTx (s t : State) : Prop :=
  t.session = s.session ∧ t.tplPt = s.tplPt ∧ t.tplSsrc = s.tplSsrc ∧ t.txSeq = s.txSeq ∧ t.maxPkt = s.maxPkt ∧ t.txTs = s.txTs

/-- The depacketizer's registers and `ACC` are the same (R20). -/
def SameRx (s t : State) : Prop :=
  t.rxSeen = s.rxSeen ∧ t.rxLastSeq = s.rxLastSeq ∧ t.loss = s.loss ∧ t.acc = s.acc

/-- The result registers and ports are the same (R29). -/
def SameResult (s t : State) : Prop :=
  t.status = s.status ∧ t.count = s.count ∧ t.resPkt = s.resPkt ∧ t.resOut = s.resOut

/-- The capacity parameter and the commands to come are the same (R6, R33). -/
def SameHost (s t : State) : Prop := t.accCap = s.accCap ∧ t.script = s.script

/-- The alloc answers to come are the same (R33). -/
def SameOracle (s t : State) : Prop := t.answers = s.answers ∧ t.freeCtr = s.freeCtr

/-! ### The trace -/

/-- A trace of whole exchanges: an allocation of a packet's size is denied, or is granted and then followed by the one
delivery of a packet of that size and its free (R47, R162); no packet is longer than `MAXPKT` (R114) and each has the
template's byte 0 (R82); a delivered unit has a NAL type in 1 to 23 and a loss flag of one bit (R136, R137, R142, D34). -/
def traceOk (maxPkt : Nat) : List Event → Bool
  | [] => true
  | .alloc n false :: es => decide (Config.rtpFixed < n) && decide (n ≤ maxPkt) && traceOk maxPkt es
  | .alloc n true :: .deliverPacket b len _ flags :: .free :: es =>
    decide (Config.rtpFixed < n) && decide (n ≤ maxPkt) && b.length == n && len == n && flags == 0 && byteAt b 0 == 0x80#8 &&
      traceOk maxPkt es
  | .deliverUnit d len _ flags :: es =>
    !d.isEmpty && unitTypeOk (byteAt d 0) && len == d.length && decide (flags ≤ 1) && traceOk maxPkt es
  | _ => false

/-! ### Invariants -/

/-- What every state that a run reaches satisfies, whatever the script holds. -/
structure Inv (s : State) : Prop where
  /-- `MAXPKT ≥ 15` in a session (R6, R160). -/
  maxPkt_legal : s.session = true → Config.minMaxPkt ≤ s.maxPkt
  /-- `ACC_SIZE ≤ ACC_CAP` (R24). -/
  memory_wf : Memory.wf s = true
  /-- A reassembly in progress begins with a rebuilt NAL header of a type in 1 to 23 (R24, R142). -/
  acc_header : s.acc ≠ [] → unitTypeOk (byteAt s.acc 0) = true
  /-- The trace is one of whole exchanges. -/
  trace_ok : traceOk s.maxPkt s.trace = true

/-- Whether a request is one that the host can give: a command (R79). -/
def isCommand (r : Request) : Bool := r.space == .cmd

/-- What every state satisfies that a run reaches in which the host gives commands only. -/
structure HostInv (s : State) : Prop where
  inv : Inv s
  /-- The host gives commands, never the inside of one (R79). -/
  commands : s.script.all isCommand = true
  /-- Before the first sequence check there is no reassembly and no loss (R21, R23, R24). -/
  fresh : s.rxSeen = false → s.acc = [] ∧ s.loss = false

end Sys2Proof.Machine
end

