-- ==== Sys2Proof/Certificates/Slice0/Obligations.lean ====
section
/-! DEFINITION. The statements for the provers, each from the rules of spec/ that its docstring names. -/

open Sys2Proof Sys2Proof.Machine

namespace Sys2Proof.Claims

/-! ### Words the statements share -/

/-- A state with a result of one code, `COUNT = 0` and empty result ports (R29, R191). -/
def withResult (st : Status) (s : State) : State := { s with status := st, count := 0, resPkt := none, resOut := [] }

/-- The state that `LOSTFAIL` leaves, under the given result code (R145, R146). -/
def lost (st : Status) (s : State) : State := withResult st { s with loss := true, acc := [] }

/-- The state after the sequence check of a packet numbered `seq` (R133). -/
def checked (seq : BitVec 16) (s : State) : State :=
  { s with
    rxSeen := true, rxLastSeq := seq
    loss := s.loss || (s.rxSeen && seq != s.rxLastSeq + 1)
    acc := if s.rxSeen && seq != s.rxLastSeq + 1 then [] else s.acc }

/-- The events of delivering units in order: the first carries the loss flag, the others 0 (R147). -/
def unitEvents : Bool → List (Buffer × BitVec 32) → List Event
  | _, [] => []
  | flag, (u, t) :: more => .deliverUnit u u.length t flag.toNat :: unitEvents false more

/-- An aggregated unit that `AGG` accepts: 1 to 65535 bytes, type 1 to 23 (R73, R137). -/
def unitFits (u : Buffer) : Prop := 1 ≤ u.length ∧ u.length < 65536 ∧ 1 ≤ (byteAt u 0).toNat % 32 ∧ (byteAt u 0).toNat % 32 ≤ 23

/-- An entry of a STAP packet (R73). -/
def stapEntry (u : Buffer) : Buffer := memWrite 2 u.length ++ u

/-- An entry of an MTAP packet with a timestamp offset of `w` bytes (R75, R76). -/
def mtapEntry (w : Nat) (e : Buffer × Byte × Nat) : Buffer := memWrite 2 e.1.length ++ [e.2.1] ++ memWrite w e.2.2 ++ e.1

/-- The NAL header rebuilt from a fragment, as a number: `(fuind & 0xE0) | (fuhdr & 0x1F)` (R72). -/
def rebuilt (ref : BitVec 3) (otype : BitVec 5) : Byte := BitVec.ofNat 8 (ref.toNat * 32 + otype.toNat)

/-- The conditions under which a fragment is accepted (R142): a START rebuilds a type in 1 to 23, a continuation has a
reassembly in progress, and the bytes fit `ACC_CAP`. -/
def fragmentFits (sBit : Bool) (otype : BitVec 5) (data : Buffer) (s : State) : Prop :=
  (sBit = true → 1 ≤ otype.toNat ∧ otype.toNat ≤ 23) ∧ (sBit = false → s.acc ≠ []) ∧
    ∀ c, s.accCap = some c → (if sBit then 1 else s.acc.length) + data.length ≤ c

/-- The bytes accumulated after an accepted fragment (R142 steps 3 and 4). -/
def gathered (sBit : Bool) (ref : BitVec 3) (otype : BitVec 5) (data : Buffer) (s : State) : Buffer :=
  (if sBit then [rebuilt ref otype] else s.acc) ++ data

/-- The state after an accepted fragment (R142 steps 5 and 6). -/
def afterFragment (sBit eBit : Bool) (ref : BitVec 3) (otype : BitVec 5) (data : Buffer) (ts : BitVec 32) (s : State) : State :=
  let unit := gathered sBit ref otype data s
  withResult .ok <|
    if eBit then { s with acc := [], loss := false, trace := s.trace ++ [.deliverUnit unit unit.length ts s.loss.toNat] }
    else { s with acc := unit }

/-- A packet of the packetizer, byte by byte (R82). -/
def wirePacket (m : Bool) (pt : BitVec 7) (seq : BitVec 16) (ts ssrc : BitVec 32) (pay : Buffer) : Buffer :=
  [0x80#8, BitVec.ofNat 8 (m.toNat * 128 + pt.toNat)] ++ memWrite 2 seq.toNat ++ memWrite 4 ts.toNat ++ memWrite 4 ssrc.toNat ++ pay

/-- The events of sending packets in order, every allocation granted (R117, R119). -/
def sentEvents (pt : BitVec 7) (ts ssrc : BitVec 32) : BitVec 16 → List (Bool × Buffer) → List Event
  | _, [] => []
  | seq, (m, pay) :: more =>
    [.alloc (12 + pay.length) true, .deliverPacket (wirePacket m pt seq ts ssrc pay) (12 + pay.length) ts 0, .free] ++
      sentEvents pt ts ssrc (seq + 1) more

/-- The state after `q` packets are sent, every allocation granted; `more` are the answers left (R117). -/
def afterSending (q : List (Bool × Buffer)) (more : List Bool) (s : State) : State :=
  withResult .ok
    { s with
      trace := s.trace ++ sentEvents s.tplPt s.txTs s.tplSsrc s.txSeq q
      txSeq := s.txSeq + BitVec.ofNat 16 q.length
      answers := more }

/-- What sending the packets `q` from `s` leaves in `t`, whatever the host answers (R117, R119, R120): `sent` of them went out;
either these are all, or the next one was denied, which leaves only its `Alloc` event. The answers decide which: a denial
that comes after `k` grants, with packets left to send, stops the command there. -/
def SentOrDenied (q : List (Bool × Buffer)) (s t : State) : Prop :=
  ∃ sent : Nat, t.txSeq = s.txSeq + BitVec.ofNat 16 sent ∧ t.count = 0 ∧ t.resPkt = none ∧ t.resOut = [] ∧
    t.session = s.session ∧ t.tplPt = s.tplPt ∧ t.tplSsrc = s.tplSsrc ∧ t.maxPkt = s.maxPkt ∧ t.txTs = s.txTs ∧
    SameRx s t ∧ SameHost s t ∧
    ((t.status = .ok ∧ sent = q.length ∧ t.trace = s.trace ++ sentEvents s.tplPt s.txTs s.tplSsrc s.txSeq q) ∨
      ∃ m pay, q[sent]? = some (m, pay) ∧ t.status = .allocFailed ∧
        t.trace = s.trace ++ sentEvents s.tplPt s.txTs s.tplSsrc s.txSeq (q.take sent) ++ [.alloc (12 + pay.length) false]) ∧
    ∀ (k : Nat) (more : List Bool), s.answers = List.replicate k true ++ false :: more → k < q.length →
      sent = k ∧ t.status = .allocFailed ∧ t.answers = more

/-- The NAL units that HPACK has to send: the bytes of the spans that are not empty (R111 step 4). -/
def streamUnits (inp : Buffer) : List Buffer :=
  ((nalSpans inp).filter fun be => decide (be.1 < be.2)).map fun be => slice inp be.1 (be.2 - be.1)

/-- The packets HPACK has to send for a byte stream (R111): a NAL unit that fits `MAXPKT` with the header goes as it stands,
marked for types 1 to 5 (R114, R115), any other as fragments (R116, FragmentLaws). -/
def streamPackets (maxPkt : Nat) (inp : Buffer) : List (Bool × Buffer) :=
  (streamUnits inp).flatMap fun nal =>
    if 12 + nal.length ≤ maxPkt then [(decide (1 ≤ (byteAt nal 0).toNat % 32 ∧ (byteAt nal 0).toNat % 32 ≤ 5), nal)]
    else fragments maxPkt nal

/-- The fields of the fixed header of `inp`, by the arithmetic of R61. -/
def csrcCount (inp : Buffer) : Nat := (byteAt inp 0).toNat % 16
def hasExt (inp : Buffer) : Bool := (byteAt inp 0).toNat / 16 % 2 = 1
def hasPad (inp : Buffer) : Bool := (byteAt inp 0).toNat / 32 % 2 = 1

/-- Offset of the extension or payload: `12 + 4·CC` (R45). -/
def headEnd (inp : Buffer) : Nat := 12 + 4 * csrcCount inp

/-- `EXT_LEN` of `inp`, where it has an extension (R63). -/
def extWords (inp : Buffer) : Nat := memRead inp (headEnd inp + 2) 2

/-- Bytes that the extension takes (R63). -/
def extSize (inp : Buffer) : Nat := if hasExt inp then 4 + 4 * extWords inp else 0

/-- The padding count (R64). -/
def padCount (inp : Buffer) : Nat := if hasPad inp then (byteAt inp (inp.length - 1)).toNat else 0

/-- The payload of `inp`: what header, extension and padding leave (R65, R66). -/
def payloadOf (inp : Buffer) : Buffer :=
  slice inp (headEnd inp + extSize inp) (inp.length - (headEnd inp + extSize inp) - padCount inp)

/-- What a packet must satisfy for DESER to accept it (R91 steps 1, 3, 5, 7, 8). -/
def deserAccepts (inp : Buffer) : Prop :=
  12 ≤ inp.length ∧ (byteAt inp 0).toNat / 64 = 2 ∧ headEnd inp ≤ inp.length ∧
    (hasExt inp = true → headEnd inp + 4 ≤ inp.length ∧ headEnd inp + extSize inp ≤ inp.length) ∧
    (hasPad inp = true → headEnd inp + extSize inp < inp.length ∧ headEnd inp + extSize inp + padCount inp ≤ inp.length)

/-- The record of an accepted packet, field by field (R45, R91). -/
def IsRecordOf (inp : Buffer) (k : Pkt) : Prop :=
  k.v = 2 ∧ k.p = hasPad inp ∧ k.x = hasExt inp ∧ k.cc.toNat = csrcCount inp ∧
    k.m = decide ((byteAt inp 1).toNat / 128 = 1) ∧ k.pt.toNat = (byteAt inp 1).toNat % 128 ∧
    k.seq.toNat = memRead inp 2 2 ∧ k.ts.toNat = memRead inp 4 4 ∧ k.ssrc.toNat = memRead inp 8 4 ∧
    k.csrc.length = csrcCount inp ∧ (∀ i, i < csrcCount inp → (k.csrc.getD i 0).toNat = memRead inp (12 + 4 * i) 4) ∧
    (hasExt inp = true → k.extRsvd.toNat = memRead inp (headEnd inp) 2 ∧ k.extLen.toNat = extWords inp ∧
      k.ext = slice inp (headEnd inp + 4) (4 * extWords inp)) ∧
    (hasExt inp = false → k.extRsvd = 0 ∧ k.extLen = 0 ∧ k.ext = []) ∧
    k.pay = payloadOf inp

/-- The result of DESER by the order of its checks (R190). -/
def deserStatus (inp : Buffer) : Status :=
  if inp.length < 12 then .headerTooShort
  else if (byteAt inp 0).toNat / 64 ≠ 2 then .versionMismatch
  else if inp.length < headEnd inp then .insufficientBytes
  else if hasExt inp = true ∧ (inp.length < headEnd inp + 4 ∨ inp.length < headEnd inp + extSize inp) then .payloadTooShort
  else if hasPad inp = true ∧ (inp.length ≤ headEnd inp + extSize inp ∨ inp.length < headEnd inp + extSize inp + padCount inp) then
    .insufficientBytes
  else .ok

/-- The bytes that SERHDR writes (R96): `CC` words of the CSRC file, and with the extension flag, and only then, the extension
fields and `4·EXT_LEN` extension bytes. -/
def headerBytes (k : Pkt) : Buffer :=
  [BitVec.ofNat 8 (k.v.toNat * 64 + k.p.toNat * 32 + k.x.toNat * 16 + k.cc.toNat), BitVec.ofNat 8 (k.m.toNat * 128 + k.pt.toNat)] ++
    memWrite 2 k.seq.toNat ++ memWrite 4 k.ts.toNat ++ memWrite 4 k.ssrc.toNat ++
    (k.csrc.take k.cc.toNat).flatMap (fun w => memWrite 4 w.toNat) ++
    (if k.x then memWrite 2 k.extRsvd.toNat ++ memWrite 2 k.extLen.toNat ++ k.ext.take (4 * k.extLen.toNat) else [])

/-- `HDRLEN` (R96). -/
def headerLength (k : Pkt) : Nat := 12 + 4 * k.cc.toNat + (if k.x then 4 + 4 * k.extLen.toNat else 0)

/-- The state after SERHDR or SER wrote `out` (R96, R97). -/
def wrote (out : Buffer) (s : State) : State := { s with status := .ok, count := out.length, resPkt := none, resOut := out }

/-- The state after a successful DESER (R95). -/
def decoded (k : Pkt) (s : State) : State := { s with status := .ok, count := 0, resPkt := some k, resOut := [] }

/-- The CSRC words of the record `k` stand in `b` right behind the fixed header, byte by byte, the most significant byte of each at
the lowest offset (R62, R41). -/
def HasCsrcList (b : Buffer) (k : Pkt) : Prop :=
  let at' := fun o => (byteAt b o).toNat
  12 + 4 * k.cc.toNat ≤ b.length ∧ k.cc.toNat ≤ 15 ∧
    ∀ i, i < k.cc.toNat →
      (k.csrc.getD i 0).toNat =
        at' (12 + 4 * i) * 16777216 + at' (13 + 4 * i) * 65536 + at' (14 + 4 * i) * 256 + at' (15 + 4 * i)

/-- Events in which every granted buffer is delivered once, as the packet it was granted for, and then freed before anything
else happens (R162). -/
def wholeExchanges : List Event → Prop
  | [] => True
  | .alloc _ false :: es => wholeExchanges es
  | .alloc n true :: .deliverPacket b len _ _ :: .free :: es => b.length = n ∧ len = n ∧ wholeExchanges es
  | .deliverUnit _ _ _ _ :: es => wholeExchanges es
  | _ => False

/-- The fragment in the payload of an FU-A or FU-B packet: START flag, `OTYPE`, and the data behind the FU bytes (R72). -/
def payloadFragment : Buffer → Option (Bool × BitVec 5 × Buffer)
  | ind :: hdr :: data =>
    if ind.toNat % 32 = 28 then some (decide (128 ≤ hdr.toNat), BitVec.ofNat 5 hdr.toNat, data)
    else if ind.toNat % 32 = 29 ∧ 2 ≤ data.length then some (decide (128 ≤ hdr.toNat), BitVec.ofNat 5 hdr.toNat, data.drop 2)
    else none
  | _ => none

/-- The fragment that an instruction is given, if it is given one. -/
def carriedFragment : Instr → Option (Bool × BitVec 5 × Buffer)
  | .hunpack inp => if deserStatus inp = .ok then payloadFragment (payloadOf inp) else none
  | .fua ref rest _ => payloadFragment (BitVec.ofNat 8 (ref.toNat * 32 + 28) :: rest)
  | .fub ref rest _ => payloadFragment (BitVec.ofNat 8 (ref.toNat * 32 + 29) :: rest)
  | .fuMid _ _ otype data _ => some (false, otype, data)
  | .fuEnd _ _ otype data _ => some (false, otype, data)
  | .fuStart _ _ otype data _ => some (true, otype, data)
  | .fuStartEnd _ _ otype data _ => some (true, otype, data)
  | _ => none

/-- The packets among events, in order, as sequence number and timestamp fields of their headers. -/
def sentNumbers : List Event → List (Nat × Nat)
  | [] => []
  | .deliverPacket b _ _ _ :: es => (memRead b 2 2, memRead b 4 4) :: sentNumbers es
  | _ :: es => sentNumbers es

/-- A start code at offset `i` (R112): the bytes 0, 0, 1. -/
def startCodeAt (inp : Buffer) (i : Nat) : Prop :=
  i + 2 < inp.length ∧ byteAt inp i = 0x00#8 ∧ byteAt inp (i + 1) = 0x00#8 ∧ byteAt inp (i + 2) = 0x01#8

/-- A NAL unit as R148 (1) and R113 need it: at least its header byte, no start code inside, no zero byte at its end. -/
def streamSafe (nal : Buffer) : Prop :=
  nal ≠ [] ∧ byteAt nal (nal.length - 1) ≠ 0 ∧ ∀ i, ¬startCodeAt nal i

/-- An Annex-B stream of NAL units, each behind its start code (R69). -/
def annexB (nals : List Buffer) : Buffer := nals.flatMap fun nal => [0x00#8, 0x00#8, 0x01#8] ++ nal

/-- HUNPACK on packets in order, as long as each answers a next state (R131). -/
def unpackAll : List Buffer → State → Option State
  | [], s => some s
  | p :: more, s =>
    match exec (.hunpack p) s with
    | .next t => unpackAll more t
    | _ => none

/-- INIT and the instructions of the Wire Codec (R90, R202). -/
def isPureOrInit : Instr → Bool
  | .init _ _ _ _ => true
  | .deser _ => true
  | .serhdr _ _ => true
  | .ser _ _ => true
  | .rtpfix _ _ _ _ _ _ _ _ _ => true
  | _ => false

/-- The packets delivered among events, in order. -/
def sentPackets : List Event → List Buffer
  | [] => []
  | .deliverPacket b _ _ _ :: es => b :: sentPackets es
  | _ :: es => sentPackets es

end Sys2Proof.Claims

open Sys2Proof.Claims

/-! ### Decoding, stepping -/

/-- R7, R49, R79, R189: a step runs the host's next command as the decoder reads it, in the state with that command taken;
a request that decodes to nothing is refused; with no command given nothing happens. -/
def Obligations.StepRunsDecodedCommand : Prop :=
  (∀ (s : State) (r : Request) (rest : List Request), s.script = r :: rest →
    (∀ i, decode r = .ok i → step s = exec i { s with script := rest }) ∧
      ∀ e, decode r = .error e → step s = .refused (.undecodable e)) ∧
    ∀ s : State, s.script = [] → step s = .next s

/-- R61, R68, R71, R79: words written out from the tables of 30_encoding.md decode to the instructions they stand for. -/
def Obligations.WordsOfTheTablesDecode : Prop :=
  decodeTableWord 8 0x00 = some (.init 0 0 0 0) ∧ decodeTableWord 8 0x01 = some (.deser []) ∧
    decodeTableWord 8 0x02 = some (.serhdr Pkt.zero 0) ∧ decodeTableWord 8 0x03 = some (.ser Pkt.zero 0) ∧
    decodeTableWord 8 0x10 = some (.hpack [] 0) ∧ decodeTableWord 8 0x11 = some (.hunpack []) ∧
    decodeTableWord 8 0x1F = some (.rsvd 0 31 [] 0) ∧ decodeTableWord 8 0x67 = some (.snal 3 7 [] 0) ∧
    decodeTableWord 8 0x78 = some (.stapa 3 [] 0) ∧ decodeTableWord 8 0x1B = some (.mtap24 0 [] 0) ∧
    decodeTableWord 8 0x5C = some (.fua 2 [] 0) ∧ decodeTableWord 8 0x7D = some (.fub 3 [] 0) ∧
    decodeTableWord 8 0x80 = some (.fuStart 0 false 0 [] 0) ∧ decodeTableWord 8 0xC0 = some (.fuStartEnd 0 false 0 [] 0) ∧
    decodeTableWord 96 0x80600064000003E812345678 = some (.rtpfix false false 0 false 96 100 1000 0x12345678 [])

/-- R60 to R79 (the encodings), for all instructions: the decoder reads back every well-formed instruction from its encoding,
every operand at every value. -/
def Obligations.DecodeOfEncode : Prop := ∀ i : Instr, i.wf = true → decode (encode i) = .ok i

/-- R68, R71, R79, R83: what the decoder accepts is well formed, and the bytes it read are those the encoder gives back. -/
def Obligations.EncodeOfDecodeKeepsBytes : Prop :=
  ∀ (r : Request) (i : Instr), decode r = .ok i → i.wf = true ∧ (encode i).space = r.space ∧ (encode i).bytes = r.bytes

/-- R79: a selector byte outside the table names no command; the decoder refuses it by name and so does the step. -/
def Obligations.UnassignedSelectorIsRefused : Prop :=
  ∀ (sel : Byte) (ops : Operands), sel.toNat ∉ [0, 1, 2, 3, 16, 17] →
    decode ⟨.cmd, [sel], ops⟩ = .error (.noSuchCommand sel) ∧
      ∀ (s : State) (rest : List Request), s.script = ⟨.cmd, [sel], ops⟩ :: rest →
        step s = .refused (.undecodable (.noSuchCommand sel))

/-- R68, R134: the dispatch map. Each of the 256 first bytes selects the action of its low five bits, and bits 7:5 take no part. -/
def Obligations.DispatchMapIsTotal : Prop :=
  ∀ (b : Byte) (rest : Buffer) (ops : Operands),
    let ref : BitVec 3 := BitVec.ofNat 3 (b.toNat / 32)
    let ty := b.toNat % 32
    decode ⟨.nalhdr, b :: rest, ops⟩ =
      .ok (if ty = 0 ∨ ty = 30 ∨ ty = 31 then .rsvd ref (BitVec.ofNat 5 ty) rest ops.ts
        else if ty ≤ 23 then .snal ref (BitVec.ofNat 5 ty) rest ops.ts
        else if ty = 24 then .stapa ref rest ops.ts
        else if ty = 25 then .stapb ref rest ops.ts
        else if ty = 26 then .mtap16 ref rest ops.ts
        else if ty = 27 then .mtap24 ref rest ops.ts
        else if ty = 28 then .fua ref rest ops.ts
        else .fub ref rest ops.ts)

/-! ### Reset and INIT -/

/-- R32, R201: what reset leaves in the state whose reset value the spec gives. The INIT operands and the registers without a
value stand at the model's own choice (logs 2 and 3) and are not stated here. -/
def Obligations.ResetLeavesSpecValues : Prop :=
  State.reset.session = true ∧ State.reset.rxSeen = false ∧ State.reset.loss = false ∧ State.reset.accSize = 0 ∧
    State.reset.acc = [] ∧ State.reset.status = .ok ∧ State.reset.count = 0 ∧ State.reset.trace = [] ∧
    15 ≤ State.reset.maxPkt

/-- R160, R32: INIT with a legal packet size leaves the table of R32 in every state it is given in; the host's commands and
answers to come and the capacity are not touched. -/
def Obligations.InitOpensSession : Prop :=
  ∀ (pt : BitVec 7) (seq0 : BitVec 16) (ssrc : BitVec 32) (maxpkt : Nat) (s : State), 15 ≤ maxpkt →
    ∃ t, exec (.init pt seq0 ssrc maxpkt) s = .next t ∧
      t.session = true ∧ t.tplPt = pt ∧ t.tplSsrc = ssrc ∧ t.txSeq = seq0 ∧ t.maxPkt = maxpkt ∧
      t.rxSeen = false ∧ t.loss = false ∧ t.accSize = 0 ∧ t.acc = [] ∧ t.trace = [] ∧
      t.status = .ok ∧ t.count = 0 ∧ t.resPkt = none ∧ t.resOut = [] ∧ SameHost s t ∧ t.answers = s.answers

/-- R160, R186, R191: INIT with less than 15 creates no session and leaves the one there was; only the result changes. -/
def Obligations.InitRefusesSmallPackets : Prop :=
  ∀ (pt : BitVec 7) (seq0 : BitVec 16) (ssrc : BitVec 32) (maxpkt : Nat) (s : State), maxpkt < 15 →
    exec (.init pt seq0 ssrc maxpkt) s = .next (withResult .invalidConfig s)

/-- R202: before the first INIT the instructions of the packetizer and the depacketizer have no move, while INIT and the Wire
Codec's instructions answer a next state. -/
def Obligations.OnlyPureInstructionsBeforeInit : Prop :=
  ∀ (i : Instr) (s : State), s.session = false →
    if isPureOrInit i then ∃ t, exec i s = .next t else exec i s = .refused .noSession

/-! ### Wire Codec -/

/-- R91, R95: DESER of an acceptable packet returns the record whose every field is where R45 puts it, with or without a
session, and changes nothing but the result. -/
def Obligations.DeserReadsEveryField : Prop :=
  ∀ (inp : Buffer) (s : State), deserAccepts inp →
    ∃ k, IsRecordOf inp k ∧ k.wf = true ∧ exec (.deser inp) s = .next (decoded k s)

/-- R190 (DESER), R92, R178 to R181: the result of DESER is that of the first failing check; an error returns no record and
changes nothing else. -/
def Obligations.DeserChecksInOrder : Prop :=
  ∀ (inp : Buffer) (s : State), ∃ t, exec (.deser inp) s = .next t ∧ t.status = deserStatus inp ∧
    (deserStatus inp ≠ .ok → t = withResult (deserStatus inp) s)

/-- R100 (the spec's own derivation from R91): the length law. -/
def Obligations.DeserLengthLaw : Prop :=
  ∀ (inp : Buffer) (s t : State) (k : Pkt), exec (.deser inp) s = .next t → t.resPkt = some k →
    inp.length = 12 + 4 * k.cc.toNat + (if k.x then 4 + 4 * k.extLen.toNat else 0) + k.pay.length +
      (if k.p then (byteAt inp (inp.length - 1)).toNat else 0)

/-- R96, R98: SERHDR of a record with version 2 and room for its header writes exactly the header's bytes, the padding flag as
given; the extension only when the flag is set, and without the flag whatever the extension fields hold (R98 (3)). -/
def Obligations.SerhdrWritesHeader : Prop :=
  ∀ (k : Pkt) (cap : Nat) (s : State), k.complete = true → k.v = 2 → headerLength k ≤ cap →
    (headerBytes k).length = headerLength k ∧ exec (.serhdr k cap) s = .next (wrote (headerBytes k) s)

/-- R97, R98: SER writes the header, as SERHDR does, and then the payload. -/
def Obligations.SerWritesPacket : Prop :=
  ∀ (k : Pkt) (cap : Nat) (s : State), k.complete = true → k.v = 2 → headerLength k + k.pay.length ≤ cap →
    exec (.ser k cap) s = .next (wrote (headerBytes k ++ k.pay) s)

/-- R179, R182, R190 (SERHDR, SER): the version is checked before the capacity; a failing call writes nothing. -/
def Obligations.SerializersRefuse : Prop :=
  ∀ (k : Pkt) (cap : Nat) (s : State),
    (k.v ≠ 2 → exec (.serhdr k cap) s = .next (withResult .versionMismatch s) ∧
      exec (.ser k cap) s = .next (withResult .versionMismatch s)) ∧
      (k.v = 2 → cap < headerLength k → exec (.serhdr k cap) s = .next (withResult .bufferTooSmall s)) ∧
      (k.v = 2 → cap < headerLength k + k.pay.length → exec (.ser k cap) s = .next (withResult .bufferTooSmall s))

/-- R99 (the spec's own generalisation of T6): the header round trip, both ways. A record without padding flag, and without extension fields when it has no
extension, comes back from DESER of what SER wrote; what DESER accepts without padding comes back from SER byte for byte, and
with padding less its last `pad` bytes. -/
def Obligations.HeaderRoundTrip : Prop :=
  (∀ (k : Pkt) (cap : Nat) (s : State), k.wf = true → k.v = 2 → k.p = false →
    (k.x = false → k.extLen = 0 ∧ k.extRsvd = 0) → headerLength k + k.pay.length ≤ cap →
    ∃ out, exec (.ser k cap) s = .next (wrote out s) ∧ exec (.deser out) s = .next (decoded k s)) ∧
    ∀ (inp : Buffer) (s t : State) (k : Pkt) (cap : Nat), exec (.deser inp) s = .next t → t.resPkt = some k →
      headerLength k + k.pay.length ≤ cap →
      exec (.ser k cap) s = .next (wrote (if k.p then inp.take (inp.length - (byteAt inp (inp.length - 1)).toNat) else inp) s)

/-- R61, R91 (and log 16): a packet that begins with this fixed header, whatever follows it, is read as DESER reads it: where
DESER accepts it, the record has these fields, the version 2, and the other fields where R45 puts them; where it does not,
the result is that of the first failing check. -/
def Obligations.FixedHeaderIsRead : Prop :=
  ∀ (p x : Bool) (cc : BitVec 4) (m : Bool) (pt : BitVec 7) (seq : BitVec 16) (ts ssrc : BitVec 32) (rest : Buffer) (s : State),
    let inp := [BitVec.ofNat 8 (128 + p.toNat * 32 + x.toNat * 16 + cc.toNat), BitVec.ofNat 8 (m.toNat * 128 + pt.toNat)] ++
      memWrite 2 seq.toNat ++ memWrite 4 ts.toNat ++ memWrite 4 ssrc.toNat ++ rest
    (¬deserAccepts inp → exec (.rtpfix p x cc m pt seq ts ssrc rest) s = .next (withResult (deserStatus inp) s)) ∧
      (deserAccepts inp →
        ∃ k, exec (.rtpfix p x cc m pt seq ts ssrc rest) s = .next (decoded k s) ∧ IsRecordOf inp k ∧ k.v = 2 ∧ k.p = p ∧
          k.x = x ∧ k.cc = cc ∧ k.m = m ∧ k.pt = pt ∧ k.seq = seq ∧ k.ts = ts ∧ k.ssrc = ssrc)

/-- R90, R34: the Wire Codec reads no register and writes none. Its instructions leave every register, the trace and the
host's side alone, and their results do not depend on the state. -/
def Obligations.WireCodecIsPure : Prop :=
  ∀ (i : Instr) (s s' t t' : State),
    ((∃ inp, i = .deser inp) ∨ (∃ k cap, i = .serhdr k cap) ∨ (∃ k cap, i = .ser k cap) ∨
      ∃ p x cc m pt seq ts ssrc rest, i = .rtpfix p x cc m pt seq ts ssrc rest) →
    exec i s = .next t → exec i s' = .next t' →
    SameTx s t ∧ SameRx s t ∧ SameHost s t ∧ SameOracle s t ∧ t.trace = s.trace ∧ SameResult t t'

/-- R8, R41: every number in a buffer is read and written most significant byte first: `MemRead` and `MemWrite`, through which the
other statements speak of multi-byte fields, byte by byte for each of their widths (R43). -/
def Obligations.FieldsAreBigEndian : Prop :=
  (∀ (b : Buffer) (o : Nat),
    let at' := fun i => (byteAt b i).toNat
    (o + 1 ≤ b.length → memRead b o 1 = at' o) ∧
      (o + 2 ≤ b.length → memRead b o 2 = at' o * 256 + at' (o + 1)) ∧
      (o + 3 ≤ b.length → memRead b o 3 = at' o * 65536 + at' (o + 1) * 256 + at' (o + 2)) ∧
      (o + 4 ≤ b.length → memRead b o 4 = at' o * 16777216 + at' (o + 1) * 65536 + at' (o + 2) * 256 + at' (o + 3))) ∧
    ∀ v : Nat,
      memWrite 1 v = [BitVec.ofNat 8 v] ∧ memWrite 2 v = [BitVec.ofNat 8 (v / 256), BitVec.ofNat 8 v] ∧
        memWrite 3 v = [BitVec.ofNat 8 (v / 65536), BitVec.ofNat 8 (v / 256), BitVec.ofNat 8 v] ∧
        memWrite 4 v = [BitVec.ofNat 8 (v / 16777216), BitVec.ofNat 8 (v / 65536), BitVec.ofNat 8 (v / 256), BitVec.ofNat 8 v]

/-- R62: the CSRC list, byte by byte: DESER reads from it a record of `CC` words, none for `CC = 0` and at most 15; SERHDR and SER
write it from the record. -/
def Obligations.CsrcListLayout : Prop :=
  (∀ (inp : Buffer) (s : State) (k : Pkt), exec (.deser inp) s = .next (decoded k s) →
    k.csrc.length = k.cc.toNat ∧ HasCsrcList inp k) ∧
    (∀ (k : Pkt) (cap : Nat) (s : State), k.complete = true → k.v = 2 → headerLength k ≤ cap →
      ∃ out, exec (.serhdr k cap) s = .next (wrote out s) ∧ HasCsrcList out k) ∧
    ∀ (k : Pkt) (cap : Nat) (s : State), k.complete = true → k.v = 2 → headerLength k + k.pay.length ≤ cap →
      ∃ out, exec (.ser k cap) s = .next (wrote out s) ∧ HasCsrcList out k

/-! ### Packetizer -/

/-- R112, R113: what the boundary detector yields. Each span starts right after a start code and runs, less trailing zero
bytes, to the next start code or the end of the input, with no start code in between; every start code begins a span; spans
are in order. -/
def Obligations.NalScanFindsUnits : Prop :=
  ∀ inp : Buffer,
    (∀ b e, (b, e) ∈ nalSpans inp → 3 ≤ b ∧ b ≤ e ∧ e ≤ inp.length ∧ startCodeAt inp (b - 3) ∧
      (b < e → byteAt inp (e - 1) ≠ 0) ∧
      ∃ stop, e ≤ stop ∧ (stop = inp.length ∨ startCodeAt inp stop) ∧ (∀ i, b ≤ i → i < stop → ¬startCodeAt inp i) ∧
        ∀ i, e ≤ i → i < stop → byteAt inp i = 0) ∧
      (∀ i, startCodeAt inp i → ∃ e, (i + 3, e) ∈ nalSpans inp) ∧
      (nalSpans inp).Pairwise (fun x y => x.2 + 3 ≤ y.1)

/-- R69, R112, R113: the units found in an Annex-B stream of NAL units that contain no start code and do not end in a zero byte
are those units. -/
def Obligations.AnnexBStreamIsSplit : Prop :=
  ∀ nals : List Buffer, (∀ nal ∈ nals, streamSafe nal) → nalUnits (annexB nals) = nals

/-- R111, R117, R118: HPACK, every allocation granted. Each packet is allocated, delivered and freed, in order, with the
call's timestamp and consecutive sequence numbers; nothing but the packetizer's registers, the trace, the answers and the
result changes. -/
def Obligations.HpackSendsStream : Prop :=
  ∀ (inp : Buffer) (ts : BitVec 32) (s : State) (more : List Bool), s.session = true → 15 ≤ s.maxPkt →
    s.answers = List.replicate (streamPackets s.maxPkt inp).length true ++ more →
    exec (.hpack inp ts) s = .next (afterSending (streamPackets s.maxPkt inp) more { s with txTs := ts })

/-- R120, R118, R191 (AllocFailed): HPACK whatever the host answers. The packets before the first denial are sent, the denied
one leaves only its `Alloc` event and no sequence number, and nothing after it is processed; the depacketizer's registers do
not change. -/
def Obligations.HpackStopsAtDenial : Prop :=
  ∀ (inp : Buffer) (ts : BitVec 32) (s : State), s.session = true → 15 ≤ s.maxPkt →
    ∃ t, exec (.hpack inp ts) s = .next t ∧ SentOrDenied (streamPackets s.maxPkt inp) { s with txTs := ts } t

/-- R118, R19: every packet that one HPACK sends carries the call's timestamp, and their sequence numbers count up from
`TX_SEQ` modulo 65536, which ends one past the last. -/
def Obligations.HpackNumbersPackets : Prop :=
  ∀ (inp : Buffer) (ts : BitVec 32) (s t : State), exec (.hpack inp ts) s = .next t →
    ∃ es, t.trace = s.trace ++ es ∧
      sentNumbers es = (List.range (sentNumbers es).length).map (fun j => ((s.txSeq.toNat + j) % 65536, ts.toNat)) ∧
      t.txSeq.toNat = (s.txSeq.toNat + (sentNumbers es).length) % 65536

/-- R115, R117: SNALPKT of a NAL unit that fits, the allocation granted: one packet, marker set exactly for types 1 to 5, the
payload the NAL unit as it stands. -/
def Obligations.SingleNalPacket : Prop :=
  ∀ (nal : Buffer) (s : State) (more : List Bool), s.session = true → 1 ≤ nal.length →
    12 + nal.length ≤ s.maxPkt → s.answers = true :: more →
    exec (.snalpkt nal) s =
      .next (afterSending
        [(decide (1 ≤ (byteAt nal 0).toNat % 32 ∧ (byteAt nal 0).toNat % 32 ≤ 5), nal)] more s)

/-- R116, R117: FUAPKT of a NAL unit that does not fit, every allocation granted: its fragments are sent in order. -/
def Obligations.FragmentsAreSent : Prop :=
  ∀ (nal : Buffer) (s : State) (more : List Bool), s.session = true → 15 ≤ s.maxPkt → s.maxPkt < 12 + nal.length →
    s.answers = List.replicate (fragments s.maxPkt nal).length true ++ more →
    exec (.fuapkt nal) s = .next (afterSending (fragments s.maxPkt nal) more s)

/-- R115, R116, R117, R120: SNALPKT and FUAPKT whatever the host answers, as HPACK. -/
def Obligations.EmissionModesStopAtDenial : Prop :=
  ∀ (nal : Buffer) (s : State), s.session = true →
    (1 ≤ nal.length → 12 + nal.length ≤ s.maxPkt →
      ∃ t, exec (.snalpkt nal) s = .next t ∧
        SentOrDenied [(decide (1 ≤ (byteAt nal 0).toNat % 32 ∧ (byteAt nal 0).toNat % 32 ≤ 5), nal)] s t) ∧
      (15 ≤ s.maxPkt → s.maxPkt < 12 + nal.length →
        ∃ t, exec (.fuapkt nal) s = .next t ∧ SentOrDenied (fragments s.maxPkt nal) s t)

/-- R114, R115, R116 (and log 12): the two emission modes exclude each other. A NAL unit that fits `MAXPKT` is not fragmented,
and one that does not fit is not sent as one packet: the instruction of the other mode is refused by name. -/
def Obligations.EmissionModesExclude : Prop :=
  ∀ (nal : Buffer) (s : State), s.session = true →
    (12 + nal.length ≤ s.maxPkt → exec (.fuapkt nal) s = .refused .modeNotSelected) ∧
      (s.maxPkt < 12 + nal.length → exec (.snalpkt nal) s = .refused .modeNotSelected)

/-- R121 (in part the spec's own derivation), R116: the fragment laws. At least two fragments, `ceil((L − 1) / (MAXPKT − 14))` of them; S on the first only, E and
the marker on the last only, `R = 0`; every fragment but the last is full and none is empty; the chunks in order behind the
rebuilt header are the NAL unit. -/
def Obligations.FragmentLaws : Prop :=
  ∀ (maxPkt : Nat) (nal : Buffer), 15 ≤ maxPkt → maxPkt < 12 + nal.length →
    let fs := fragments maxPkt nal
    2 ≤ fs.length ∧ fs.length = (nal.length - 1 + (maxPkt - 14) - 1) / (maxPkt - 14) ∧
      byteAt nal 0 :: (fs.flatMap fun f => f.2.drop 2) = nal ∧
      ∀ (j : Nat) (m : Bool) (pay : Buffer), fs[j]? = some (m, pay) →
        (byteAt pay 0).toNat = (byteAt nal 0).toNat / 32 * 32 + 28 ∧
          (byteAt pay 1).toNat =
            (if j = 0 then 128 else 0) + (if j + 1 = fs.length then 64 else 0) + (byteAt nal 0).toNat % 32 ∧
          m = decide (j + 1 = fs.length) ∧ 3 ≤ pay.length ∧ 12 + pay.length ≤ maxPkt ∧
          (j + 1 < fs.length → 12 + pay.length = maxPkt)

/-- R34, R110: the packetizer's instructions read and write only the packetizer's registers and the oracle: on two states that
agree on these, whatever the depacketizer holds, they do the same and leave the depacketizer alone. -/
def Obligations.PacketizerIgnoresDepacketizer : Prop :=
  ∀ (i : Instr) (s s' t : State),
    ((∃ inp ts, i = .hpack inp ts) ∨ (∃ nal, i = .snalpkt nal) ∨ ∃ nal, i = .fuapkt nal) →
    SameTx s s' → SameOracle s s' → exec i s = .next t →
    ∃ t' es, exec i s' = .next t' ∧ SameTx t t' ∧ SameOracle t t' ∧ t'.status = t.status ∧ SameRx s t ∧ SameRx s' t' ∧
      SameHost s t ∧ t.trace = s.trace ++ es ∧ t'.trace = s'.trace ++ es

/-! ### Depacketizer -/

/-- R131, R132, R133, R134: HUNPACK's steps. A packet that DESER rejects, or with an empty payload, changes nothing but the
result; any other passes the sequence check and then does what the action of its first payload byte does. -/
def Obligations.HunpackSteps : Prop :=
  ∀ (inp : Buffer) (s : State), s.session = true →
    (deserStatus inp ≠ .ok → exec (.hunpack inp) s = .next (withResult (deserStatus inp) s)) ∧
      ∀ k, exec (.deser inp) s = .next (decoded k s) →
        (k.pay = [] → exec (.hunpack inp) s = .next (withResult .payloadTooShort s)) ∧
          ∀ (b : Byte) (rest : Buffer) (i : Instr) (ops : Operands), k.pay = b :: rest →
            decode ⟨.nalhdr, b :: rest, { ops with ts := k.ts }⟩ = .ok i →
            exec (.hunpack inp) s = exec i (checked k.seq s) ∧ ∃ t, exec i (checked k.seq s) = .next t

/-- R131, R202: in a session HUNPACK of every packet that DESER accepts and whose payload is not empty answers a next state: that of
the action which the payload's first byte selects, run after the sequence check. Only the depacketizer, the trace and the
result change. For a single NAL unit (R136) the next state is written out: the payload is delivered with the packet's
timestamp and the loss flag as the check leaves it, which is then cleared. -/
def Obligations.HunpackCompletes : Prop :=
  ∀ (inp : Buffer) (s : State), s.session = true → deserAccepts inp → payloadOf inp ≠ [] →
    ∃ (k : Pkt) (i : Instr) (t : State), exec (.hunpack inp) s = .next t ∧ IsRecordOf inp k ∧
      decode ⟨.nalhdr, payloadOf inp, { Operands.zero with ts := k.ts }⟩ = .ok i ∧ exec i (checked k.seq s) = .next t ∧
      t.rxSeen = true ∧ t.rxLastSeq = k.seq ∧ SameTx s t ∧ SameHost s t ∧ SameOracle s t ∧
      t.count = 0 ∧ t.resPkt = none ∧ t.resOut = [] ∧
      let ty := (byteAt (payloadOf inp) 0).toNat % 32
      let gap := s.rxSeen && k.seq != s.rxLastSeq + 1
      (1 ≤ ty → ty ≤ 23 →
        t = withResult .ok
          { s with
            rxSeen := true, rxLastSeq := k.seq, loss := false, acc := if gap then [] else s.acc
            trace := s.trace ++ [.deliverUnit (payloadOf inp) (payloadOf inp).length k.ts (s.loss || gap).toNat] })

/-- R133, R135: the sequence check, seen alone on a packet of a reserved type (0 or 31), which does nothing else. The first packet
is no gap (R21, the spec's decision D23); later the expected number is one past the last, modulo 65536; any other, a duplicate too, sets the loss flag and
empties the reassembly; the number is recorded in every case. -/
def Obligations.SequenceCheckSteps : Prop :=
  ∀ (inp : Buffer) (s : State) (k : Pkt) (b : Byte) (rest : Buffer), s.session = true →
    exec (.deser inp) s = .next (decoded k s) → k.pay = b :: rest → b.toNat % 32 = 0 ∨ b.toNat % 32 = 31 →
    (s.rxSeen = false →
      exec (.hunpack inp) s = .next (withResult .discarded { s with rxSeen := true, rxLastSeq := k.seq })) ∧
      (s.rxSeen = true → k.seq.toNat = (s.rxLastSeq.toNat + 1) % 65536 →
        exec (.hunpack inp) s = .next (withResult .discarded { s with rxLastSeq := k.seq })) ∧
      (s.rxSeen = true → k.seq.toNat ≠ (s.rxLastSeq.toNat + 1) % 65536 →
        exec (.hunpack inp) s = .next (withResult .discarded { s with rxLastSeq := k.seq, loss := true, acc := [] }))

/-- R131, R133, R136: HUNPACK of a single NAL unit packet delivers the payload with the packet's timestamp and the loss flag as
the sequence check leaves it, and clears the flag. -/
def Obligations.HunpackDeliversSingleNal : Prop :=
  ∀ (inp : Buffer) (s : State) (k : Pkt) (b : Byte) (rest : Buffer), s.session = true →
    exec (.deser inp) s = .next (decoded k s) → k.pay = b :: rest → 1 ≤ b.toNat % 32 → b.toNat % 32 ≤ 23 →
    exec (.hunpack inp) s =
      .next (withResult .ok
        { s with
          rxSeen := true, rxLastSeq := k.seq, loss := false
          acc := if s.rxSeen && k.seq != s.rxLastSeq + 1 then [] else s.acc
          trace := s.trace ++ [.deliverUnit k.pay k.pay.length k.ts (s.loss || (s.rxSeen && k.seq != s.rxLastSeq + 1)).toNat] })

/-- R135: the reserved types give `Discarded` and change nothing else. -/
def Obligations.ReservedTypesAreDiscarded : Prop :=
  ∀ (ref : BitVec 3) (ty : BitVec 5) (rest : Buffer) (ts : BitVec 32) (s : State), s.session = true →
    ty.toNat ∈ [0, 30, 31] → exec (.rsvd ref ty rest ts) s = .next (withResult .discarded s)

/-- R136: a single NAL unit is delivered whole, header byte first, with the packet's timestamp and the loss flag, which is
cleared; `ACC` is not touched. -/
def Obligations.SingleNalIsDelivered : Prop :=
  ∀ (ref : BitVec 3) (ty : BitVec 5) (rest : Buffer) (ts : BitVec 32) (s : State), s.session = true →
    1 ≤ ty.toNat → ty.toNat ≤ 23 →
    exec (.snal ref ty rest ts) s =
      .next (withResult .ok
        { s with
          loss := false
          trace := s.trace ++
            [.deliverUnit (BitVec.ofNat 8 (ref.toNat * 32 + ty.toNat) :: rest) (rest.length + 1) ts s.loss.toNat] })

/-- R137, R138, R139, R147: a well-formed STAP packet delivers each of its units in order with the packet's timestamp, the first
with the loss flag; the DON of a STAP-B is skipped whatever it is. -/
def Obligations.StapDeliversUnits : Prop :=
  ∀ (ref : BitVec 3) (d0 d1 : Byte) (us : List Buffer) (ts : BitVec 32) (s : State), s.session = true →
    (∀ u ∈ us, unitFits u) →
    let t := withResult .ok
      { s with trace := s.trace ++ unitEvents s.loss (us.map fun u => (u, ts)), loss := s.loss && us.isEmpty }
    exec (.stapa ref (us.flatMap stapEntry) ts) s = .next t ∧ exec (.stapb ref (d0 :: d1 :: us.flatMap stapEntry) ts) s = .next t

/-- R137, R140, R141: a well-formed MTAP packet delivers each unit with the packet's timestamp plus its own unsigned offset,
modulo 2^32; DONB and DOND are skipped whatever they are. -/
def Obligations.MtapDeliversUnits : Prop :=
  ∀ (ref : BitVec 3) (d0 d1 : Byte) (es : List (Buffer × Byte × Nat)) (ts : BitVec 32) (s : State), s.session = true →
    (∀ e ∈ es, unitFits e.1) →
    let t := withResult .ok
      { s with
        trace := s.trace ++ unitEvents s.loss (es.map fun e => (e.1, ts + BitVec.ofNat 32 e.2.2)), loss := s.loss && es.isEmpty }
    ((∀ e ∈ es, e.2.2 < 65536) → exec (.mtap16 ref (d0 :: d1 :: es.flatMap (mtapEntry 2)) ts) s = .next t) ∧
      ((∀ e ∈ es, e.2.2 < 16777216) → exec (.mtap24 ref (d0 :: d1 :: es.flatMap (mtapEntry 3)) ts) s = .next t)

/-- R137, R183: an aggregation packet whose bytes are not a sequence of well-formed entries is rejected whole: nothing is
delivered, loss is set, the reassembly is dropped. -/
def Obligations.MalformedAggregationIsLost : Prop :=
  ∀ (ref : BitVec 3) (rest : Buffer) (ts : BitVec 32) (s : State), s.session = true →
    ((¬∃ us : List Buffer, (∀ u ∈ us, unitFits u) ∧ rest = us.flatMap stapEntry) →
      exec (.stapa ref rest ts) s = .next (lost .packetLost s)) ∧
      ((¬∃ (d0 d1 : Byte) (us : List Buffer), (∀ u ∈ us, unitFits u) ∧ rest = d0 :: d1 :: us.flatMap stapEntry) →
        exec (.stapb ref rest ts) s = .next (lost .packetLost s)) ∧
      ((¬∃ (d0 d1 : Byte) (es : List (Buffer × Byte × Nat)), (∀ e ∈ es, unitFits e.1 ∧ e.2.2 < 65536) ∧ rest = d0 :: d1 :: es.flatMap (mtapEntry 2)) →
        exec (.mtap16 ref rest ts) s = .next (lost .packetLost s)) ∧
      ((¬∃ (d0 d1 : Byte) (es : List (Buffer × Byte × Nat)), (∀ e ∈ es, unitFits e.1 ∧ e.2.2 < 16777216) ∧ rest = d0 :: d1 :: es.flatMap (mtapEntry 3)) →
        exec (.mtap24 ref rest ts) s = .next (lost .packetLost s))

/-- R142, R143, R144: an accepted fragment, in each of the four cases of the flags, and as the payload of an FU-A or an FU-B
packet (whose DON is skipped): the accumulated bytes, and at the END flag the delivery with this packet's timestamp. The `R`
bit is ignored. -/
def Obligations.FragmentsReassemble : Prop :=
  ∀ (sBit eBit r : Bool) (ref : BitVec 3) (otype : BitVec 5) (d0 d1 : Byte) (data : Buffer) (ts : BitVec 32) (s : State),
    s.session = true → fragmentFits sBit otype data s →
    let t := afterFragment sBit eBit ref otype data ts s
    let hdr : Byte := BitVec.ofNat 8 (sBit.toNat * 128 + eBit.toNat * 64 + r.toNat * 32 + otype.toNat)
    (sBit = false → eBit = false → exec (.fuMid ref r otype data ts) s = .next t) ∧
      (sBit = false → eBit = true → exec (.fuEnd ref r otype data ts) s = .next t) ∧
      (sBit = true → eBit = false → exec (.fuStart ref r otype data ts) s = .next t) ∧
      (sBit = true → eBit = true → exec (.fuStartEnd ref r otype data ts) s = .next t) ∧
      exec (.fua ref (hdr :: data) ts) s = .next t ∧ exec (.fub ref (hdr :: d0 :: d1 :: data) ts) s = .next t

/-- R142, R143, R144, R145, R183: the fragments that fail with `PacketLost`, in each case of the flags and as the payload of an
FU-A or an FU-B packet: too few bytes for the FU bytes, a START that rebuilds a type outside 1 to 23, a continuation with no
START seen. -/
def Obligations.BadFragmentsAreLost : Prop :=
  ∀ (sBit eBit r : Bool) (ref : BitVec 3) (otype : BitVec 5) (d0 d1 : Byte) (data : Buffer) (ts : BitVec 32) (s : State),
    s.session = true →
    let t := lost .packetLost s
    let hdr : Byte := BitVec.ofNat 8 (sBit.toNat * 128 + eBit.toNat * 64 + r.toNat * 32 + otype.toNat)
    exec (.fua ref [] ts) s = .next t ∧ (data.length < 3 → exec (.fub ref data ts) s = .next t) ∧
      (sBit = true → ¬(1 ≤ otype.toNat ∧ otype.toNat ≤ 23) →
        exec (.fuStart ref r otype data ts) s = .next t ∧ exec (.fuStartEnd ref r otype data ts) s = .next t ∧
          exec (.fua ref (hdr :: data) ts) s = .next t ∧ exec (.fub ref (hdr :: d0 :: d1 :: data) ts) s = .next t) ∧
      (sBit = false → s.acc = [] →
        exec (.fuMid ref r otype data ts) s = .next t ∧ exec (.fuEnd ref r otype data ts) s = .next t ∧
          exec (.fua ref (hdr :: data) ts) s = .next t ∧ exec (.fub ref (hdr :: d0 :: d1 :: data) ts) s = .next t)

/-- R146, R187: a fragment whose bytes do not fit a finite `ACC_CAP` ends with `AccOverflow`, in each case of the flags and as the
payload of an FU-A or an FU-B packet; with `ACC_CAP` unbounded no instruction ends so. -/
def Obligations.OverflowNeedsCapacity : Prop :=
  (∀ (sBit eBit r : Bool) (ref : BitVec 3) (otype : BitVec 5) (d0 d1 : Byte) (data : Buffer) (ts : BitVec 32) (s : State) (c : Nat),
    s.session = true → s.accCap = some c →
    let t := lost .accOverflow s
    let hdr : Byte := BitVec.ofNat 8 (sBit.toNat * 128 + eBit.toNat * 64 + r.toNat * 32 + otype.toNat)
    (sBit = true → 1 ≤ otype.toNat → otype.toNat ≤ 23 → c < 1 + data.length →
      exec (.fuStart ref r otype data ts) s = .next t ∧ exec (.fuStartEnd ref r otype data ts) s = .next t ∧
        exec (.fua ref (hdr :: data) ts) s = .next t ∧ exec (.fub ref (hdr :: d0 :: d1 :: data) ts) s = .next t) ∧
      (sBit = false → s.acc ≠ [] → c < s.acc.length + data.length →
        exec (.fuMid ref r otype data ts) s = .next t ∧ exec (.fuEnd ref r otype data ts) s = .next t ∧
          exec (.fua ref (hdr :: data) ts) s = .next t ∧ exec (.fub ref (hdr :: d0 :: d1 :: data) ts) s = .next t)) ∧
    ∀ (i : Instr) (s t : State), s.accCap = none → exec i s = .next t → t.status ≠ .accOverflow

/-- R146, R187: nothing else ends with `AccOverflow`: an instruction that does was given a fragment whose bytes do not fit a finite
`ACC_CAP`, a START with a legal rebuilt type or a continuation of a reassembly in progress. -/
def Obligations.OverflowComesFromFragments : Prop :=
  ∀ (i : Instr) (s t : State), exec i s = .next t → t.status = .accOverflow →
    ∃ (c : Nat) (sBit : Bool) (otype : BitVec 5) (data : Buffer), s.accCap = some c ∧
      carriedFragment i = some (sBit, otype, data) ∧ c < (if sBit then 1 else s.acc.length) + data.length ∧
      (sBit = true → 1 ≤ otype.toNat ∧ otype.toNat ≤ 23) ∧ (sBit = false → s.acc ≠ [])

/-- R34, R130: HUNPACK reads and writes only the depacketizer's registers: on two states that agree on these and on the
capacity, whatever the packetizer holds, it does the same and leaves the packetizer alone. -/
def Obligations.DepacketizerIgnoresPacketizer : Prop :=
  ∀ (inp : Buffer) (s s' t : State), s.session = true → s'.session = true → s'.accCap = s.accCap → SameRx s s' →
    exec (.hunpack inp) s = .next t →
    ∃ t' es, exec (.hunpack inp) s' = .next t' ∧ SameRx t t' ∧ t'.status = t.status ∧ SameTx s t ∧ SameTx s' t' ∧
      SameHost s t ∧ SameOracle s t ∧ t.trace = s.trace ++ es ∧ t'.trace = s'.trace ++ es

/-- R23, R147, R193: the loss flag is sticky. A command that finds it set leaves it set, or is an INIT, or has delivered a unit,
the first of which carries the flag. -/
def Obligations.LossFlagIsSticky : Prop :=
  ∀ (i : Instr) (s t : State), s.loss = true → exec i s = .next t →
    t.loss = true ∨ (∃ pt q r n, i = .init pt q r n) ∨ ∃ u ts more, t.trace = s.trace ++ .deliverUnit u u.length ts 1 :: more

/-- R131, R133, R183, R191: a HUNPACK that fails with `PacketLost` or `AccOverflow` has recorded the packet's sequence number,
set `LOSS`, emptied `ACC` and emitted nothing. -/
def Obligations.LateFailureLeavesLoss : Prop :=
  ∀ (inp : Buffer) (s t : State), exec (.hunpack inp) s = .next t → t.status = .packetLost ∨ t.status = .accOverflow →
    t.rxSeen = true ∧ t.rxLastSeq.toNat = memRead inp 2 2 ∧ t.loss = true ∧ t.acc = [] ∧ t.trace = s.trace ∧ t.count = 0

/-- R148 (1), T1: packetizing an Annex-B stream and depacketizing the packets in order delivers the NAL units, byte-identical,
in order, each with loss flag 0 and the timestamp given to HPACK; units as R148 (1) requires them, every allocation granted,
`ACC_CAP` unbounded, the depacketizer fresh. -/
def Obligations.StreamRoundTrip : Prop :=
  ∀ (nals : List Buffer) (ts : BitVec 32) (s t r : State), s.session = true → 15 ≤ s.maxPkt → s.trace = [] →
    (∀ nal ∈ nals, streamSafe nal ∧ 1 ≤ (byteAt nal 0).toNat % 32 ∧ (byteAt nal 0).toNat % 32 ≤ 23) →
    exec (.hpack (annexB nals) ts) s = .next t → t.status = .ok →
    r.session = true → r.accCap = none → r.rxSeen = false → r.loss = false → r.acc = [] →
    ∃ r', unpackAll (sentPackets t.trace) r = some r' ∧ r'.loss = false ∧ r'.acc = [] ∧
      r'.trace = r.trace ++ nals.map (fun nal => .deliverUnit nal nal.length ts 0)

/-- R148 (2), T3, R133: after a gap in sequence numbers the END fragment of the unit whose reassembly the gap cut finds no START:
the bytes accumulated before the gap are discarded and not merged, nothing is delivered, and the loss flag is set. -/
def Obligations.GapDiscardsReassembly : Prop :=
  ∀ (inp : Buffer) (s : State) (k : Pkt) (ref : BitVec 3) (otype : BitVec 5) (data : Buffer), s.session = true →
    s.rxSeen = true → exec (.deser inp) s = .next (decoded k s) → k.seq ≠ s.rxLastSeq + 1 →
    k.pay = BitVec.ofNat 8 (ref.toNat * 32 + 28) :: BitVec.ofNat 8 (64 + otype.toNat) :: data →
    exec (.hunpack inp) s = .next (lost .packetLost { s with rxLastSeq := k.seq })

/-! ### The whole machine -/

/-- R163: the trace only grows, except that INIT empties it; the Wire Codec's commands emit nothing (WireCodecIsPure). -/
def Obligations.TraceOnlyGrows : Prop :=
  ∀ (i : Instr) (s t : State), exec i s = .next t →
    (∃ es, t.trace = s.trace ++ es) ∨ ((∃ pt q r n, i = .init pt q r n) ∧ t.trace = [])

/-- R162: every granted buffer is freed once, right after its one delivery and before anything else. -/
def Obligations.GrantsAreFreed : Prop :=
  ∀ (i : Instr) (s t : State), exec i s = .next t →
    (∃ es, t.trace = s.trace ++ es ∧ wholeExchanges es) ∨ ((∃ pt q r n, i = .init pt q r n) ∧ t.trace = [])

/-- R29, R177 (and log 15): `COUNT` is 0 after every result but that of a SERHDR or SER that wrote, where it is the number of bytes
written; a result other than `OK` records nothing but its code: `COUNT` is 0, and the two result ports, which are the model's
choice (log 15), are empty. -/
def Obligations.ErrorsRecordOnlyTheirCode : Prop :=
  ∀ (i : Instr) (s t : State), exec i s = .next t →
    (t.count = t.resOut.length ∧ (t.status ≠ .ok → t.count = 0 ∧ t.resPkt = none ∧ t.resOut = [])) ∧
      (t.count ≠ 0 → (∃ k cap, i = .serhdr k cap) ∨ ∃ k cap, i = .ser k cap)

/-- R16, R31, R6: the template registers, `MAXPKT` and the existence of a session change only through INIT; no instruction
changes the capacity or the commands to come. -/
def Obligations.OnlyInitConfigures : Prop :=
  ∀ (i : Instr) (s t : State), exec i s = .next t →
    SameHost s t ∧
      ((¬∃ pt q r n, i = .init pt q r n) →
        t.session = s.session ∧ t.tplPt = s.tplPt ∧ t.tplSsrc = s.tplSsrc ∧ t.maxPkt = s.maxPkt)

/-- R191, first row: an instruction that ends with one of these errors leaves exactly the state before it, but for the result. -/
def Obligations.EarlyErrorsChangeNothing : Prop :=
  ∀ (i : Instr) (s t : State), exec i s = .next t →
    t.status ∈ [Status.headerTooShort, .versionMismatch, .insufficientBytes, .payloadTooShort, .bufferTooSmall, .invalidConfig] →
    t = withResult t.status s

/-- The invariants hold at State.reset, and at State.powerOn, the state before the first INIT. They rest on values that the model
chose: the operands of the INIT that reset is (log 2), `ACC_CAP` (log 5), and, before the first INIT, where the spec gives no
register a value (R202), every register (log 3). -/
def Obligations.ResetMeetsInvariants : Prop := Inv State.reset ∧ HostInv State.reset ∧ Inv State.powerOn ∧ HostInv State.powerOn

/-- Every step keeps Inv (R6, R24, R47, R114, R162): legal `MAXPKT`, `ACC` within its capacity and headed by a valid rebuilt
header, and a trace of whole exchanges in which no packet exceeds `MAXPKT` and every delivered unit has a type in 1 to 23. -/
def Obligations.StepKeepsInvariant : Prop := ∀ s t : State, Inv s → step s = .next t → Inv t

/-- Every step of a run in which the host gives commands only keeps HostInv (R21, R24, R79). -/
def Obligations.StepKeepsHostInvariant : Prop := ∀ s t : State, HostInv s → step s = .next t → HostInv t

/-- R204, R212: from a state that meets Inv no step faults; and a step of a host's run in a session is refused only where the
decoder rejects the request. -/
def Obligations.NoStepFaults : Prop :=
  (∀ s : State, Inv s → ∀ f, step s ≠ .fault f) ∧
    ∀ s : State, HostInv s → s.session = true → ∀ r, step s = .refused r → ∃ e, r = .undecodable e
end

