-- ==== Sys2Proof/Laws/Codec.lean ====
section
/-! SUPPORT. Laws of the byte fields: reading what was written, for numbers (R8) and for the bits of the header bytes
(R61, R67, R71). -/

namespace Sys2Proof

/-! ### Big-endian numbers -/

@[simp] theorem memWrite_length (n v : Nat) : (memWrite n v).length = n := by
  induction n with
  | zero => rfl
  | succ n ih => simp [memWrite, ih]

theorem beNat_foldl (bs : Buffer) (a : Nat) :
    bs.foldl (fun acc b => acc * 256 + b.toNat) a = a * 256 ^ bs.length + beNat bs := by
  induction bs generalizing a with
  | nil => simp [beNat]
  | cons b bs ih =>
    have h0 : beNat (b :: bs) = (0 * 256 + b.toNat) * 256 ^ bs.length + beNat bs := ih (0 * 256 + b.toNat)
    rw [List.foldl_cons, ih, h0, List.length_cons, pow_succ]
    ring

@[simp] theorem beNat_nil : beNat [] = 0 := rfl

theorem beNat_cons (b : Byte) (bs : Buffer) : beNat (b :: bs) = b.toNat * 256 ^ bs.length + beNat bs := by
  rw [show beNat (b :: bs) = _ from beNat_foldl bs (0 * 256 + b.toNat)]
  simp

theorem beNat_lt (bs : Buffer) : beNat bs < 256 ^ bs.length := by
  induction bs with
  | nil => simp
  | cons b bs ih =>
    have hb : b.toNat < 256 := b.isLt
    rw [beNat_cons, List.length_cons, pow_succ]
    have := Nat.mul_le_mul_right (256 ^ bs.length) (Nat.succ_le_of_lt hb)
    rw [Nat.succ_mul] at this
    linarith

theorem beNat_memWrite (n v : Nat) : beNat (memWrite n v) = v % 256 ^ n := by
  induction n with
  | zero => simp [memWrite, Nat.mod_one]
  | succ n ih =>
    have hstep : v % 256 ^ (n + 1) = v % 256 ^ n + 256 ^ n * (v / 256 ^ n % 256) := by rw [pow_succ, Nat.mod_mul]
    rw [memWrite, beNat_cons, ih, memWrite_length, BitVec.toNat_ofNat, hstep, Nat.add_comm, Nat.mul_comm (256 ^ n)]

theorem memWrite_beNat (bs : Buffer) : memWrite bs.length (beNat bs) = bs := by
  induction bs with
  | nil => rfl
  | cons b bs ih =>
    have hlt := beNat_lt bs
    have hpos : 0 < 256 ^ bs.length := Nat.pos_of_ne_zero (by simp)
    have hq : beNat (b :: bs) / 256 ^ bs.length = b.toNat := by
      rw [beNat_cons, Nat.add_comm, Nat.add_mul_div_right _ _ hpos, Nat.div_eq_of_lt hlt, Nat.zero_add]
    have hshift : ∀ (n c v : Nat), memWrite n (c * 256 ^ n + v) = memWrite n v := by
      intro n
      induction n with
      | zero => intro c v; rfl
      | succ n ihn =>
        intro c v
        have e1 : c * 256 ^ (n + 1) + v = (c * 256) * 256 ^ n + v := by rw [pow_succ]; ring
        have hpn : 0 < 256 ^ n := Nat.pos_of_ne_zero (by simp)
        have e2 : ((c * 256) * 256 ^ n + v) / 256 ^ n = c * 256 + v / 256 ^ n := by
          rw [Nat.add_comm, Nat.add_mul_div_right _ _ hpn, Nat.add_comm]
        rw [memWrite, memWrite, e1, ihn (c * 256) v, e2]
        congr 1
        apply BitVec.eq_of_toNat_eq
        simp [BitVec.toNat_ofNat]
    rw [List.length_cons, memWrite, hq, beNat_cons, hshift, ih]
    simp

/-- Reading a field right after `pre` reads the number written there. -/
theorem memRead_append_memWrite (pre post : Buffer) (n v : Nat) :
    memRead (pre ++ (memWrite n v ++ post)) pre.length n = v % 256 ^ n := by
  have h : (memWrite n v ++ post).take n = memWrite n v := by
    rw [List.take_append_of_le_length (by simp), List.take_of_length_le (by simp)]
  simp [memRead, h, beNat_memWrite]

/-- A field that lies inside the first part of a buffer is read from that part. -/
theorem memRead_append_left (a b : Buffer) (o n : Nat) (h : o + n ≤ a.length) : memRead (a ++ b) o n = memRead a o n := by
  simp only [memRead]
  rw [List.drop_append_of_le_length (by omega), List.take_append_of_le_length (by simp; omega)]

/-- A field that lies inside the second part of a buffer is read from that part. -/
theorem memRead_append_right (a b : Buffer) (o n : Nat) : memRead (a ++ b) (a.length + o) n = memRead b o n := by
  have h : (a ++ b).drop (a.length + o) = b.drop o := by rw [← List.drop_drop, List.drop_left]
  rw [memRead, h, memRead]

theorem memRead_lt (b : Buffer) (o n : Nat) : memRead b o n < 256 ^ n :=
  (beNat_lt _).trans_le (Nat.pow_le_pow_right (by decide) (by simp))

/-- A one-byte field is the byte. -/
theorem memRead_one (b : Buffer) (o : Nat) (h : o < b.length) : memRead b o 1 = (byteAt b o).toNat := by
  have : (b.drop o).take 1 = [b[o]] := by
    rw [List.take_one_drop_eq_of_lt_length h]
    rfl
  simp [memRead, this, byteAt, h, beNat_cons]

/-- Writing back a field that was read gives the bytes it was read from. -/
theorem memWrite_memRead (b : Buffer) (o n : Nat) (h : o + n ≤ b.length) : memWrite n (memRead b o n) = slice b o n := by
  have hw := memWrite_beNat ((b.drop o).take n)
  simpa [memRead, slice, show min n (b.length - o) = n by omega] using hw

theorem byteAt_append_left (a b : Buffer) (o : Nat) (h : o < a.length) : byteAt (a ++ b) o = byteAt a o := by
  simp [byteAt, List.getD, List.getElem?_append_left h]

theorem byteAt_append_right (a b : Buffer) (o : Nat) : byteAt (a ++ b) (a.length + o) = byteAt b o := by
  simp only [byteAt, List.getD]
  rw [List.getElem?_append_right (by omega), Nat.add_sub_cancel_left]

@[simp] theorem byteAt_cons_zero (b : Byte) (bs : Buffer) : byteAt (b :: bs) 0 = b := rfl

@[simp] theorem byteAt_cons_succ (b : Byte) (bs : Buffer) (o : Nat) : byteAt (b :: bs) (o + 1) = byteAt bs o := rfl

/-! ### Bits of the header bytes -/

@[simp] theorem fixV_fixByte0 : ∀ (v : BitVec 2) (p x : Bool) (cc : BitVec 4), fixV (fixByte0 v p x cc) = v := by decide

@[simp] theorem fixP_fixByte0 : ∀ (v : BitVec 2) (p x : Bool) (cc : BitVec 4), fixP (fixByte0 v p x cc) = p := by decide

@[simp] theorem fixX_fixByte0 : ∀ (v : BitVec 2) (p x : Bool) (cc : BitVec 4), fixX (fixByte0 v p x cc) = x := by decide

@[simp] theorem fixCc_fixByte0 : ∀ (v : BitVec 2) (p x : Bool) (cc : BitVec 4), fixCc (fixByte0 v p x cc) = cc := by decide

@[simp] theorem fixM_fixByte1 : ∀ (m : Bool) (pt : BitVec 7), fixM (fixByte1 m pt) = m := by decide

@[simp] theorem fixPt_fixByte1 : ∀ (m : Bool) (pt : BitVec 7), fixPt (fixByte1 m pt) = pt := by decide

@[simp] theorem fixByte0_eta : ∀ b : Byte, fixByte0 (fixV b) (fixP b) (fixX b) (fixCc b) = b := by decide

@[simp] theorem fixByte1_eta : ∀ b : Byte, fixByte1 (fixM b) (fixPt b) = b := by decide

@[simp] theorem nalRef_nalByte : ∀ (ref : BitVec 3) (ty : BitVec 5), nalRef (nalByte ref ty) = ref := by decide

@[simp] theorem nalType_nalByte : ∀ (ref : BitVec 3) (ty : BitVec 5), nalType (nalByte ref ty) = ty := by decide

@[simp] theorem nalByte_eta : ∀ b : Byte, nalByte (nalRef b) (nalType b) = b := by decide

@[simp] theorem fuS_fuByte : ∀ (sBit eBit r : Bool) (ot : BitVec 5), fuS (fuByte sBit eBit r ot) = sBit := by decide

@[simp] theorem fuE_fuByte : ∀ (sBit eBit r : Bool) (ot : BitVec 5), fuE (fuByte sBit eBit r ot) = eBit := by decide

@[simp] theorem fuR_fuByte : ∀ (sBit eBit r : Bool) (ot : BitVec 5), fuR (fuByte sBit eBit r ot) = r := by decide

@[simp] theorem fuOtype_fuByte : ∀ (sBit eBit r : Bool) (ot : BitVec 5), fuOtype (fuByte sBit eBit r ot) = ot := by decide

@[simp] theorem fuByte_eta : ∀ b : Byte, fuByte (fuS b) (fuE b) (fuR b) (fuOtype b) = b := by decide

theorem fixV_toNat : ∀ b : Byte, (fixV b).toNat = b.toNat / 64 := by decide

theorem fixP_eq : ∀ b : Byte, fixP b = decide (b.toNat / 32 % 2 = 1) := by decide

theorem fixX_eq : ∀ b : Byte, fixX b = decide (b.toNat / 16 % 2 = 1) := by decide

theorem fixCc_toNat : ∀ b : Byte, (fixCc b).toNat = b.toNat % 16 := by decide

theorem fixM_eq : ∀ b : Byte, fixM b = decide (b.toNat / 128 = 1) := by decide

theorem fixPt_toNat : ∀ b : Byte, (fixPt b).toNat = b.toNat % 128 := by decide

theorem nalType_toNat : ∀ b : Byte, (nalType b).toNat = b.toNat % 32 := by decide

/-- The number that a header byte is, as the shifts of R61 build it. -/
theorem fixByte0_toNat : ∀ (v : BitVec 2) (p x : Bool) (cc : BitVec 4),
    (fixByte0 v p x cc).toNat = v.toNat * 64 + p.toNat * 32 + x.toNat * 16 + cc.toNat := by decide

theorem fixByte1_toNat : ∀ (m : Bool) (pt : BitVec 7), (fixByte1 m pt).toNat = m.toNat * 128 + pt.toNat := by decide

theorem nalByte_toNat : ∀ (ref : BitVec 3) (ty : BitVec 5), (nalByte ref ty).toNat = ref.toNat * 32 + ty.toNat := by decide

theorem fuByte_toNat : ∀ (sBit eBit r : Bool) (ot : BitVec 5),
    (fuByte sBit eBit r ot).toNat = sBit.toNat * 128 + eBit.toNat * 64 + r.toNat * 32 + ot.toNat := by decide

@[simp] theorem fixBytes_length (v : BitVec 2) (p x : Bool) (cc : BitVec 4) (m : Bool) (pt : BitVec 7) (seq : BitVec 16)
    (ts ssrc : BitVec 32) : (fixBytes v p x cc m pt seq ts ssrc).length = 12 := by simp [fixBytes]

/-! ### The decoder -/

/-- What the decoder accepts is well formed. -/
theorem decode_ok {r : Request} {i : Instr} (h : decode r = .ok i) : decodeRaw r = .ok i ∧ i.wf = true := by
  unfold decode at h
  cases hr : decodeRaw r with
  | error e => simp [hr] at h
  | ok j =>
    simp only [hr] at h
    split at h
    · rename_i hw
      cases h
      exact ⟨rfl, hw⟩
    · cases h

end Sys2Proof
end

