-- ==== Sys2Proof/Laws/State.lean ====
section
/-! SUPPORT. What each operation of Machine/ writes, one lemma for each field of State, so that no later proof unfolds a
record update. -/

namespace Sys2Proof.Machine

variable (s : State)

/-! ### conclude -/

@[simp] theorem conclude_session (st : Status) (n : Nat) (k : Option Pkt) (out : Buffer) : (conclude st n k out s).session = s.session := rfl
@[simp] theorem conclude_tplPt (st : Status) (n : Nat) (k : Option Pkt) (out : Buffer) : (conclude st n k out s).tplPt = s.tplPt := rfl
@[simp] theorem conclude_tplSsrc (st : Status) (n : Nat) (k : Option Pkt) (out : Buffer) : (conclude st n k out s).tplSsrc = s.tplSsrc := rfl
@[simp] theorem conclude_txSeq (st : Status) (n : Nat) (k : Option Pkt) (out : Buffer) : (conclude st n k out s).txSeq = s.txSeq := rfl
@[simp] theorem conclude_maxPkt (st : Status) (n : Nat) (k : Option Pkt) (out : Buffer) : (conclude st n k out s).maxPkt = s.maxPkt := rfl
@[simp] theorem conclude_txTs (st : Status) (n : Nat) (k : Option Pkt) (out : Buffer) : (conclude st n k out s).txTs = s.txTs := rfl
@[simp] theorem conclude_rxSeen (st : Status) (n : Nat) (k : Option Pkt) (out : Buffer) : (conclude st n k out s).rxSeen = s.rxSeen := rfl
@[simp] theorem conclude_rxLastSeq (st : Status) (n : Nat) (k : Option Pkt) (out : Buffer) : (conclude st n k out s).rxLastSeq = s.rxLastSeq := rfl
@[simp] theorem conclude_loss (st : Status) (n : Nat) (k : Option Pkt) (out : Buffer) : (conclude st n k out s).loss = s.loss := rfl
@[simp] theorem conclude_acc (st : Status) (n : Nat) (k : Option Pkt) (out : Buffer) : (conclude st n k out s).acc = s.acc := rfl
@[simp] theorem conclude_status (st : Status) (n : Nat) (k : Option Pkt) (out : Buffer) : (conclude st n k out s).status = st := rfl
@[simp] theorem conclude_count (st : Status) (n : Nat) (k : Option Pkt) (out : Buffer) : (conclude st n k out s).count = n := rfl
@[simp] theorem conclude_resPkt (st : Status) (n : Nat) (k : Option Pkt) (out : Buffer) : (conclude st n k out s).resPkt = k := rfl
@[simp] theorem conclude_resOut (st : Status) (n : Nat) (k : Option Pkt) (out : Buffer) : (conclude st n k out s).resOut = out := rfl
@[simp] theorem conclude_trace (st : Status) (n : Nat) (k : Option Pkt) (out : Buffer) : (conclude st n k out s).trace = s.trace := rfl
@[simp] theorem conclude_accCap (st : Status) (n : Nat) (k : Option Pkt) (out : Buffer) : (conclude st n k out s).accCap = s.accCap := rfl
@[simp] theorem conclude_script (st : Status) (n : Nat) (k : Option Pkt) (out : Buffer) : (conclude st n k out s).script = s.script := rfl
@[simp] theorem conclude_answers (st : Status) (n : Nat) (k : Option Pkt) (out : Buffer) : (conclude st n k out s).answers = s.answers := rfl
@[simp] theorem conclude_freeCtr (st : Status) (n : Nat) (k : Option Pkt) (out : Buffer) : (conclude st n k out s).freeCtr = s.freeCtr := rfl

/-! ### raise -/

@[simp] theorem raise_session (st : Status) : (raise st s).session = s.session := rfl
@[simp] theorem raise_tplPt (st : Status) : (raise st s).tplPt = s.tplPt := rfl
@[simp] theorem raise_tplSsrc (st : Status) : (raise st s).tplSsrc = s.tplSsrc := rfl
@[simp] theorem raise_txSeq (st : Status) : (raise st s).txSeq = s.txSeq := rfl
@[simp] theorem raise_maxPkt (st : Status) : (raise st s).maxPkt = s.maxPkt := rfl
@[simp] theorem raise_txTs (st : Status) : (raise st s).txTs = s.txTs := rfl
@[simp] theorem raise_rxSeen (st : Status) : (raise st s).rxSeen = s.rxSeen := rfl
@[simp] theorem raise_rxLastSeq (st : Status) : (raise st s).rxLastSeq = s.rxLastSeq := rfl
@[simp] theorem raise_loss (st : Status) : (raise st s).loss = s.loss := rfl
@[simp] theorem raise_acc (st : Status) : (raise st s).acc = s.acc := rfl
@[simp] theorem raise_status (st : Status) : (raise st s).status = st := rfl
@[simp] theorem raise_count (st : Status) : (raise st s).count = 0 := rfl
@[simp] theorem raise_resPkt (st : Status) : (raise st s).resPkt = none := rfl
@[simp] theorem raise_resOut (st : Status) : (raise st s).resOut = [] := rfl
@[simp] theorem raise_trace (st : Status) : (raise st s).trace = s.trace := rfl
@[simp] theorem raise_accCap (st : Status) : (raise st s).accCap = s.accCap := rfl
@[simp] theorem raise_script (st : Status) : (raise st s).script = s.script := rfl
@[simp] theorem raise_answers (st : Status) : (raise st s).answers = s.answers := rfl
@[simp] theorem raise_freeCtr (st : Status) : (raise st s).freeCtr = s.freeCtr := rfl

/-! ### truncAcc -/

@[simp] theorem truncAcc_session : (truncAcc s).session = s.session := rfl
@[simp] theorem truncAcc_tplPt : (truncAcc s).tplPt = s.tplPt := rfl
@[simp] theorem truncAcc_tplSsrc : (truncAcc s).tplSsrc = s.tplSsrc := rfl
@[simp] theorem truncAcc_txSeq : (truncAcc s).txSeq = s.txSeq := rfl
@[simp] theorem truncAcc_maxPkt : (truncAcc s).maxPkt = s.maxPkt := rfl
@[simp] theorem truncAcc_txTs : (truncAcc s).txTs = s.txTs := rfl
@[simp] theorem truncAcc_rxSeen : (truncAcc s).rxSeen = s.rxSeen := rfl
@[simp] theorem truncAcc_rxLastSeq : (truncAcc s).rxLastSeq = s.rxLastSeq := rfl
@[simp] theorem truncAcc_loss : (truncAcc s).loss = s.loss := rfl
@[simp] theorem truncAcc_acc : (truncAcc s).acc = [] := rfl
@[simp] theorem truncAcc_status : (truncAcc s).status = s.status := rfl
@[simp] theorem truncAcc_count : (truncAcc s).count = s.count := rfl
@[simp] theorem truncAcc_resPkt : (truncAcc s).resPkt = s.resPkt := rfl
@[simp] theorem truncAcc_resOut : (truncAcc s).resOut = s.resOut := rfl
@[simp] theorem truncAcc_trace : (truncAcc s).trace = s.trace := rfl
@[simp] theorem truncAcc_accCap : (truncAcc s).accCap = s.accCap := rfl
@[simp] theorem truncAcc_script : (truncAcc s).script = s.script := rfl
@[simp] theorem truncAcc_answers : (truncAcc s).answers = s.answers := rfl
@[simp] theorem truncAcc_freeCtr : (truncAcc s).freeCtr = s.freeCtr := rfl

/-! ### dropLost -/

@[simp] theorem dropLost_session : (dropLost s).session = s.session := rfl
@[simp] theorem dropLost_tplPt : (dropLost s).tplPt = s.tplPt := rfl
@[simp] theorem dropLost_tplSsrc : (dropLost s).tplSsrc = s.tplSsrc := rfl
@[simp] theorem dropLost_txSeq : (dropLost s).txSeq = s.txSeq := rfl
@[simp] theorem dropLost_maxPkt : (dropLost s).maxPkt = s.maxPkt := rfl
@[simp] theorem dropLost_txTs : (dropLost s).txTs = s.txTs := rfl
@[simp] theorem dropLost_rxSeen : (dropLost s).rxSeen = s.rxSeen := rfl
@[simp] theorem dropLost_rxLastSeq : (dropLost s).rxLastSeq = s.rxLastSeq := rfl
@[simp] theorem dropLost_loss : (dropLost s).loss = true := rfl
@[simp] theorem dropLost_acc : (dropLost s).acc = [] := rfl
@[simp] theorem dropLost_status : (dropLost s).status = s.status := rfl
@[simp] theorem dropLost_count : (dropLost s).count = s.count := rfl
@[simp] theorem dropLost_resPkt : (dropLost s).resPkt = s.resPkt := rfl
@[simp] theorem dropLost_resOut : (dropLost s).resOut = s.resOut := rfl
@[simp] theorem dropLost_trace : (dropLost s).trace = s.trace := rfl
@[simp] theorem dropLost_accCap : (dropLost s).accCap = s.accCap := rfl
@[simp] theorem dropLost_script : (dropLost s).script = s.script := rfl
@[simp] theorem dropLost_answers : (dropLost s).answers = s.answers := rfl
@[simp] theorem dropLost_freeCtr : (dropLost s).freeCtr = s.freeCtr := rfl

/-! ### appendAcc -/

@[simp] theorem appendAcc_session (b : Buffer) : (appendAcc b s).session = s.session := rfl
@[simp] theorem appendAcc_tplPt (b : Buffer) : (appendAcc b s).tplPt = s.tplPt := rfl
@[simp] theorem appendAcc_tplSsrc (b : Buffer) : (appendAcc b s).tplSsrc = s.tplSsrc := rfl
@[simp] theorem appendAcc_txSeq (b : Buffer) : (appendAcc b s).txSeq = s.txSeq := rfl
@[simp] theorem appendAcc_maxPkt (b : Buffer) : (appendAcc b s).maxPkt = s.maxPkt := rfl
@[simp] theorem appendAcc_txTs (b : Buffer) : (appendAcc b s).txTs = s.txTs := rfl
@[simp] theorem appendAcc_rxSeen (b : Buffer) : (appendAcc b s).rxSeen = s.rxSeen := rfl
@[simp] theorem appendAcc_rxLastSeq (b : Buffer) : (appendAcc b s).rxLastSeq = s.rxLastSeq := rfl
@[simp] theorem appendAcc_loss (b : Buffer) : (appendAcc b s).loss = s.loss := rfl
@[simp] theorem appendAcc_acc (b : Buffer) : (appendAcc b s).acc = s.acc ++ b := rfl
@[simp] theorem appendAcc_status (b : Buffer) : (appendAcc b s).status = s.status := rfl
@[simp] theorem appendAcc_count (b : Buffer) : (appendAcc b s).count = s.count := rfl
@[simp] theorem appendAcc_resPkt (b : Buffer) : (appendAcc b s).resPkt = s.resPkt := rfl
@[simp] theorem appendAcc_resOut (b : Buffer) : (appendAcc b s).resOut = s.resOut := rfl
@[simp] theorem appendAcc_trace (b : Buffer) : (appendAcc b s).trace = s.trace := rfl
@[simp] theorem appendAcc_accCap (b : Buffer) : (appendAcc b s).accCap = s.accCap := rfl
@[simp] theorem appendAcc_script (b : Buffer) : (appendAcc b s).script = s.script := rfl
@[simp] theorem appendAcc_answers (b : Buffer) : (appendAcc b s).answers = s.answers := rfl
@[simp] theorem appendAcc_freeCtr (b : Buffer) : (appendAcc b s).freeCtr = s.freeCtr := rfl

/-! ### emitEvents -/

@[simp] theorem emitEvents_session (es : List Event) : (emitEvents es s).session = s.session := rfl
@[simp] theorem emitEvents_tplPt (es : List Event) : (emitEvents es s).tplPt = s.tplPt := rfl
@[simp] theorem emitEvents_tplSsrc (es : List Event) : (emitEvents es s).tplSsrc = s.tplSsrc := rfl
@[simp] theorem emitEvents_txSeq (es : List Event) : (emitEvents es s).txSeq = s.txSeq := rfl
@[simp] theorem emitEvents_maxPkt (es : List Event) : (emitEvents es s).maxPkt = s.maxPkt := rfl
@[simp] theorem emitEvents_txTs (es : List Event) : (emitEvents es s).txTs = s.txTs := rfl
@[simp] theorem emitEvents_rxSeen (es : List Event) : (emitEvents es s).rxSeen = s.rxSeen := rfl
@[simp] theorem emitEvents_rxLastSeq (es : List Event) : (emitEvents es s).rxLastSeq = s.rxLastSeq := rfl
@[simp] theorem emitEvents_loss (es : List Event) : (emitEvents es s).loss = s.loss := rfl
@[simp] theorem emitEvents_acc (es : List Event) : (emitEvents es s).acc = s.acc := rfl
@[simp] theorem emitEvents_status (es : List Event) : (emitEvents es s).status = s.status := rfl
@[simp] theorem emitEvents_count (es : List Event) : (emitEvents es s).count = s.count := rfl
@[simp] theorem emitEvents_resPkt (es : List Event) : (emitEvents es s).resPkt = s.resPkt := rfl
@[simp] theorem emitEvents_resOut (es : List Event) : (emitEvents es s).resOut = s.resOut := rfl
@[simp] theorem emitEvents_trace (es : List Event) : (emitEvents es s).trace = s.trace ++ es := rfl
@[simp] theorem emitEvents_accCap (es : List Event) : (emitEvents es s).accCap = s.accCap := rfl
@[simp] theorem emitEvents_script (es : List Event) : (emitEvents es s).script = s.script := rfl
@[simp] theorem emitEvents_answers (es : List Event) : (emitEvents es s).answers = s.answers := rfl
@[simp] theorem emitEvents_freeCtr (es : List Event) : (emitEvents es s).freeCtr = s.freeCtr := rfl

/-! ### deliver -/

@[simp] theorem deliver_session (b : Buffer) (ts : BitVec 32) : (deliver b ts s).session = s.session := rfl
@[simp] theorem deliver_tplPt (b : Buffer) (ts : BitVec 32) : (deliver b ts s).tplPt = s.tplPt := rfl
@[simp] theorem deliver_tplSsrc (b : Buffer) (ts : BitVec 32) : (deliver b ts s).tplSsrc = s.tplSsrc := rfl
@[simp] theorem deliver_txSeq (b : Buffer) (ts : BitVec 32) : (deliver b ts s).txSeq = s.txSeq := rfl
@[simp] theorem deliver_maxPkt (b : Buffer) (ts : BitVec 32) : (deliver b ts s).maxPkt = s.maxPkt := rfl
@[simp] theorem deliver_txTs (b : Buffer) (ts : BitVec 32) : (deliver b ts s).txTs = s.txTs := rfl
@[simp] theorem deliver_rxSeen (b : Buffer) (ts : BitVec 32) : (deliver b ts s).rxSeen = s.rxSeen := rfl
@[simp] theorem deliver_rxLastSeq (b : Buffer) (ts : BitVec 32) : (deliver b ts s).rxLastSeq = s.rxLastSeq := rfl
@[simp] theorem deliver_loss (b : Buffer) (ts : BitVec 32) : (deliver b ts s).loss = false := rfl
@[simp] theorem deliver_acc (b : Buffer) (ts : BitVec 32) : (deliver b ts s).acc = s.acc := rfl
@[simp] theorem deliver_status (b : Buffer) (ts : BitVec 32) : (deliver b ts s).status = s.status := rfl
@[simp] theorem deliver_count (b : Buffer) (ts : BitVec 32) : (deliver b ts s).count = s.count := rfl
@[simp] theorem deliver_resPkt (b : Buffer) (ts : BitVec 32) : (deliver b ts s).resPkt = s.resPkt := rfl
@[simp] theorem deliver_resOut (b : Buffer) (ts : BitVec 32) : (deliver b ts s).resOut = s.resOut := rfl
@[simp] theorem deliver_trace (b : Buffer) (ts : BitVec 32) : (deliver b ts s).trace = s.trace ++ [.deliverUnit b b.length ts s.loss.toNat] := rfl
@[simp] theorem deliver_accCap (b : Buffer) (ts : BitVec 32) : (deliver b ts s).accCap = s.accCap := rfl
@[simp] theorem deliver_script (b : Buffer) (ts : BitVec 32) : (deliver b ts s).script = s.script := rfl
@[simp] theorem deliver_answers (b : Buffer) (ts : BitVec 32) : (deliver b ts s).answers = s.answers := rfl
@[simp] theorem deliver_freeCtr (b : Buffer) (ts : BitVec 32) : (deliver b ts s).freeCtr = s.freeCtr := rfl

/-! ### sendPacket -/

@[simp] theorem sendPacket_session (m : Bool) (b : Buffer) : (sendPacket m b s).session = s.session := rfl
@[simp] theorem sendPacket_tplPt (m : Bool) (b : Buffer) : (sendPacket m b s).tplPt = s.tplPt := rfl
@[simp] theorem sendPacket_tplSsrc (m : Bool) (b : Buffer) : (sendPacket m b s).tplSsrc = s.tplSsrc := rfl
@[simp] theorem sendPacket_txSeq (m : Bool) (b : Buffer) : (sendPacket m b s).txSeq = s.txSeq + 1 := rfl
@[simp] theorem sendPacket_maxPkt (m : Bool) (b : Buffer) : (sendPacket m b s).maxPkt = s.maxPkt := rfl
@[simp] theorem sendPacket_txTs (m : Bool) (b : Buffer) : (sendPacket m b s).txTs = s.txTs := rfl
@[simp] theorem sendPacket_rxSeen (m : Bool) (b : Buffer) : (sendPacket m b s).rxSeen = s.rxSeen := rfl
@[simp] theorem sendPacket_rxLastSeq (m : Bool) (b : Buffer) : (sendPacket m b s).rxLastSeq = s.rxLastSeq := rfl
@[simp] theorem sendPacket_loss (m : Bool) (b : Buffer) : (sendPacket m b s).loss = s.loss := rfl
@[simp] theorem sendPacket_acc (m : Bool) (b : Buffer) : (sendPacket m b s).acc = s.acc := rfl
@[simp] theorem sendPacket_status (m : Bool) (b : Buffer) : (sendPacket m b s).status = s.status := rfl
@[simp] theorem sendPacket_count (m : Bool) (b : Buffer) : (sendPacket m b s).count = s.count := rfl
@[simp] theorem sendPacket_resPkt (m : Bool) (b : Buffer) : (sendPacket m b s).resPkt = s.resPkt := rfl
@[simp] theorem sendPacket_resOut (m : Bool) (b : Buffer) : (sendPacket m b s).resOut = s.resOut := rfl
@[simp] theorem sendPacket_trace (m : Bool) (b : Buffer) : (sendPacket m b s).trace = s.trace ++ [.deliverPacket (buildPacket m b s) (Config.rtpFixed + b.length) s.txTs 0, .free] := rfl
@[simp] theorem sendPacket_accCap (m : Bool) (b : Buffer) : (sendPacket m b s).accCap = s.accCap := rfl
@[simp] theorem sendPacket_script (m : Bool) (b : Buffer) : (sendPacket m b s).script = s.script := rfl
@[simp] theorem sendPacket_answers (m : Bool) (b : Buffer) : (sendPacket m b s).answers = s.answers := rfl
@[simp] theorem sendPacket_freeCtr (m : Bool) (b : Buffer) : (sendPacket m b s).freeCtr = s.freeCtr := rfl

/-! ### openSession -/

@[simp] theorem openSession_session (pt : BitVec 7) (q : BitVec 16) (r : BitVec 32) (n : Nat) : (openSession pt q r n s).session = true := rfl
@[simp] theorem openSession_tplPt (pt : BitVec 7) (q : BitVec 16) (r : BitVec 32) (n : Nat) : (openSession pt q r n s).tplPt = pt := rfl
@[simp] theorem openSession_tplSsrc (pt : BitVec 7) (q : BitVec 16) (r : BitVec 32) (n : Nat) : (openSession pt q r n s).tplSsrc = r := rfl
@[simp] theorem openSession_txSeq (pt : BitVec 7) (q : BitVec 16) (r : BitVec 32) (n : Nat) : (openSession pt q r n s).txSeq = q := rfl
@[simp] theorem openSession_maxPkt (pt : BitVec 7) (q : BitVec 16) (r : BitVec 32) (n : Nat) : (openSession pt q r n s).maxPkt = n := rfl
@[simp] theorem openSession_txTs (pt : BitVec 7) (q : BitVec 16) (r : BitVec 32) (n : Nat) : (openSession pt q r n s).txTs = Config.initTxTs s.freeCtr := rfl
@[simp] theorem openSession_rxSeen (pt : BitVec 7) (q : BitVec 16) (r : BitVec 32) (n : Nat) : (openSession pt q r n s).rxSeen = false := rfl
@[simp] theorem openSession_rxLastSeq (pt : BitVec 7) (q : BitVec 16) (r : BitVec 32) (n : Nat) : (openSession pt q r n s).rxLastSeq = Config.initRxLastSeq s.freeCtr := rfl
@[simp] theorem openSession_loss (pt : BitVec 7) (q : BitVec 16) (r : BitVec 32) (n : Nat) : (openSession pt q r n s).loss = false := rfl
@[simp] theorem openSession_acc (pt : BitVec 7) (q : BitVec 16) (r : BitVec 32) (n : Nat) : (openSession pt q r n s).acc = [] := rfl
@[simp] theorem openSession_status (pt : BitVec 7) (q : BitVec 16) (r : BitVec 32) (n : Nat) : (openSession pt q r n s).status = s.status := rfl
@[simp] theorem openSession_count (pt : BitVec 7) (q : BitVec 16) (r : BitVec 32) (n : Nat) : (openSession pt q r n s).count = s.count := rfl
@[simp] theorem openSession_resPkt (pt : BitVec 7) (q : BitVec 16) (r : BitVec 32) (n : Nat) : (openSession pt q r n s).resPkt = s.resPkt := rfl
@[simp] theorem openSession_resOut (pt : BitVec 7) (q : BitVec 16) (r : BitVec 32) (n : Nat) : (openSession pt q r n s).resOut = s.resOut := rfl
@[simp] theorem openSession_trace (pt : BitVec 7) (q : BitVec 16) (r : BitVec 32) (n : Nat) : (openSession pt q r n s).trace = [] := rfl
@[simp] theorem openSession_accCap (pt : BitVec 7) (q : BitVec 16) (r : BitVec 32) (n : Nat) : (openSession pt q r n s).accCap = s.accCap := rfl
@[simp] theorem openSession_script (pt : BitVec 7) (q : BitVec 16) (r : BitVec 32) (n : Nat) : (openSession pt q r n s).script = s.script := rfl
@[simp] theorem openSession_answers (pt : BitVec 7) (q : BitVec 16) (r : BitVec 32) (n : Nat) : (openSession pt q r n s).answers = s.answers := rfl
@[simp] theorem openSession_freeCtr (pt : BitVec 7) (q : BitVec 16) (r : BitVec 32) (n : Nat) : (openSession pt q r n s).freeCtr = s.freeCtr + 1 := rfl

/-! ### takeAnswer -/

@[simp] theorem takeAnswer_session : (takeAnswer s).session = s.session := by unfold takeAnswer; split <;> rfl
@[simp] theorem takeAnswer_tplPt : (takeAnswer s).tplPt = s.tplPt := by unfold takeAnswer; split <;> rfl
@[simp] theorem takeAnswer_tplSsrc : (takeAnswer s).tplSsrc = s.tplSsrc := by unfold takeAnswer; split <;> rfl
@[simp] theorem takeAnswer_txSeq : (takeAnswer s).txSeq = s.txSeq := by unfold takeAnswer; split <;> rfl
@[simp] theorem takeAnswer_maxPkt : (takeAnswer s).maxPkt = s.maxPkt := by unfold takeAnswer; split <;> rfl
@[simp] theorem takeAnswer_txTs : (takeAnswer s).txTs = s.txTs := by unfold takeAnswer; split <;> rfl
@[simp] theorem takeAnswer_rxSeen : (takeAnswer s).rxSeen = s.rxSeen := by unfold takeAnswer; split <;> rfl
@[simp] theorem takeAnswer_rxLastSeq : (takeAnswer s).rxLastSeq = s.rxLastSeq := by unfold takeAnswer; split <;> rfl
@[simp] theorem takeAnswer_loss : (takeAnswer s).loss = s.loss := by unfold takeAnswer; split <;> rfl
@[simp] theorem takeAnswer_acc : (takeAnswer s).acc = s.acc := by unfold takeAnswer; split <;> rfl
@[simp] theorem takeAnswer_status : (takeAnswer s).status = s.status := by unfold takeAnswer; split <;> rfl
@[simp] theorem takeAnswer_count : (takeAnswer s).count = s.count := by unfold takeAnswer; split <;> rfl
@[simp] theorem takeAnswer_resPkt : (takeAnswer s).resPkt = s.resPkt := by unfold takeAnswer; split <;> rfl
@[simp] theorem takeAnswer_resOut : (takeAnswer s).resOut = s.resOut := by unfold takeAnswer; split <;> rfl
@[simp] theorem takeAnswer_trace : (takeAnswer s).trace = s.trace := by unfold takeAnswer; split <;> rfl
@[simp] theorem takeAnswer_accCap : (takeAnswer s).accCap = s.accCap := by unfold takeAnswer; split <;> rfl
@[simp] theorem takeAnswer_script : (takeAnswer s).script = s.script := by unfold takeAnswer; split <;> rfl

/-! ### seqCheck -/

@[simp] theorem seqCheck_session (q : BitVec 16) : (seqCheck q s).session = s.session := by unfold seqCheck; split <;> rfl
@[simp] theorem seqCheck_tplPt (q : BitVec 16) : (seqCheck q s).tplPt = s.tplPt := by unfold seqCheck; split <;> rfl
@[simp] theorem seqCheck_tplSsrc (q : BitVec 16) : (seqCheck q s).tplSsrc = s.tplSsrc := by unfold seqCheck; split <;> rfl
@[simp] theorem seqCheck_txSeq (q : BitVec 16) : (seqCheck q s).txSeq = s.txSeq := by unfold seqCheck; split <;> rfl
@[simp] theorem seqCheck_maxPkt (q : BitVec 16) : (seqCheck q s).maxPkt = s.maxPkt := by unfold seqCheck; split <;> rfl
@[simp] theorem seqCheck_txTs (q : BitVec 16) : (seqCheck q s).txTs = s.txTs := by unfold seqCheck; split <;> rfl
@[simp] theorem seqCheck_rxSeen (q : BitVec 16) : (seqCheck q s).rxSeen = true := rfl
@[simp] theorem seqCheck_rxLastSeq (q : BitVec 16) : (seqCheck q s).rxLastSeq = q := rfl
@[simp] theorem seqCheck_loss (q : BitVec 16) : (seqCheck q s).loss = (seqGap s q || s.loss) := by
  cases h : seqGap s q <;> simp [seqCheck, h]
@[simp] theorem seqCheck_acc (q : BitVec 16) : (seqCheck q s).acc = if seqGap s q then [] else s.acc := by
  cases h : seqGap s q <;> simp [seqCheck, h]
@[simp] theorem seqCheck_status (q : BitVec 16) : (seqCheck q s).status = s.status := by unfold seqCheck; split <;> rfl
@[simp] theorem seqCheck_count (q : BitVec 16) : (seqCheck q s).count = s.count := by unfold seqCheck; split <;> rfl
@[simp] theorem seqCheck_resPkt (q : BitVec 16) : (seqCheck q s).resPkt = s.resPkt := by unfold seqCheck; split <;> rfl
@[simp] theorem seqCheck_resOut (q : BitVec 16) : (seqCheck q s).resOut = s.resOut := by unfold seqCheck; split <;> rfl
@[simp] theorem seqCheck_trace (q : BitVec 16) : (seqCheck q s).trace = s.trace := by unfold seqCheck; split <;> rfl
@[simp] theorem seqCheck_accCap (q : BitVec 16) : (seqCheck q s).accCap = s.accCap := by unfold seqCheck; split <;> rfl
@[simp] theorem seqCheck_script (q : BitVec 16) : (seqCheck q s).script = s.script := by unfold seqCheck; split <;> rfl
@[simp] theorem seqCheck_answers (q : BitVec 16) : (seqCheck q s).answers = s.answers := by unfold seqCheck; split <;> rfl
@[simp] theorem seqCheck_freeCtr (q : BitVec 16) : (seqCheck q s).freeCtr = s.freeCtr := by unfold seqCheck; split <;> rfl

/-! ### accSize -/

theorem accSize_def : s.accSize = s.acc.length := rfl

@[simp] theorem accSize_eq_zero : s.accSize = 0 ↔ s.acc = [] := by simp [accSize_def]

end Sys2Proof.Machine
end

