-- ==== Sys2Proof/Laws/Ops.lean ====
section
/-! SUPPORT. What each shared operation can do, said once: one lemma a definition, cited instead of unfolding it. -/

namespace Sys2Proof.Machine

variable {s t : State}

/-! ### Stepping and concluding -/

/-- A step that answers a next state found no command, or ran the one it decoded. -/
theorem step_next (h : step s = .next t) :
    (s.script = [] ∧ t = s) ∨
      ∃ r rest i, s.script = r :: rest ∧ decode r = .ok i ∧ exec i { s with script := rest } = .next t := by
  unfold step nextCommand at h
  cases hs : s.script with
  | nil => simp [hs] at h; exact .inl ⟨rfl, h.symm⟩
  | cons r rest =>
    simp only [hs] at h
    cases hd : decode r with
    | error e => simp [hd] at h
    | ok i => simp only [hd] at h; exact .inr ⟨r, rest, i, rfl, hd, h⟩

/-- A step that faults ran a decoded command that faults. -/
theorem step_fault {f : Fault} (h : step s = .fault f) :
    ∃ r rest i, s.script = r :: rest ∧ decode r = .ok i ∧ exec i { s with script := rest } = .fault f := by
  unfold step nextCommand at h
  cases hs : s.script with
  | nil => simp [hs] at h
  | cons r rest =>
    simp only [hs] at h
    cases hd : decode r with
    | error e => simp [hd] at h
    | ok i => simp only [hd] at h; exact ⟨r, rest, i, rfl, hd, h⟩

@[simp] theorem inSession_next {o : Host.Outcome State Fault Refusal} :
    inSession s o = .next t ↔ s.session = true ∧ o = .next t := by
  unfold inSession
  cases s.session <;> simp

@[simp] theorem inSession_fault {o : Host.Outcome State Fault Refusal} {f : Fault} :
    inSession s o = .fault f ↔ s.session = true ∧ o = .fault f := by
  unfold inSession
  cases s.session <;> simp

theorem inSession_of (h : s.session = true) (o : Host.Outcome State Fault Refusal) : inSession s o = o := by
  simp [inSession, h]

theorem inSession_before (h : s.session = false) (o : Host.Outcome State Fault Refusal) :
    inSession s o = .refused .noSession := by simp [inSession, h]

@[simp] theorem finishWith_next {r : State × Status} : finishWith r = .next t ↔ raise r.2 r.1 = t := by
  simp [finishWith]

/-- The result of a decoding command. -/
theorem concludePkt_cases (r : Except Status Pkt) (s : State) :
    (∃ k, r = .ok k ∧ concludePkt r s = conclude .ok 0 (some k) [] s) ∨ ∃ e, r = .error e ∧ concludePkt r s = raise e s := by
  cases r with
  | ok k => exact .inl ⟨k, rfl, rfl⟩
  | error e => exact .inr ⟨e, rfl, rfl⟩

/-- The result of an encoding command. -/
theorem concludeOut_cases (r : Except Status Buffer) (s : State) :
    (∃ out, r = .ok out ∧ concludeOut r s = conclude .ok out.length none out s) ∨
      ∃ e, r = .error e ∧ concludeOut r s = raise e s := by
  cases r with
  | ok out => exact .inl ⟨out, rfl, rfl⟩
  | error e => exact .inr ⟨e, rfl, rfl⟩

/-! ### Memory keeps its form -/

theorem memoryWf_iff : Memory.wf s = true ↔ ∀ c, s.accCap = some c → s.acc.length ≤ c := by
  unfold Memory.wf
  cases s.accCap with
  | none => simp
  | some c => exact decide_eq_true_iff.trans (by simp [accSize_def])

theorem overflows_eq_false_iff (k : Nat) :
    overflows s k = false ↔ ∀ c, s.accCap = some c → s.acc.length + k ≤ c := by
  unfold overflows
  cases s.accCap with
  | none => simp
  | some c => exact decide_eq_false_iff_not.trans (by simp [accSize_def])

theorem overflows_eq_true_iff (k : Nat) :
    overflows s k = true ↔ ∃ c, s.accCap = some c ∧ c < s.acc.length + k := by
  unfold overflows
  cases s.accCap with
  | none => simp
  | some c => exact decide_eq_true_iff.trans (by simp [accSize_def])

theorem memoryWf_congr (ha : t.acc.length ≤ s.acc.length) (hc : t.accCap = s.accCap) (h : Memory.wf s = true) :
    Memory.wf t = true := by
  rw [memoryWf_iff] at *
  intro c hcap
  exact ha.trans (h c (hc ▸ hcap))

theorem memoryWf_reset : Memory.wf State.reset = true := rfl

theorem truncAcc_memoryWf (h : Memory.wf s = true) : Memory.wf (truncAcc s) = true :=
  memoryWf_congr (s := s) (by simp) rfl h

theorem dropLost_memoryWf (h : Memory.wf s = true) : Memory.wf (dropLost s) = true :=
  memoryWf_congr (s := s) (by simp) rfl h

theorem deliver_memoryWf (b : Buffer) (ts : BitVec 32) (h : Memory.wf s = true) : Memory.wf (deliver b ts s) = true :=
  memoryWf_congr (by simp) rfl h

theorem seqCheck_memoryWf (q : BitVec 16) (h : Memory.wf s = true) : Memory.wf (seqCheck q s) = true :=
  memoryWf_congr (by rw [seqCheck_acc]; split <;> simp) (by simp) h

theorem openSession_memoryWf (pt : BitVec 7) (q : BitVec 16) (r : BitVec 32) (n : Nat) (h : Memory.wf s = true) :
    Memory.wf (openSession pt q r n s) = true := memoryWf_congr (s := s) (by simp) rfl h

/-- The one operation that lets `ACC` grow keeps it within its capacity: it is reached only when the bytes fit. -/
theorem appendAcc_memoryWf (b : Buffer) (h : overflows s b.length = false) : Memory.wf (appendAcc b s) = true := by
  rw [memoryWf_iff]
  simpa using (overflows_eq_false_iff _).mp h

/-! ### The boundary detector -/

/-- `SC` as R112 writes it. -/
theorem isStartCode_iff (inp : Buffer) (i : Nat) : isStartCode inp i = true ↔
    i + 2 < inp.length ∧ byteAt inp i = 0 ∧ byteAt inp (i + 1) = 0 ∧ byteAt inp (i + 2) = 1 := by
  simp [isStartCode, and_assoc]

/-- `FINDSC` finds the least start code at or after `p`. -/
theorem findStartCode_some {inp : Buffer} {p i : Nat} (h : findStartCode inp p = some i) :
    p ≤ i ∧ isStartCode inp i = true ∧ ∀ j, p ≤ j → j < i → isStartCode inp j = false := by
  rw [findStartCode, List.find?_range'_eq_some] at h
  obtain ⟨h1, h2, h3⟩ := h
  simp [List.mem_range'_1] at h2
  exact ⟨h2.1, h1, fun j hj hji => by simpa using h3 j hj hji⟩

/-- `FINDSC` finds none only where there is none. -/
theorem findStartCode_none {inp : Buffer} {p : Nat} (h : findStartCode inp p = none) : ∀ j, p ≤ j → isStartCode inp j = false := by
  intro j hj
  by_contra hc
  simp only [Bool.not_eq_false] at hc
  have := (isStartCode_iff _ _).mp hc
  rw [findStartCode, List.find?_eq_none] at h
  exact h j (by rw [List.mem_range'_1]; omega) hc

/-- `STRIP` stays in the span and takes off zero bytes only, all those at its end (R113). -/
theorem stripEnd_spec (inp : Buffer) (b k : Nat) :
    b ≤ stripEnd inp b k ∧ stripEnd inp b k ≤ b + k ∧
    (b < stripEnd inp b k → byteAt inp (stripEnd inp b k - 1) ≠ 0) ∧
    ∀ i, stripEnd inp b k ≤ i → i < b + k → byteAt inp i = 0 := by
  induction k with
  | zero => simp [stripEnd]; intro i h1 h2; omega
  | succ k ih =>
    rw [stripEnd]
    split
    · rename_i h0
      obtain ⟨a, b', c, d⟩ := ih
      refine ⟨a, by omega, c, fun i h1 h2 => ?_⟩
      by_cases hi : i = b + k
      · rw [hi, h0]
      · exact d i h1 (by omega)
    · rename_i h0
      refine ⟨by omega, by omega, fun _ => by simpa using h0, fun i h1 h2 => by omega⟩

/-- The spans of `NALSCAN` stand in the input (R112). -/
theorem nalSpansFrom_bounds (inp : Buffer) : ∀ (fuel : Nat) (o : Option Nat), (∀ i, o = some i → isStartCode inp i = true) →
    ∀ be ∈ nalSpansFrom inp fuel o, be.1 ≤ be.2 ∧ be.2 ≤ inp.length := by
  intro fuel
  induction fuel with
  | zero => intro o _ be h; cases o <;> simp [nalSpansFrom] at h
  | succ fuel ih =>
    intro o ho be h
    cases o with
    | none => simp [nalSpansFrom] at h
    | some i =>
      have hi := ((isStartCode_iff _ _).mp (ho i rfl)).1
      have hs := stripEnd_spec inp (i + 3) ((findStartCode inp (i + 3)).getD inp.length - (i + 3))
      have hstop : (findStartCode inp (i + 3)).getD inp.length ≤ inp.length := by
        cases hf : findStartCode inp (i + 3) with
        | none => simp
        | some j => have := ((isStartCode_iff _ _).mp (findStartCode_some hf).2.1).1; simp; omega
      simp only [nalSpansFrom, List.mem_cons] at h
      rcases h with rfl | h
      · exact ⟨hs.1, by simp only; omega⟩
      · exact ih _ (fun j hj => (findStartCode_some hj).2.1) be h

theorem nalSpans_bounds {inp : Buffer} {be : Nat × Nat} (h : be ∈ nalSpans inp) : be.1 ≤ be.2 ∧ be.2 ≤ inp.length :=
  nalSpansFrom_bounds inp _ _ (fun _ hi => (findStartCode_some hi).2.1) be h

/-! ### The trace -/

/-- Traces of whole exchanges append to one; `n` bounds the first one's length. -/
theorem traceOk_append (m : Nat) : ∀ (n : Nat) (a b : List Event), a.length ≤ n → traceOk m a = true → traceOk m b = true →
    traceOk m (a ++ b) = true := by
  intro n
  induction n with
  | zero => intro a b h _ hb; have := List.eq_nil_of_length_eq_zero (Nat.le_zero.mp h); subst this; simpa using hb
  | succ n ih =>
    intro a b h ha hb
    unfold traceOk at ha
    split at ha
    · simpa using hb
    · rename_i es; simp only [Bool.and_eq_true] at ha
      simp only [List.cons_append, traceOk, Bool.and_eq_true]
      exact ⟨ha.1, ih _ b (by simp at h; omega) ha.2 hb⟩
    · rename_i es; simp only [Bool.and_eq_true] at ha
      simp only [List.cons_append, traceOk, Bool.and_eq_true]
      exact ⟨ha.1, ih _ b (by simp at h; omega) ha.2 hb⟩
    · rename_i es; simp only [Bool.and_eq_true] at ha
      simp only [List.cons_append, traceOk, Bool.and_eq_true]
      exact ⟨ha.1, ih _ b (by simp at h; omega) ha.2 hb⟩
    · cases ha

/-! ### The packetizer -/

/-- `EMIT` asks the host, and sends the packet or leaves only the `Alloc` event. -/
theorem emit_cases (m : Bool) (pay : Buffer) (s : State) :
    (allocAnswer s = true ∧
        emit m pay s = (sendPacket m pay (emitEvents [.alloc (Config.rtpFixed + pay.length) true] (takeAnswer s)), true)) ∨
      (allocAnswer s = false ∧
        emit m pay s = (emitEvents [.alloc (Config.rtpFixed + pay.length) false] (takeAnswer s), false)) := by
  cases h : allocAnswer s <;> simp [emit, h]

/-- What `EMIT` never touches. -/
theorem emit_frame (m : Bool) (pay : Buffer) (s : State) :
    let t := (emit m pay s).1
    t.session = s.session ∧ t.tplPt = s.tplPt ∧ t.tplSsrc = s.tplSsrc ∧ t.maxPkt = s.maxPkt ∧ t.txTs = s.txTs ∧
      SameRx s t ∧ SameResult s t ∧ SameHost s t := by
  rcases emit_cases m pay s with ⟨-, h⟩ | ⟨-, h⟩ <;> simp [h, SameRx, SameResult, SameHost]

/-- What sending a list of packets never touches. -/
theorem emitAll_frame (ps : List (Bool × Buffer)) (s : State) :
    let t := (emitAll ps s).1
    t.session = s.session ∧ t.tplPt = s.tplPt ∧ t.tplSsrc = s.tplSsrc ∧ t.maxPkt = s.maxPkt ∧ t.txTs = s.txTs ∧
      SameRx s t ∧ SameResult s t ∧ SameHost s t := by
  induction ps generalizing s with
  | nil => simp [emitAll, SameRx, SameResult, SameHost]
  | cons p ps ih =>
    obtain ⟨m, pay⟩ := p
    have hf := emit_frame m pay s
    unfold emitAll
    rcases he : emit m pay s with ⟨s', b⟩
    rw [he] at hf
    cases b with
    | false => exact hf
    | true =>
      have hi := ih s'
      simp only [SameRx, SameResult, SameHost] at hf hi ⊢
      simp_all

/-- The header that `EMIT` writes is 12 bytes. -/
theorem writeHdr_template_length (m : Bool) (s : State) : (writeHdr (templatePkt m s)).length = 12 := by
  simp [writeHdr, csrcBytes, extBytes, templatePkt, Pkt.zero]

/-! ### The depacketizer -/

/-- What delivering units never touches. -/
theorem deliverAll_frame (us : List (Buffer × BitVec 32)) (s : State) :
    let t := deliverAll us s
    SameTx s t ∧ SameResult s t ∧ SameHost s t ∧ SameOracle s t ∧
      t.rxSeen = s.rxSeen ∧ t.rxLastSeq = s.rxLastSeq ∧ t.acc = s.acc := by
  induction us generalizing s with
  | nil => simp [deliverAll, SameTx, SameResult, SameHost, SameOracle]
  | cons u us ih =>
    obtain ⟨u, ts⟩ := u
    have hi := ih (deliver u ts s)
    simpa [deliverAll, SameTx, SameResult, SameHost, SameOracle] using hi

/-- `AGG` delivers every unit of a well-formed packet or takes the failure path. -/
theorem agg_cases (start w : Nat) (pay : Buffer) (ts : BitVec 32) (s : State) :
    agg start w pay ts s = lostFail s ∨
      ∃ units, aggEntries pay.length w ts (pay.drop start) = some units ∧ start ≤ pay.length ∧
        agg start w pay ts s = (deliverAll units s, .ok) := by
  unfold agg
  split
  · exact .inl rfl
  · cases h : aggEntries pay.length w ts (pay.drop start) with
    | none => exact .inl rfl
    | some units => exact .inr ⟨units, rfl, by omega, rfl⟩

/-- The units that pass 1 of `AGG` accepts have a type in 1 to 23. -/
theorem aggEntries_types (fuel w : Nat) (ts : BitVec 32) (rest : Buffer) (units : List (Buffer × BitVec 32))
    (h : aggEntries fuel w ts rest = some units) : ∀ u ∈ units, u.1 ≠ [] ∧ unitTypeOk (byteAt u.1 0) = true := by
  induction fuel generalizing rest units with
  | zero =>
    cases rest with
    | nil => simp [aggEntries] at h; simp [h]
    | cons b bs => simp [aggEntries] at h
  | succ fuel ih =>
    cases rest with
    | nil => simp [aggEntries] at h; simp [h]
    | cons b bs =>
      simp only [aggEntries] at h
      split at h
      · cases h
      split at h
      · cases h
      split at h
      · cases h
      split at h
      · cases h
      rename_i hlen hpos htype
      cases hr : aggEntries fuel w ts
          (((b :: bs).drop (entryHdr w)).drop (memRead (b :: bs) 0 2)) with
      | none => rw [hr] at h; cases h
      | some us =>
        simp only [hr, Option.some.injEq] at h
        subst h
        intro u hu
        rcases List.mem_cons.mp hu with rfl | hu
        · cases hb : (b :: bs).drop (entryHdr w) with
          | nil => rw [hb] at hlen; simp at hlen; omega
          | cons c cs =>
            rw [hb] at htype
            cases hn : memRead (b :: bs) 0 2 with
            | zero => exact absurd hn hpos
            | succ n => simpa using htype
        · exact ih _ _ hr u hu

/-- `APPEND` appends or takes the overflow path. -/
theorem appendThen_cases (b : Buffer) (s : State) (next : State → State × Status) :
    (overflows s b.length = true ∧ appendThen b s next = (dropLost s, .accOverflow)) ∨
      (overflows s b.length = false ∧ appendThen b s next = next (appendAcc b s)) := by
  cases h : overflows s b.length <;> simp [appendThen, h]

/-- Everything the fragment handler can do: the failure path, an overflow, or the bytes gathered and, at the END flag,
delivered. -/
theorem fuBody_cases (sBit eBit : Bool) (ref : BitVec 3) (ot : BitVec 5) (data : Buffer) (ts : BitVec 32) (s : State) :
    fuBody sBit eBit ref ot data ts s = lostFail s ∨
      (s.accCap ≠ none ∧ fuBody sBit eBit ref ot data ts s = (dropLost s, .accOverflow)) ∨
      ∃ unit, unit ≠ [] ∧ Memory.wf { s with acc := unit } = true ∧
        ((sBit = true ∧ unitTypeOk (nalByte ref ot) = true ∧ unit = nalByte ref ot :: data) ∨
          (sBit = false ∧ s.acc ≠ [] ∧ unit = s.acc ++ data)) ∧
        fuBody sBit eBit ref ot data ts s =
          ((if eBit then truncAcc (deliver unit ts { s with acc := unit }) else { s with acc := unit }), .ok) := by
  have key : ∀ (s1 : State), s1 = { s with acc := s1.acc } →
      (s1.accCap ≠ none ∧ appendThen data s1 (fuFinish eBit ts) = (dropLost s, .accOverflow)) ∨
        (Memory.wf { s with acc := s1.acc ++ data } = true ∧
          appendThen data s1 (fuFinish eBit ts) =
            ((if eBit then truncAcc (deliver (s1.acc ++ data) ts { s with acc := s1.acc ++ data })
              else { s with acc := s1.acc ++ data }), .ok)) := by
    intro s1 hs1
    rcases appendThen_cases data s1 (fuFinish eBit ts) with ⟨ho, h⟩ | ⟨ho, h⟩
    · refine .inl ⟨?_, ?_⟩
      · intro hn; simp [overflows, hn] at ho
      · rw [h, hs1]; rfl
    · refine .inr ⟨?_, ?_⟩
      · have := appendAcc_memoryWf data ho
        rw [hs1] at this
        exact this
      · have ha : appendAcc data s1 = { s with acc := s1.acc ++ data } := by
          unfold appendAcc
          conv_lhs => rw [hs1]
        rw [h, ha]
        cases eBit <;> rfl
  cases sBit with
  | true =>
    cases hty : unitTypeOk (nalByte ref ot) with
    | false => exact .inl (by simp [fuBody, hty])
    | true =>
      simp only [fuBody, hty, if_true]
      rcases appendThen_cases [nalByte ref ot] (truncAcc s) (fun s1 => appendThen data s1 (fuFinish eBit ts)) with
        ⟨ho, h⟩ | ⟨ho, h⟩
      · refine .inr (.inl ⟨?_, by rw [h]; rfl⟩)
        intro hn
        simp [overflows, hn] at ho
      · rcases key (appendAcc [nalByte ref ot] (truncAcc s)) rfl with ⟨hc, hk⟩ | ⟨hw, hk⟩
        · exact .inr (.inl ⟨hc, by rw [h, hk]⟩)
        · refine .inr (.inr ⟨nalByte ref ot :: data, by simp, ?_, .inl (by simp), ?_⟩)
          · simpa using hw
          · rw [h, hk]; simp
  | false =>
    by_cases ha : s.acc = []
    · exact .inl (by simp [fuBody, ha])
    · have hb : fuBody false eBit ref ot data ts s = appendThen data s (fuFinish eBit ts) := by simp [fuBody, ha]
      rcases key s rfl with ⟨hc, hk⟩ | ⟨hw, hk⟩
      · exact .inr (.inl ⟨hc, by rw [hb, hk]⟩)
      · exact .inr (.inr ⟨s.acc ++ data, by simp [ha], hw, .inr ⟨rfl, ha, rfl⟩, by rw [hb, hk]⟩)

/-- `FU` is the failure path or the fragment handler on the fields of the FU bytes. -/
theorem fu_cases (h : Nat) (pay : Buffer) (ts : BitVec 32) (s : State) :
    (pay.length < h ∧ fu h pay ts s = lostFail s) ∨
      (h ≤ pay.length ∧ fu h pay ts s =
        fuBody (fuS (byteAt pay 1)) (fuE (byteAt pay 1)) (nalRef (byteAt pay 0)) (fuOtype (byteAt pay 1)) (pay.drop h) ts s) := by
  by_cases hl : pay.length < h
  · exact .inl ⟨hl, by simp [fu, hl]⟩
  · exact .inr ⟨by omega, by simp [fu, hl]⟩

/-- HUNPACK's three ways: rejected by DESER, refused for an empty payload, or checked and dispatched. -/
theorem hunpack_cases (inp : Buffer) (s : State) :
    (∃ e, deser inp = .error e ∧ hunpack inp s = (s, e)) ∨
      (∃ k, deser inp = .ok k ∧ k.pay = [] ∧ hunpack inp s = (s, .payloadTooShort)) ∨
      ∃ k, deser inp = .ok k ∧ k.pay ≠ [] ∧ hunpack inp s = payloadAction k.pay k.ts (seqCheck k.seq s) := by
  unfold hunpack
  cases h : deser inp with
  | error e => exact .inl ⟨e, rfl, rfl⟩
  | ok k =>
    by_cases hp : k.pay = []
    · exact .inr (.inl ⟨k, by simp [hp]⟩)
    · exact .inr (.inr ⟨k, by simp [hp]⟩)

/-- Everything that an action of HUNPACK can do to the state: the failure path, an overflow, nothing, a sequence of deliveries
of units (of a type in 1 to 23 where `wf` holds), or a fragment gathered or delivered. -/
inductive ActionEffect (wf : Prop) (s : State) : State × Status → Prop where
  | lost : ActionEffect wf s (lostFail s)
  | overflow : s.accCap ≠ none → ActionEffect wf s (dropLost s, .accOverflow)
  | discarded : ActionEffect wf s (s, .discarded)
  | units (us : List (Buffer × BitVec 32)) : (wf → ∀ u ∈ us, u.1 ≠ [] ∧ unitTypeOk (byteAt u.1 0) = true) →
      ActionEffect wf s (deliverAll us s, .ok)
  | gathered (unit : Buffer) : unit ≠ [] → Memory.wf { s with acc := unit } = true →
      (unitTypeOk (byteAt unit 0) = true ∨ s.acc ≠ [] ∧ byteAt unit 0 = byteAt s.acc 0) →
      ActionEffect wf s ({ s with acc := unit }, .ok)
  | finished (unit : Buffer) (ts : BitVec 32) : unit ≠ [] →
      (unitTypeOk (byteAt unit 0) = true ∨ s.acc ≠ [] ∧ byteAt unit 0 = byteAt s.acc 0) →
      ActionEffect wf s (truncAcc (deliver unit ts { s with acc := unit }), .ok)

variable {wf : Prop}

theorem fuBody_effect (sBit eBit : Bool) (ref : BitVec 3) (ot : BitVec 5) (data : Buffer) (ts : BitVec 32) (s : State) :
    ActionEffect wf s (fuBody sBit eBit ref ot data ts s) := by
  rcases fuBody_cases sBit eBit ref ot data ts s with h | ⟨hc, h⟩ | ⟨unit, hne, hw, hu, h⟩
  · rw [h]; exact .lost
  · rw [h]; exact .overflow hc
  · have hty : unitTypeOk (byteAt unit 0) = true ∨ s.acc ≠ [] ∧ byteAt unit 0 = byteAt s.acc 0 := by
      rcases hu with ⟨-, hty, rfl⟩ | ⟨-, ha, rfl⟩
      · exact .inl hty
      · refine .inr ⟨ha, byteAt_append_left _ _ _ (List.length_pos_iff.mpr ha)⟩
    rw [h]
    cases eBit
    · exact .gathered unit hne hw hty
    · exact .finished unit ts hne hty

theorem fu_effect (h : Nat) (pay : Buffer) (ts : BitVec 32) (s : State) : ActionEffect wf s (fu h pay ts s) := by
  rcases fu_cases h pay ts s with ⟨-, hf⟩ | ⟨-, hf⟩
  · rw [hf]; exact .lost
  · rw [hf]; exact fuBody_effect ..

theorem agg_effect (start w : Nat) (pay : Buffer) (ts : BitVec 32) (s : State) : ActionEffect wf s (agg start w pay ts s) := by
  rcases agg_cases start w pay ts s with h | ⟨units, hu, -, h⟩
  · rw [h]; exact .lost
  · rw [h]; exact .units units fun _ => aggEntries_types _ _ _ _ _ hu

theorem actSnal_effect (pay : Buffer) (ts : BitVec 32) (s : State) (hne : pay ≠ [])
    (hty : wf → unitTypeOk (byteAt pay 0) = true) : ActionEffect wf s (actSnal pay ts s) := by
  have : actSnal pay ts s = (deliverAll [(pay, ts)] s, .ok) := rfl
  rw [this]
  exact .units _ fun hw => by simpa using ⟨hne, hty hw⟩

/-- The dispatch map gives SNAL exactly the types 1 to 23 (R68). -/
theorem nalAction_snal : ∀ b : Byte, nalAction (nalType b) = .snal ↔ unitTypeOk b = true := by decide

/-- What HUNPACK's dispatch can do. -/
theorem payloadAction_effect (pay : Buffer) (ts : BitVec 32) (s : State) (hne : pay ≠ []) :
    ActionEffect wf s (payloadAction pay ts s) := by
  unfold payloadAction
  cases h : nalAction (nalType (byteAt pay 0)) with
  | rsvd => exact .discarded
  | snal => exact actSnal_effect pay ts s hne fun _ => (nalAction_snal _).mp h
  | stapa => exact agg_effect ..
  | stapb => exact agg_effect ..
  | mtap16 => exact agg_effect ..
  | mtap24 => exact agg_effect ..
  | fua => exact fu_effect ..
  | fub => exact fu_effect ..

/-- What no action touches. -/
theorem ActionEffect.frame {r : State × Status} (h : ActionEffect wf s r) :
    SameTx s r.1 ∧ SameResult s r.1 ∧ SameHost s r.1 ∧ SameOracle s r.1 ∧ r.1.rxSeen = s.rxSeen ∧
      r.1.rxLastSeq = s.rxLastSeq := by
  cases h with
  | units us _ => have := deliverAll_frame us s; simp_all
  | _ => simp [lostFail, SameTx, SameResult, SameHost, SameOracle]

/-! ### Every instruction at once -/

/-- The errors that a command raises before it changes anything (R191, first row). -/
def Status.isEarly (st : Status) : Bool :=
  match st with
  | .headerTooShort => true
  | .versionMismatch => true
  | .insufficientBytes => true
  | .payloadTooShort => true
  | .bufferTooSmall => true
  | .invalidConfig => true
  | .ok => false
  | .packetLost => false
  | .allocFailed => false
  | .discarded => false
  | .accOverflow => false

theorem deser_error_early {inp : Buffer} {e : Status} (h : deser inp = .error e) : e.isEarly = true := by
  unfold deser at h
  simp only at h
  split at h
  · cases h; rfl
  split at h
  · cases h; rfl
  split at h
  · cases h; rfl
  split at h
  · rename_i e' hr
    cases h
    unfold readExt at hr
    split_ifs at hr <;> cases hr <;> rfl
  split at h
  · rename_i e' hr
    cases h
    unfold stripPad at hr
    split_ifs at hr <;> cases hr <;> rfl
  · cases h

/-- The payloads that the packetizer sends for one NAL unit are not empty and fit `MAXPKT` (R114, R121). -/
def PacketsFit (maxPkt : Nat) (ps : List (Bool × Buffer)) : Prop := ∀ p ∈ ps, p.2 ≠ [] ∧ Config.rtpFixed + p.2.length ≤ maxPkt

theorem fragmentsFrom_fit (hdr : Byte) (mc maxPkt : Nat) (hm : 14 + mc ≤ maxPkt) : ∀ (fuel : Nat) (first : Bool) (data : Buffer),
    PacketsFit maxPkt (fragmentsFrom hdr mc fuel first data) := by
  intro fuel
  induction fuel with
  | zero => intro first data; simp [fragmentsFrom, PacketsFit]
  | succ fuel ih =>
    intro first data
    rw [fragmentsFrom]
    split
    · simp [PacketsFit]
    · intro p hp
      rcases List.mem_cons.mp hp with rfl | hp
      · simp [Config.rtpFixed]; omega
      · exact ih _ _ p hp

theorem nalPackets_fit {maxPkt : Nat} {nal : Buffer} (hne : nal ≠ []) (hst : stuckFragments maxPkt nal = false) :
    PacketsFit maxPkt (nalPackets maxPkt nal) := by
  unfold nalPackets
  cases hf : fitsSingle maxPkt nal with
  | true =>
    have : Config.rtpFixed + nal.length ≤ maxPkt := of_decide_eq_true hf
    simp [PacketsFit, singlePacket, hne, this]
  | false =>
    have hm : ¬ maxPkt < 15 := by
      intro h; simp [stuckFragments, hf, Config.minMaxPkt, h] at hst
    exact fragmentsFrom_fit _ _ _ (by simp [Config.fuOverhead]; omega) _ _ _

variable {i : Instr}

/-- Everything an instruction that answers a next state can do. -/
inductive ExecEffect (i : Instr) (s : State) : State → Prop where
  | opened (pt : BitVec 7) (q : BitVec 16) (r : BitVec 32) (n : Nat) : i = .init pt q r n → Config.minMaxPkt ≤ n →
      ExecEffect i s (raise .ok (openSession pt q r n s))
  | early (e : Status) : e.isEarly = true → ExecEffect i s (raise e s)
  | record (k : Pkt) : ExecEffect i s (conclude .ok 0 (some k) [] s)
  | bytes (out : Buffer) : ((∃ k cap, i = .serhdr k cap) ∨ ∃ k cap, i = .ser k cap) →
      ExecEffect i s (conclude .ok out.length none out s)
  | packets (ps : List (Bool × Buffer)) (ts : BitVec 32) : s.session = true → (i.wf = true → PacketsFit s.maxPkt ps) →
      ExecEffect i s (concludeEmit (emitAll ps { s with txTs := ts }))
  | action (r : State × Status) : s.session = true → (encode i).space ≠ .cmd → ActionEffect (i.wf = true) s r → ExecEffect i s (raise r.2 r.1)
  | unpacked (inp : Buffer) (k : Pkt) (r : State × Status) : s.session = true → i = .hunpack inp → deser inp = .ok k →
      ActionEffect (i.wf = true) (seqCheck k.seq s) r → ExecEffect i s (raise r.2 r.1)

/-- The effect of an action's meaning. -/
theorem execAction_effect (hi : (encode i).space ≠ .cmd) {r : State × Status} (he : ActionEffect (i.wf = true) s r)
    (h : inSession s (finishWith r) = .next t) : ExecEffect i s t := by
  simp only [inSession_next, finishWith_next] at h
  obtain ⟨hs, rfl⟩ := h
  exact .action r hs hi he

/-- Once for all instructions: what `exec` does when it answers a next state. -/
theorem exec_effect (h : exec i s = .next t) : ExecEffect i s t := by
  cases i with
  | init pt q r n =>
    simp only [exec, execInit] at h
    split at h <;> cases h
    · exact .early _ rfl
    · exact .opened pt q r n rfl (by omega)
  | deser inp =>
    simp only [exec, execDeser, Host.Outcome.next.injEq] at h
    subst h
    rcases concludePkt_cases (deser inp) s with ⟨k, -, h2⟩ | ⟨e, h1, h2⟩ <;> rw [h2]
    · exact .record k
    · exact .early e (deser_error_early h1)
  | rtpfix p x cc m pt seq ts ssrc rest =>
    simp only [exec, execRtpfix, Host.Outcome.next.injEq] at h
    subst h
    rcases concludePkt_cases (deser (fixBytes Config.rtpVersion p x cc m pt seq ts ssrc ++ rest)) s with
      ⟨k, -, h2⟩ | ⟨e, h1, h2⟩ <;> rw [h2]
    · exact .record k
    · exact .early e (deser_error_early h1)
  | serhdr k cap =>
    simp only [exec, execSerhdr, Host.Outcome.next.injEq] at h
    subst h
    rcases concludeOut_cases (serHdr k cap) s with ⟨out, -, h2⟩ | ⟨e, h1, h2⟩ <;> rw [h2]
    · exact .bytes out (.inl ⟨k, cap, rfl⟩)
    · unfold serHdr at h1
      split_ifs at h1 <;> cases h1 <;> exact .early _ rfl
  | ser k cap =>
    simp only [exec, execSer, Host.Outcome.next.injEq] at h
    subst h
    rcases concludeOut_cases (ser k cap) s with ⟨out, -, h2⟩ | ⟨e, h1, h2⟩ <;> rw [h2]
    · exact .bytes out (.inr ⟨k, cap, rfl⟩)
    · unfold ser at h1
      split_ifs at h1 <;> cases h1 <;> exact .early _ rfl
  | hpack inp ts =>
    simp only [exec, execHpack, inSession_next] at h
    obtain ⟨hs, h⟩ := h
    split at h
    · cases h
    · rename_i hst
      cases h
      refine .packets _ ts hs fun _ p hp => ?_
      obtain ⟨nal, hn, hp⟩ := List.mem_flatMap.mp hp
      refine nalPackets_fit ?_ ?_ p hp
      · have := (List.mem_filter.mp hn).2
        simpa using this
      · simp only [Bool.not_eq_true, List.any_eq_false] at hst
        simpa using hst nal hn
  | snalpkt nal =>
    simp only [exec, execSnalpkt, inSession_next] at h
    obtain ⟨hs, h⟩ := h
    split at h
    · rename_i hf
      cases h
      have := ExecEffect.packets (i := .snalpkt nal) (s := s) [singlePacket nal] s.txTs hs ?_
      · exact this
      · intro hw
        have hn : 1 ≤ nal.length := of_decide_eq_true hw
        have : Config.rtpFixed + nal.length ≤ s.maxPkt := of_decide_eq_true hf
        simp [PacketsFit, singlePacket, this, List.length_pos_iff.mp hn]
    · cases h
  | fuapkt nal =>
    simp only [exec, execFuapkt, inSession_next] at h
    obtain ⟨hs, h⟩ := h
    split at h
    · cases h
    split at h
    · cases h
    rename_i hf hst
    cases h
    have := ExecEffect.packets (i := .fuapkt nal) (s := s) (fragments s.maxPkt nal) s.txTs hs ?_
    · exact this
    · intro hw
      have hn : 1 ≤ nal.length := of_decide_eq_true hw
      have := nalPackets_fit (maxPkt := s.maxPkt) (List.length_pos_iff.mp hn) (by simpa using hst)
      simpa [nalPackets, hf] using this
  | hunpack inp =>
    simp only [exec, execHunpack, inSession_next, finishWith_next] at h
    obtain ⟨hs, rfl⟩ := h
    rcases hunpack_cases inp s with ⟨e, h1, h2⟩ | ⟨k, h1, -, h3⟩ | ⟨k, h1, h2, h3⟩
    · rw [h2]; exact .early e (deser_error_early h1)
    · rw [h3]; exact .early _ rfl
    · rw [h3]; exact .unpacked inp k _ hs rfl h1 (payloadAction_effect _ _ _ h2)
  | rsvd ref ty rest ts => exact execAction_effect (by simp [encode]) .discarded h
  | snal ref ty rest ts =>
    refine execAction_effect (by simp [encode]) (actSnal_effect _ _ _ (by simp) ?_) h
    exact fun hw => by simpa [Instr.wf, singleType, unitTypeOk] using hw
  | stapa ref rest ts => exact execAction_effect (by simp [encode]) (agg_effect ..) h
  | stapb ref rest ts => exact execAction_effect (by simp [encode]) (agg_effect ..) h
  | mtap16 ref rest ts => exact execAction_effect (by simp [encode]) (agg_effect ..) h
  | mtap24 ref rest ts => exact execAction_effect (by simp [encode]) (agg_effect ..) h
  | fua ref rest ts => exact execAction_effect (by simp [encode]) (fu_effect ..) h
  | fub ref rest ts => exact execAction_effect (by simp [encode]) (fu_effect ..) h
  | fuMid ref r otype data ts => exact execAction_effect (by simp [encode]) (fuBody_effect ..) h
  | fuEnd ref r otype data ts => exact execAction_effect (by simp [encode]) (fuBody_effect ..) h
  | fuStart ref r otype data ts => exact execAction_effect (by simp [encode]) (fuBody_effect ..) h
  | fuStartEnd ref r otype data ts => exact execAction_effect (by simp [encode]) (fuBody_effect ..) h

end Sys2Proof.Machine
end

