-- ==== Sys2Proof/Laws/Claims.lean ====
section
/-! SUPPORT. The shared operations in the words of the statements: one lemma a definition, for the provers to cite instead of
unfolding it. -/

open Sys2Proof Sys2Proof.Machine Sys2Proof.Claims

namespace Sys2Proof.Laws

/-! ### The Wire Codec -/

/-- The record of an accepted packet, computed (R91). -/
def parsed (inp : Buffer) : Pkt :=
  { v := 2, p := hasPad inp, x := hasExt inp, cc := BitVec.ofNat 4 (csrcCount inp)
    m := fixM (byteAt inp 1), pt := fixPt (byteAt inp 1)
    seq := BitVec.ofNat 16 (memRead inp 2 2), ts := BitVec.ofNat 32 (memRead inp 4 4)
    ssrc := BitVec.ofNat 32 (memRead inp 8 4), csrc := readCsrc inp (csrcCount inp)
    extRsvd := if hasExt inp then BitVec.ofNat 16 (memRead inp (headEnd inp) 2) else 0
    extLen := if hasExt inp then BitVec.ofNat 16 (extWords inp) else 0
    ext := if hasExt inp then slice inp (headEnd inp + 4) (4 * extWords inp) else []
    pay := slice inp (headEnd inp + extSize inp) (inp.length - (headEnd inp + extSize inp) - padCount inp) }

theorem headEnd_eq (inp : Buffer) : Config.rtpFixed + 4 * (fixCc (byteAt inp 0)).toNat = headEnd inp := by
  simp [headEnd, csrcCount, fixCc_toNat, Config.rtpFixed]

/-- Everything `Deser` can answer: the record, or the first failing check. -/
theorem deser_eq (inp : Buffer) : deser inp = if deserStatus inp = .ok then .ok (parsed inp) else .error (deserStatus inp) := by
  unfold deser deserStatus
  simp only [headEnd_eq]
  have hv : fixV (byteAt inp 0) ≠ Config.rtpVersion ↔ (byteAt inp 0).toNat / 64 ≠ 2 := by
    rw [← fixV_toNat]; simp [Config.rtpVersion, BitVec.toNat_eq]
  have hx : fixX (byteAt inp 0) = hasExt inp := by rw [fixX_eq, hasExt]
  have hp : fixP (byteAt inp 0) = hasPad inp := by rw [fixP_eq, hasPad]
  simp only [hx, hp, hv]
  by_cases h1 : inp.length < 12
  · simp [h1, Config.rtpFixed]
  by_cases h2 : (byteAt inp 0).toNat / 64 ≠ 2
  · simp [h1, h2, Config.rtpFixed]
  by_cases h3 : inp.length < headEnd inp
  · simp [h1, h2, h3, Config.rtpFixed]
  simp only [h1, h2, h3, Config.rtpFixed, if_false]
  have hv2 : fixV (byteAt inp 0) = 2 := by
    apply BitVec.eq_of_toNat_eq; rw [fixV_toNat]; simpa using h2
  have hccl : csrcCount inp < 16 := Nat.mod_lt _ (by decide)
  have hcc : fixCc (byteAt inp 0) = BitVec.ofNat 4 (csrcCount inp) := by
    apply BitVec.eq_of_toNat_eq; rw [fixCc_toNat]; simp [csrcCount]
  have hw : memRead inp (headEnd inp + 2) 2 = extWords inp := rfl
  have hn : ∀ i, inp.length - 1 = i → 0 < inp.length → memRead inp i 1 = (byteAt inp i).toNat := by
    rintro i rfl h0; exact memRead_one _ _ (by omega)
  have hpad := hn _ rfl (by omega)
  cases hX : hasExt inp with
  | true =>
    have hes : extSize inp = 4 + 4 * extWords inp := by simp [extSize, hX]
    by_cases h4 : inp.length < headEnd inp + 4 ∨ inp.length < headEnd inp + extSize inp
    · have : readExt true inp (headEnd inp) (inp.length - headEnd inp) = .error .payloadTooShort := by
        unfold readExt
        rw [hw]
        split
        · split
          · rfl
          · rw [if_pos (by omega)]
        · contradiction
      simp [this, h4]
    · have : readExt true inp (headEnd inp) (inp.length - headEnd inp) = .ok ⟨BitVec.ofNat 16 (memRead inp (headEnd inp) 2), BitVec.ofNat 16 (extWords inp), slice inp (headEnd inp + 4) (4 * extWords inp), extSize inp⟩ := by
        unfold readExt
        rw [hw]
        rw [if_pos rfl, if_neg (by omega), if_neg (by omega), hes]
      simp only [this, h4, and_false, if_false]
      cases hP : hasPad inp with
      | true =>
        have hpc : padCount inp = (byteAt inp (inp.length - 1)).toNat := by simp [padCount, hP]
        unfold stripPad
        rw [hpad, ← hpc]
        by_cases h5 : inp.length ≤ headEnd inp + extSize inp ∨ inp.length < headEnd inp + extSize inp + padCount inp
        · simp only [h5, and_self, if_true]
          split
          · rename_i e he; split at he
            · cases he; rfl
            · rw [if_pos (by omega)] at he; cases he; rfl
          · rename_i e he; split at he
            · cases he
            · rw [if_pos (by omega)] at he; cases he
        · rw [if_pos rfl, if_neg (by omega), if_neg (by omega)]
          simp only [h5, and_false, if_false, if_true]
          simp [parsed, hv2, hX, hP, hcc, Nat.mod_eq_of_lt hccl, Nat.sub_sub]
      | false =>
        simp [stripPad, parsed, hv2, hX, hP, hcc, Nat.mod_eq_of_lt hccl, Nat.sub_sub, padCount]
  | false =>
    have hes : extSize inp = 0 := by simp [extSize, hX]
    have : readExt false inp (headEnd inp) (inp.length - headEnd inp) = .ok ⟨0, 0, [], 0⟩ := rfl
    simp only [this, hes]
    cases hP : hasPad inp with
    | true =>
      have hpc : padCount inp = (byteAt inp (inp.length - 1)).toNat := by simp [padCount, hP]
      unfold stripPad
      rw [hpad, ← hpc]
      by_cases h5 : inp.length ≤ headEnd inp + 0 ∨ inp.length < headEnd inp + 0 + padCount inp
      · simp only [h5, and_self, if_true]
        split
        · rename_i e he; split at he
          · cases he; rfl
          · rw [if_pos (by omega)] at he; cases he; rfl
        · rename_i e he; split at he
          · cases he
          · rw [if_pos (by omega)] at he; cases he
      · rw [if_pos rfl, if_neg (by omega), if_neg (by omega)]
        simp only [h5, and_false, if_false]
        simp [parsed, hv2, hX, hP, hcc, Nat.mod_eq_of_lt hccl, Nat.sub_sub, hes]
    | false =>
      simp [stripPad, parsed, hv2, hX, hP, hcc, Nat.mod_eq_of_lt hccl, padCount, hes]

/-- CSRC words take four bytes each. -/
theorem csrcWords_length (l : List (BitVec 32)) : (l.flatMap fun w => memWrite 4 w.toNat).length = 4 * l.length := by
  induction l with
  | nil => rfl
  | cons a l ih => simp [List.flatMap_cons]; omega

/-- The acceptance condition is that no check fails. -/
theorem deserAccepts_iff (inp : Buffer) : deserAccepts inp ↔ deserStatus inp = .ok := by
  unfold deserAccepts deserStatus
  by_cases hx : hasExt inp = true <;> by_cases hp : hasPad inp = true <;> simp only [hx, hp, true_and, false_and, if_false, forall_const, false_implies, and_true, Bool.false_eq_true] <;>
    split_ifs <;> simp <;> omega

/-- The CSRC words behind 12 bytes are read back. -/
theorem readCsrc_flatMap (pre : Buffer) (hpre : pre.length = 12) (l : List (BitVec 32)) (post : Buffer) :
    readCsrc (pre ++ (l.flatMap (fun w => memWrite 4 w.toNat) ++ post)) l.length = l := by
  apply List.ext_getElem?
  intro i
  by_cases hi : i < l.length
  · simp only [readCsrc, List.getElem?_map, List.getElem?_range hi, Option.map_some]
    have hsplit : l = l.take i ++ l[i] :: l.drop (i + 1) := by simp
    have : pre ++ (l.flatMap (fun w => memWrite 4 w.toNat) ++ post) = (pre ++ (l.take i).flatMap (fun w => memWrite 4 w.toNat)) ++ (memWrite 4 l[i].toNat ++ ((l.drop (i+1)).flatMap (fun w => memWrite 4 w.toNat) ++ post)) := by
      have : l.flatMap (fun w => memWrite 4 w.toNat) = (l.take i ++ l[i] :: l.drop (i + 1)).flatMap (fun w => memWrite 4 w.toNat) := by rw [← hsplit]
      rw [this]
      simp only [List.flatMap_append, List.flatMap_cons, List.append_assoc]
    rw [this]
    have hl : Config.rtpFixed + 4 * i = (pre ++ (l.take i).flatMap (fun w => memWrite 4 w.toNat)).length := by
      simp [hpre, Config.rtpFixed]; omega
    rw [hl, memRead_append_memWrite, Nat.mod_eq_of_lt (by exact (l[i]).isLt)]
    simp [hi]
  · simp [readCsrc, hi]

theorem fixByte0_eq (v : BitVec 2) (p x : Bool) (cc : BitVec 4) : fixByte0 v p x cc = BitVec.ofNat 8 (v.toNat * 64 + p.toNat * 32 + x.toNat * 16 + cc.toNat) := by
  apply BitVec.eq_of_toNat_eq; rw [← fixByte0_toNat]; simp

theorem fixByte1_eq (m : Bool) (pt : BitVec 7) : fixByte1 m pt = BitVec.ofNat 8 (m.toNat * 128 + pt.toNat) := by
  apply BitVec.eq_of_toNat_eq; rw [← fixByte1_toNat]; simp

/-- `WRITEHDR` writes the bytes of R96. -/
theorem writeHdr_eq (k : Pkt) : writeHdr k = headerBytes k := by
  simp [writeHdr, headerBytes, fixBytes, fixByte0_eq, fixByte1_eq, csrcBytes, extBytes]

/-- What a complete record has for `WRITEHDR` to read. -/
theorem complete_iff (k : Pkt) : k.complete = true ↔ k.cc.toNat ≤ k.csrc.length ∧ (k.x = true → 4 * k.extLen.toNat ≤ k.ext.length) := by
  cases h : k.x <;> simp [Pkt.complete, h]

/-- A record proper is complete. -/
theorem complete_of_wf (k : Pkt) (h : k.wf = true) : k.complete = true := by
  simp only [Pkt.wf, Bool.and_eq_true, beq_iff_eq] at h
  exact (complete_iff k).mpr ⟨by omega, fun _ => by omega⟩

/-- `WRITEHDR` of a complete record writes `HDRLEN` bytes. -/
theorem headerBytes_length (k : Pkt) (h : k.complete = true) : (headerBytes k).length = headerLength k := by
  obtain ⟨h1, h2⟩ := (complete_iff k).mp h
  simp only [headerBytes, headerLength, List.length_append, csrcWords_length, List.length_take, memWrite_length]
  cases hx : k.x with
  | false => simp; omega
  | true => have := h2 hx; simp; omega

/-- A record proper is written whole. -/
theorem headerBytes_of_wf (k : Pkt) (h : k.wf = true) :
    headerBytes k =
      [BitVec.ofNat 8 (k.v.toNat * 64 + k.p.toNat * 32 + k.x.toNat * 16 + k.cc.toNat), BitVec.ofNat 8 (k.m.toNat * 128 + k.pt.toNat)] ++
        memWrite 2 k.seq.toNat ++ memWrite 4 k.ts.toNat ++ memWrite 4 k.ssrc.toNat ++
        k.csrc.flatMap (fun w => memWrite 4 w.toNat) ++
        (if k.x then memWrite 2 k.extRsvd.toNat ++ memWrite 2 k.extLen.toNat ++ k.ext else []) := by
  simp only [Pkt.wf, Bool.and_eq_true, beq_iff_eq] at h
  rw [headerBytes, List.take_of_length_le (by omega), List.take_of_length_le (by omega)]

/-- `Deser` of the bytes of a record without padding flag is the record. -/
theorem deser_written (k : Pkt) (hw : k.wf = true) (hv : k.v = 2) (hp : k.p = false) (hx : k.x = false → k.extLen = 0 ∧ k.extRsvd = 0) :
    deser (headerBytes k ++ k.pay) = .ok k := by
  obtain ⟨v, p, x, cc, m, pt, seq, ts, ssrc, csrc, er, el, ext, pay⟩ := k
  simp only at hv hp hx
  subst hv hp
  simp only [Pkt.wf, Bool.and_eq_true, beq_iff_eq] at hw
  obtain ⟨hw1, hw2⟩ := hw
  set pre : Buffer := fixBytes 2 false x cc m pt seq ts ssrc with hpre
  have hprel : pre.length = 12 := by simp [pre]
  set cs := csrc.flatMap (fun w => memWrite 4 w.toNat) with hcs
  have hcsl : cs.length = 4 * cc.toNat := by rw [hcs, csrcWords_length, hw1]
  set eb : Buffer := if x then memWrite 2 er.toNat ++ memWrite 2 el.toNat ++ ext else [] with heb
  have ht1 : csrc.take cc.toNat = csrc := List.take_of_length_le (by omega)
  have ht2 : ext.take (4 * el.toNat) = ext := List.take_of_length_le (by omega)
  have hall : headerBytes ⟨2, false, x, cc, m, pt, seq, ts, ssrc, csrc, er, el, ext, pay⟩ ++ pay = pre ++ (cs ++ (eb ++ pay)) := by
    simp only [headerBytes, pre, fixBytes, fixByte0_eq, fixByte1_eq, ht1, ht2]
    simp [cs, eb, List.append_assoc]
  rw [hall]
  set inp := pre ++ (cs ++ (eb ++ pay)) with hinp
  have hb0 : byteAt inp 0 = fixByte0 2 false x cc := rfl
  have hb1 : byteAt inp 1 = fixByte1 m pt := rfl
  have hseq : memRead inp 2 2 = seq.toNat := by
    have := memRead_append_memWrite [fixByte0 2 false x cc, fixByte1 m pt] (memWrite 4 ts.toNat ++ memWrite 4 ssrc.toNat ++ (cs ++ (eb ++ pay))) 2 seq.toNat
    have e : inp = [fixByte0 2 false x cc, fixByte1 m pt] ++ (memWrite 2 seq.toNat ++ (memWrite 4 ts.toNat ++ memWrite 4 ssrc.toNat ++ (cs ++ (eb ++ pay)))) := by simp [inp, pre, fixBytes]
    rw [e]; exact this.trans (Nat.mod_eq_of_lt seq.isLt)
  have hts : memRead inp 4 4 = ts.toNat := by
    have := memRead_append_memWrite ([fixByte0 2 false x cc, fixByte1 m pt] ++ memWrite 2 seq.toNat) (memWrite 4 ssrc.toNat ++ (cs ++ (eb ++ pay))) 4 ts.toNat
    have e : inp = ([fixByte0 2 false x cc, fixByte1 m pt] ++ memWrite 2 seq.toNat) ++ (memWrite 4 ts.toNat ++ (memWrite 4 ssrc.toNat ++ (cs ++ (eb ++ pay)))) := by simp [inp, pre, fixBytes]
    rw [e]; exact this.trans (Nat.mod_eq_of_lt ts.isLt)
  have hss : memRead inp 8 4 = ssrc.toNat := by
    have := memRead_append_memWrite ([fixByte0 2 false x cc, fixByte1 m pt] ++ memWrite 2 seq.toNat ++ memWrite 4 ts.toNat) (cs ++ (eb ++ pay)) 4 ssrc.toNat
    have e : inp = ([fixByte0 2 false x cc, fixByte1 m pt] ++ memWrite 2 seq.toNat ++ memWrite 4 ts.toNat) ++ (memWrite 4 ssrc.toNat ++ (cs ++ (eb ++ pay))) := by simp [inp, pre, fixBytes]
    rw [e]; exact this.trans (Nat.mod_eq_of_lt ssrc.isLt)
  have hcsrc : readCsrc inp cc.toNat = csrc := by
    rw [← hw1]; exact readCsrc_flatMap pre hprel csrc _
  have hlen : inp.length = 12 + (4 * cc.toNat + (eb.length + pay.length)) := by
    simp only [inp, List.length_append, hprel, hcsl]
  unfold deser
  simp only [hb0, hb1, fixV_fixByte0, fixX_fixByte0, fixCc_fixByte0, fixP_fixByte0, fixM_fixByte1, fixPt_fixByte1, hseq, hts, hss, hcsrc]
  rw [if_neg (by simp [Config.rtpFixed]; omega), if_neg (by simp [Config.rtpVersion]), if_neg (by simp [Config.rtpFixed]; omega)]
  have hoff : Config.rtpFixed + 4 * cc.toNat = (pre ++ cs).length := by simp [hprel, hcsl, Config.rtpFixed]
  cases x with
  | false =>
    obtain ⟨rfl, rfl⟩ := hx rfl
    have hee : ext = [] := List.eq_nil_of_length_eq_zero (by simpa using hw2)
    subst hee
    simp only [readExt, stripPad, Bool.false_eq_true, if_false]
    have hs : slice inp (Config.rtpFixed + 4 * cc.toNat + 0) (inp.length - (Config.rtpFixed + 4 * cc.toNat) - 0) = pay := by
      rw [slice, Nat.add_zero, hoff]
      have : inp = (pre ++ cs) ++ pay := by simp [inp, eb]
      rw [this, List.drop_left]; apply List.take_of_length_le; simp; omega
    rw [hs]; simp
  | true =>
    have e : inp = (pre ++ cs) ++ (memWrite 2 er.toNat ++ (memWrite 2 el.toNat ++ (ext ++ pay))) := by simp [inp, eb]
    have e' : inp = (pre ++ cs ++ memWrite 2 er.toNat) ++ (memWrite 2 el.toNat ++ (ext ++ pay)) := by simp [inp, eb]
    have ebl : eb.length = 4 + ext.length := by simp [eb]; omega
    have r1 : memRead inp (Config.rtpFixed + 4 * cc.toNat) 2 = er.toNat := by
      rw [hoff, e]; exact (memRead_append_memWrite _ _ _ _).trans (Nat.mod_eq_of_lt er.isLt)
    have r2 : memRead inp (Config.rtpFixed + 4 * cc.toNat + 2) 2 = el.toNat := by
      rw [show Config.rtpFixed + 4 * cc.toNat + 2 = (pre ++ cs ++ memWrite 2 er.toNat).length by simp [hprel, hcsl, Config.rtpFixed]; omega, e']
      exact (memRead_append_memWrite _ _ _ _).trans (Nat.mod_eq_of_lt el.isLt)
    have r3 : slice inp (Config.rtpFixed + 4 * cc.toNat + 4) (4 * el.toNat) = ext := by
      have e3 : inp = (pre ++ cs ++ memWrite 2 er.toNat ++ memWrite 2 el.toNat) ++ (ext ++ pay) := by simp [inp, eb]
      rw [slice, show Config.rtpFixed + 4 * cc.toNat + 4 = (pre ++ cs ++ memWrite 2 er.toNat ++ memWrite 2 el.toNat).length by simp [hprel, hcsl, Config.rtpFixed]; omega]
      conv_lhs => rw [e3]
      rw [List.drop_left, ← hw2, List.take_left]
    have r4 : slice inp (Config.rtpFixed + 4 * cc.toNat + (4 + 4 * el.toNat)) (inp.length - (Config.rtpFixed + 4 * cc.toNat) - (4 + 4 * el.toNat)) = pay := by
      have e4 : inp = (pre ++ cs ++ memWrite 2 er.toNat ++ memWrite 2 el.toNat ++ ext) ++ pay := by simp [inp, eb]
      rw [slice, show Config.rtpFixed + 4 * cc.toNat + (4 + 4 * el.toNat) = (pre ++ cs ++ memWrite 2 er.toNat ++ memWrite 2 el.toNat ++ ext).length by simp [hprel, hcsl, Config.rtpFixed, hw2]; omega]
      conv_lhs => rw [e4]
      rw [List.drop_left]; apply List.take_of_length_le; simp [hprel, hcsl, Config.rtpFixed]; omega
    have hR : readExt true inp (Config.rtpFixed + 4 * cc.toNat) (inp.length - (Config.rtpFixed + 4 * cc.toNat)) = .ok ⟨er, el, ext, 4 + 4 * el.toNat⟩ := by
      unfold readExt
      rw [r1, r2, r3, if_pos rfl, if_neg (by simp [Config.rtpFixed]; omega), if_neg (by simp [Config.rtpFixed]; omega)]
      simp
    simp only [hR, stripPad, Bool.false_eq_true, if_false]
    rw [r4]; simp

/-! ### The packetizer -/

/-- `SC` in the words of the statements (R112). -/
theorem startCodeAt_iff (inp : Buffer) (i : Nat) : startCodeAt inp i ↔ isStartCode inp i = true := (isStartCode_iff inp i).symm

/-- The units of the statements are those that HPACK sends: a span is empty exactly when its bytes are. -/
theorem streamUnits_eq (inp : Buffer) : streamUnits inp = nalUnits inp := by
  rw [streamUnits, nalUnits, List.filter_map]
  congr 1
  refine List.filter_congr fun be hbe => ?_
  have := nalSpans_bounds hbe
  have hl : (slice inp be.1 (be.2 - be.1)).length = be.2 - be.1 := by simp [slice]; omega
  rw [Function.comp, Bool.eq_iff_iff]
  simp [← List.length_eq_zero_iff, hl]
  omega

/-- The packets of the statements are those that HPACK sends. -/
theorem streamPackets_eq (maxPkt : Nat) (inp : Buffer) : streamPackets maxPkt inp = (nalUnits inp).flatMap (nalPackets maxPkt) := by
  have ht : ∀ b : Byte, singleMarker b = decide (1 ≤ b.toNat % 32 ∧ b.toNat % 32 ≤ 5) := by decide
  rw [streamPackets, streamUnits_eq]
  congr 1
  funext nal
  by_cases h : 12 + nal.length ≤ maxPkt <;> simp [nalPackets, fitsSingle, singlePacket, ht, Config.rtpFixed, h]

/-- The state after the packets `q` are sent, the result registers aside. -/
def sentState (q : List (Bool × Buffer)) (more : List Bool) (s : State) : State :=
  { s with
      trace := s.trace ++ sentEvents s.tplPt s.txTs s.tplSsrc s.txSeq q
      txSeq := s.txSeq + BitVec.ofNat 16 q.length
      answers := more }

/-- A packet of `EMIT`, byte by byte (R82). -/
theorem buildPacket_eq (m : Bool) (pay : Buffer) (s : State) : buildPacket m pay s = wirePacket m s.tplPt s.txSeq s.txTs s.tplSsrc pay := by
  simp only [buildPacket, writeHdr, templatePkt, Pkt.zero, wirePacket, fixBytes, csrcBytes, extBytes, fixByte1_eq]
  simp
  decide

/-- `EMIT` granted. -/
theorem emit_grant (m : Bool) (pay : Buffer) (s : State) (more : List Bool) (h : s.answers = true :: more) :
    emit m pay s = (sentState [(m, pay)] more s, true) := by
  simp only [emit, allocAnswer, h, takeAnswer]
  simp [sendPacket, emitEvents, sentState, sentEvents, buildPacket_eq, Config.rtpFixed]

/-- Sending a list with a grant for each packet. -/
theorem emitAll_grant (q : List (Bool × Buffer)) : ∀ (s : State) (more : List Bool), s.answers = List.replicate q.length true ++ more →
    emitAll q s = (sentState q more s, true) := by
  induction q with
  | nil => intro s more h; simp at h; simp [emitAll, sentState, sentEvents, ← h]
  | cons p q ih =>
    obtain ⟨m, pay⟩ := p
    intro s more h
    simp only [List.length_cons, List.replicate_succ, List.cons_append] at h
    simp only [emitAll, emit_grant m pay s _ h]
    rw [ih _ more (by simp [sentState])]
    simp [sentState, sentEvents]
    rw [BitVec.add_assoc]; congr 1
    apply BitVec.eq_of_toNat_eq; simp; omega

/-- `EMIT` denied. -/
theorem emit_deny (m : Bool) (pay : Buffer) (s : State) (more : List Bool) (h : s.answers = false :: more) :
    emit m pay s = ({ s with trace := s.trace ++ [.alloc (12 + pay.length) false], answers := more }, false) := by
  simp only [emit, allocAnswer, h, takeAnswer]
  simp [emitEvents, Config.rtpFixed]

/-- Sending a list whose `k`-th allocation is the first denied. -/
theorem emitAll_deny (q : List (Bool × Buffer)) : ∀ (s : State) (k : Nat) (more : List Bool), s.answers = List.replicate k true ++ false :: more → k < q.length →
    (emitAll q s).1.txSeq = s.txSeq + BitVec.ofNat 16 k ∧ (emitAll q s).2 = false ∧ (emitAll q s).1.answers = more ∧ ∃ m pay, q[k]? = some (m, pay) ∧ (emitAll q s).1.trace = (sentState (q.take k) more s).trace ++ [.alloc (12 + pay.length) false] := by
  induction q with
  | nil => intro s k more _ h; simp at h
  | cons p q ih =>
    obtain ⟨m, pay⟩ := p
    intro s k more h hk
    cases k with
    | zero =>
      simp only [List.replicate_zero, List.nil_append] at h
      simp only [emitAll, emit_deny m pay s more h]
      simp [sentState, sentEvents]
    | succ k =>
      simp only [List.replicate_succ, List.cons_append] at h
      simp only [emitAll, emit_grant m pay s _ h]
      obtain ⟨a, b, c, m', pay', d, e⟩ := ih (sentState [(m, pay)] (List.replicate k true ++ false :: more) s) k more rfl (by simpa using hk)
      refine ⟨?_, b, c, m', pay', by simpa using d, ?_⟩
      · rw [a]; simp only [sentState, List.length_singleton]; rw [BitVec.add_assoc]; congr 1
        apply BitVec.eq_of_toNat_eq; simp; omega
      · rw [e]; simp [sentState, sentEvents]

/-- Everything that sending a list can do: all packets go, or those before the first denied one. -/
theorem emitAll_any (q : List (Bool × Buffer)) : ∀ (s : State), ∃ n ans fc,
    (emitAll q s = ({ sentState q ans s with freeCtr := fc}, true) ∧ n = q.length) ∨
    ∃ m pay, q[n]? = some (m, pay) ∧ emitAll q s = ({ sentState (q.take n) ans s with freeCtr := fc, trace := (sentState (q.take n) ans s).trace ++ [.alloc (12 + pay.length) false]}, false) := by
  induction q with
  | nil => intro s; exact ⟨0, s.answers, s.freeCtr, .inl ⟨by simp [emitAll, sentState, sentEvents], rfl⟩⟩
  | cons p q ih =>
    obtain ⟨m, pay⟩ := p
    intro s
    rcases emit_cases m pay s with ⟨-, h⟩ | ⟨-, h⟩
    · set s' := sendPacket m pay (emitEvents [.alloc (Config.rtpFixed + pay.length) true] (takeAnswer s)) with hs'
      have e : emitAll ((m, pay) :: q) s = emitAll q s' := by simp [emitAll, h]
      have es : s' = { sentState [(m, pay)] s'.answers s with freeCtr := s'.freeCtr } := by
        rw [hs']
        cases hh : s.answers <;> simp [sendPacket, emitEvents, sentState, sentEvents, buildPacket_eq, Config.rtpFixed, takeAnswer, hh]
      have step1 : ∀ (q' : List (Bool × Buffer)) ans fc, ({ sentState q' ans s' with freeCtr := fc } : State) = { sentState ((m, pay) :: q') ans s with freeCtr := fc } := by
        intro q' ans fc
        rw [es]
        simp [sentState, sentEvents]
        rw [BitVec.add_assoc]; congr 1
        apply BitVec.eq_of_toNat_eq; simp; omega
      obtain ⟨n, ans, fc, ⟨h1, h2⟩ | ⟨m', pay', h1, h2⟩⟩ := ih s'
      · refine ⟨n + 1, ans, fc, .inl ⟨?_, by simp [h2]⟩⟩
        rw [e, h1, step1]
      · refine ⟨n + 1, ans, fc, .inr ⟨m', pay', by simpa using h1, ?_⟩⟩
        rw [e, h2, List.take_succ_cons]
        have h3 := step1 (q.take n) ans fc
        have h4 : (sentState (q.take n) ans s').trace = (sentState ((m, pay) :: q.take n) ans s).trace := by have := congrArg State.trace h3; exact this
        rw [h4]
        have : ∀ t : State, ∀ l, ({ sentState (q.take n) ans s' with freeCtr := fc, trace := l } : State) = { ({ sentState (q.take n) ans s' with freeCtr := fc } : State) with trace := l } := fun _ _ => rfl
        rw [this s, h3]
    · refine ⟨0, (takeAnswer s).answers, (takeAnswer s).freeCtr, .inr ⟨m, pay, rfl, ?_⟩⟩
      simp only [emitAll, h]
      cases hh : s.answers <;> simp [emitEvents, sentState, sentEvents, Config.rtpFixed, takeAnswer, hh]

/-- The fragments of the bytes behind a NAL header (R116, R121). -/
theorem fragmentsFrom_spec (hdr : Byte) (mc : Nat) (hmc : 1 ≤ mc) : ∀ (fuel : Nat) (first : Bool) (data : Buffer), data.length ≤ fuel → data ≠ [] →
    let fs := fragmentsFrom hdr mc fuel first data
    fs.length = (data.length + mc - 1) / mc ∧ (fs.flatMap fun f => f.2.drop 2) = data ∧
      ∀ (j : Nat) (m : Bool) (pay : Buffer), fs[j]? = some (m, pay) →
        pay.take 2 = [fuIndicator hdr, fuHeader hdr (first && decide (j = 0)) (decide (j + 1 = fs.length))] ∧
          m = decide (j + 1 = fs.length) ∧ 3 ≤ pay.length ∧ pay.length ≤ mc + 2 ∧ (j + 1 < fs.length → pay.length = mc + 2) := by
  intro fuel
  induction fuel with
  | zero => intro first data h1 h2; exact absurd (List.eq_nil_of_length_eq_zero (by omega)) h2
  | succ fuel ih =>
    intro first data h1 h2
    have hpos : 1 ≤ data.length := List.length_pos_iff.mpr h2
    simp only [fragmentsFrom, h2, if_false]
    by_cases hl : data.length ≤ mc
    · have hd : data.drop mc = [] := List.drop_eq_nil_of_le hl
      have hnil : fragmentsFrom hdr mc fuel false [] = [] := by cases fuel <;> simp [fragmentsFrom]
      simp only [hd, hnil, List.length_singleton, List.flatMap_cons, List.flatMap_nil, List.append_nil]
      refine ⟨?_, ?_, ?_⟩
      · rw [Nat.div_eq_of_lt_le] <;> omega
      · simp [List.take_of_length_le hl]
      · intro j m pay hj
        cases j with
        | succ j => simp at hj
        | zero =>
          simp at hj
          obtain ⟨rfl, rfl⟩ := hj
          simp [hl]; omega
    · have hd : data.drop mc ≠ [] := by simp; omega
      have hdl : (data.drop mc).length = data.length - mc := by simp
      obtain ⟨i1, i2, i3⟩ := ih false (data.drop mc) (by omega) hd
      set fs := fragmentsFrom hdr mc fuel false (data.drop mc) with hfs
      have hne : 1 ≤ fs.length := by
        rw [i1, hdl, Nat.le_div_iff_mul_le (by omega)]; omega
      refine ⟨?_, ?_, ?_⟩
      · rw [List.length_cons, i1, hdl]
        have : data.length + mc - 1 = (data.length - mc + mc - 1) + mc := by omega
        rw [this, Nat.add_div_right _ (by omega)]
      · rw [List.flatMap_cons, i2]; simp
      · intro j m pay hj
        cases j with
        | zero =>
          simp at hj
          obtain ⟨rfl, rfl⟩ := hj
          have : ¬ (0 + 1 = fs.length + 1) := by omega
          simp [hl, Nat.min_eq_left (show mc ≤ data.length by omega)]
          simp at this
          simp [this]; omega
        | succ j =>
          simp at hj
          obtain ⟨a, b, c, d, e⟩ := i3 j m pay hj
          refine ⟨?_, ?_, c, d, ?_⟩
          · rw [a]; simp
          · simp [b]
          · intro h; exact e (by simpa using h)

/-! ### The depacketizer -/

/-- `SEQCHECK` as R133 writes it. -/
theorem seqCheck_eq (q : BitVec 16) (s : State) : seqCheck q s = checked q s := by
  simp only [seqCheck, checked, seqGap]
  by_cases h : (s.rxSeen && q != s.rxLastSeq + 1) = true
  · simp only [h, if_true, Bool.or_true, dropLost, truncAcc]
  · simp only [Bool.not_eq_true _ |>.mp h, Bool.false_eq_true, if_false, Bool.or_false]

/-- `DELIVER` of a list of units. -/
theorem deliverAll_eq : ∀ (us : List (Buffer × BitVec 32)) (s : State), deliverAll us s = { s with trace := s.trace ++ unitEvents s.loss us, loss := s.loss && us.isEmpty } := by
  intro us
  induction us with
  | nil => intro s; simp [deliverAll, unitEvents]
  | cons u us ih =>
    obtain ⟨u, t⟩ := u
    intro s
    rw [deliverAll, ih]
    simp [deliver, emitEvents, unitEvents]

/-- An entry of either layout (R73, R75, R76). -/
def anyEntry (w : Nat) (e : Buffer × Byte × Nat) : Buffer := if w = 0 then stapEntry e.1 else mtapEntry w e

theorem unitTypeOk_of_fits (u : Buffer) (h : unitFits u) : unitTypeOk (byteAt u 0) = true := by
  have : ∀ b : Byte, 1 ≤ b.toNat % 32 → b.toNat % 32 ≤ 23 → unitTypeOk b = true := by decide
  exact this _ h.2.2.1 h.2.2.2

theorem fits_of_unitTypeOk (u : Buffer) (h : unitTypeOk (byteAt u 0) = true) : 1 ≤ (byteAt u 0).toNat % 32 ∧ (byteAt u 0).toNat % 32 ≤ 23 := by
  have : ∀ b : Byte, unitTypeOk b = true → 1 ≤ b.toNat % 32 ∧ b.toNat % 32 ≤ 23 := by decide
  exact this _ h

/-- Pass 1 of `AGG` accepts every sequence of well-formed entries. -/
theorem aggEntries_of_entries (w : Nat) (ts : BitVec 32) : ∀ (es : List (Buffer × Byte × Nat)) (fuel : Nat), (∀ e ∈ es, unitFits e.1 ∧ e.2.2 < 256 ^ w) → (es.flatMap (anyEntry w)).length ≤ fuel →
    aggEntries fuel w ts (es.flatMap (anyEntry w)) = some (es.map fun e => (e.1, ts + if w = 0 then 0 else BitVec.ofNat 32 e.2.2)) := by
  intro es
  induction es with
  | nil => intro fuel _ _; cases fuel <;> simp [aggEntries]
  | cons e es ih =>
    obtain ⟨u, d, off⟩ := e
    intro fuel h hf
    obtain ⟨⟨hu, ho⟩, hes⟩ := List.forall_mem_cons.mp h
    simp only at hu ho
    have hsplit : ∃ hd : Buffer, hd.length = entryHdr w ∧ anyEntry w (u, d, off) = hd ++ u ∧ (∀ post, memRead (hd ++ post) 0 2 = u.length) ∧ (w ≠ 0 → ∀ post, memRead (hd ++ post) 3 w = off) := by
      by_cases hw : w = 0
      · refine ⟨memWrite 2 u.length, by simp [entryHdr, hw], by simp [anyEntry, hw, stapEntry], fun post => ?_, fun h => absurd hw h⟩
        have := memRead_append_memWrite [] post 2 u.length
        exact this.trans (Nat.mod_eq_of_lt hu.2.1)
      · refine ⟨memWrite 2 u.length ++ [d] ++ memWrite w off, by simp [entryHdr, hw]; omega, by simp [anyEntry, hw, mtapEntry], fun post => ?_, fun h post => ?_⟩
        · have := memRead_append_memWrite [] ([d] ++ memWrite w off ++ post) 2 u.length
          rw [show memWrite 2 u.length ++ [d] ++ memWrite w off ++ post = memWrite 2 u.length ++ ([d] ++ memWrite w off ++ post) by simp]
          exact this.trans (Nat.mod_eq_of_lt hu.2.1)
        · have := memRead_append_memWrite (memWrite 2 u.length ++ [d]) post w off
          rw [show memWrite 2 u.length ++ [d] ++ memWrite w off ++ post = memWrite 2 u.length ++ [d] ++ (memWrite w off ++ post) by simp]
          exact this.trans (Nat.mod_eq_of_lt ho)
    obtain ⟨hd, hl, hg, hlen, hoff⟩ := hsplit
    have heh : 2 ≤ entryHdr w := by simp [entryHdr]; split <;> omega
    rw [List.flatMap_cons, hg, List.append_assoc] at hf ⊢
    set tail := es.flatMap (anyEntry w) with htail
    cases fuel with
    | zero => simp only [List.length_append, hl] at hf; omega
    | succ fuel =>
      have hne : ∃ b bs, hd ++ (u ++ tail) = b :: bs := by
        match hd, hl with
        | b :: bs, _ => exact ⟨b, bs ++ (u ++ tail), rfl⟩
        | [], h => exact absurd h (by simp; omega)
      obtain ⟨b, bs, hb⟩ := hne
      have hdrop : (b :: bs).drop (entryHdr w) = u ++ tail := by rw [← hb, ← hl, List.drop_left]
      have hmr : memRead (b :: bs) 0 2 = u.length := by rw [← hb]; exact hlen _
      rw [hb] at hf ⊢
      simp only [aggEntries]
      rw [hdrop, hmr]
      have hu1 := hu.1
      rw [if_neg (by rw [← hb]; simp; omega), if_neg (by simp), if_neg (by omega), if_neg]
      · rw [List.drop_left, List.take_left, ih fuel hes]
        · simp only [List.map_cons, entryTsOff]
          by_cases hw : w = 0
          · simp [hw]
          · rw [← hb, hoff hw]
        · have := congrArg List.length hb; simp at this hf; omega
      · rw [byteAt_append_left _ _ _ (by omega), unitTypeOk_of_fits u hu]; simp

/-- Pass 1 of `AGG` accepts nothing else. -/
theorem entries_of_aggEntries (w : Nat) (ts : BitVec 32) : ∀ (fuel : Nat) (rest : Buffer) (us : List (Buffer × BitVec 32)), aggEntries fuel w ts rest = some us →
    ∃ es : List (Buffer × Byte × Nat), (∀ e ∈ es, unitFits e.1 ∧ e.2.2 < 256 ^ w) ∧ rest = es.flatMap (anyEntry w) := by
  intro fuel
  induction fuel with
  | zero =>
    intro rest us h
    cases rest with
    | nil => exact ⟨[], by simp⟩
    | cons b bs => simp [aggEntries] at h
  | succ fuel ih =>
    intro rest us h
    cases rest with
    | nil => exact ⟨[], by simp⟩
    | cons b bs =>
      simp only [aggEntries] at h
      split_ifs at h with h1 h2 h3 h4
      cases hr : aggEntries fuel w ts (((b :: bs).drop (entryHdr w)).drop (memRead (b :: bs) 0 2)) with
      | none => rw [hr] at h; cases h
      | some us' =>
        obtain ⟨es, he, hrest⟩ := ih _ _ hr
        set inp := b :: bs with hinp
        set n := memRead inp 0 2 with hn
        have hnlt : n < 65536 := memRead_lt inp 0 2
        have heh : 2 ≤ entryHdr w := by simp [entryHdr]; split <;> omega
        have hbody : n ≤ (inp.drop (entryHdr w)).length := by omega
        set u := (inp.drop (entryHdr w)).take n with hu
        have hul : u.length = n := by rw [hu, List.length_take]; exact Nat.min_eq_left hbody
        have hty : unitTypeOk (byteAt u 0) = true := by
          have : byteAt (inp.drop (entryHdr w)) 0 = byteAt u 0 := by
            conv_lhs => rw [← List.take_append_drop n (inp.drop (entryHdr w))]
            exact byteAt_append_left _ _ _ (by rw [← hu, hul]; omega)
          rw [← this]; simpa using h4
        have hfit : unitFits u := ⟨by rw [hul]; omega, by rw [hul]; exact hnlt, fits_of_unitTypeOk u hty⟩
        have hi : inp = inp.take (entryHdr w) ++ (u ++ es.flatMap (anyEntry w)) := by
          rw [← hrest, hu, List.take_append_drop, List.take_append_drop]
        have h2w : memWrite 2 n = inp.take 2 := by
          rw [hn, memWrite_memRead _ _ _ (by omega)]; rfl
        refine ⟨(u, byteAt inp 2, memRead inp 3 w) :: es, ?_, ?_⟩
        · intro e he'
          rcases List.mem_cons.mp he' with rfl | he'
          · exact ⟨hfit, memRead_lt ..⟩
          · exact he e he'
        · rw [List.flatMap_cons]
          have : inp.take (entryHdr w) ++ u = anyEntry w (u, byteAt inp 2, memRead inp 3 w) := by
            by_cases hw : w = 0
            · simp [anyEntry, hw, stapEntry, hul, h2w, entryHdr]
            · simp only [anyEntry, hw, if_false, mtapEntry, hul, h2w, entryHdr]
              simp only [entryHdr, hw, if_false] at h1
              rw [memWrite_memRead _ _ _ (by omega), slice]
              congr 1
              rw [show 3 + w = 2 + 1 + w by omega, List.take_add, List.take_add]
              congr 2
              rw [List.take_one_drop_eq_of_lt_length (by omega)]
              have : 2 < inp.length := by omega
              simp [byteAt, List.getD, this]
          rw [← this, List.append_assoc]
          exact hi

end Sys2Proof.Laws
end

