-- ==== Sys2Proof/Laws/PerInstr.lean ====
section
/-! SUPPORT. Families of statements about every instruction as syntax, one lemma a constructor. -/

namespace Sys2Proof.Laws

/-- The selector space of an instruction's row of spec/opcode_table.json (spec/30_encoding.md R61, R68, R71, R79). -/
def tableSpace (i : Instr) : Space :=
  match i with
  | .init _ _ _ _ => .cmd
  | .deser _ => .cmd
  | .serhdr _ _ => .cmd
  | .ser _ _ => .cmd
  | .hpack _ _ => .cmd
  | .hunpack _ => .cmd
  | .rsvd _ _ _ _ => .nalhdr
  | .snal _ _ _ _ => .nalhdr
  | .stapa _ _ _ => .nalhdr
  | .stapb _ _ _ => .nalhdr
  | .mtap16 _ _ _ => .nalhdr
  | .mtap24 _ _ _ => .nalhdr
  | .fua _ _ _ => .nalhdr
  | .fub _ _ _ => .nalhdr
  | .fuMid _ _ _ _ _ => .fuhdr
  | .fuEnd _ _ _ _ _ => .fuhdr
  | .fuStart _ _ _ _ _ => .fuhdr
  | .fuStartEnd _ _ _ _ _ => .fuhdr
  | .rtpfix _ _ _ _ _ _ _ _ _ => .rtpfix
  | .snalpkt _ => .snalpkt
  | .fuapkt _ => .fuapkt

namespace EncodeSpace

/-- An instruction is encoded in the space of its row, and a well-formed one has at least one byte there. -/
def Statement (i : Instr) : Prop := (encode i).space = tableSpace i ∧ (i.wf = true → (encode i).bytes ≠ [])

theorem init (pt : BitVec 7) (seq0 : BitVec 16) (ssrc : BitVec 32) (maxpkt : Nat) : Statement (.init pt seq0 ssrc maxpkt) := by
  simp [Statement, encode, tableSpace]

theorem deser (inp : Buffer) : Statement (.deser inp) := by simp [Statement, encode, tableSpace]

theorem serhdr (pkt : Pkt) (cap : Nat) : Statement (.serhdr pkt cap) := by simp [Statement, encode, tableSpace]

theorem ser (pkt : Pkt) (cap : Nat) : Statement (.ser pkt cap) := by simp [Statement, encode, tableSpace]

theorem hpack (inp : Buffer) (ts : BitVec 32) : Statement (.hpack inp ts) := by simp [Statement, encode, tableSpace]

theorem hunpack (inp : Buffer) : Statement (.hunpack inp) := by simp [Statement, encode, tableSpace]

theorem rsvd (ref : BitVec 3) (ty : BitVec 5) (rest : Buffer) (ts : BitVec 32) : Statement (.rsvd ref ty rest ts) := by
  simp [Statement, encode, tableSpace]

theorem snal (ref : BitVec 3) (ty : BitVec 5) (rest : Buffer) (ts : BitVec 32) : Statement (.snal ref ty rest ts) := by
  simp [Statement, encode, tableSpace]

theorem stapa (ref : BitVec 3) (rest : Buffer) (ts : BitVec 32) : Statement (.stapa ref rest ts) := by
  simp [Statement, encode, tableSpace]

theorem stapb (ref : BitVec 3) (rest : Buffer) (ts : BitVec 32) : Statement (.stapb ref rest ts) := by
  simp [Statement, encode, tableSpace]

theorem mtap16 (ref : BitVec 3) (rest : Buffer) (ts : BitVec 32) : Statement (.mtap16 ref rest ts) := by
  simp [Statement, encode, tableSpace]

theorem mtap24 (ref : BitVec 3) (rest : Buffer) (ts : BitVec 32) : Statement (.mtap24 ref rest ts) := by
  simp [Statement, encode, tableSpace]

theorem fua (ref : BitVec 3) (rest : Buffer) (ts : BitVec 32) : Statement (.fua ref rest ts) := by
  simp [Statement, encode, tableSpace]

theorem fub (ref : BitVec 3) (rest : Buffer) (ts : BitVec 32) : Statement (.fub ref rest ts) := by
  simp [Statement, encode, tableSpace]

theorem fuMid (ref : BitVec 3) (r : Bool) (otype : BitVec 5) (data : Buffer) (ts : BitVec 32) :
    Statement (.fuMid ref r otype data ts) := by simp [Statement, encode, tableSpace]

theorem fuEnd (ref : BitVec 3) (r : Bool) (otype : BitVec 5) (data : Buffer) (ts : BitVec 32) :
    Statement (.fuEnd ref r otype data ts) := by simp [Statement, encode, tableSpace]

theorem fuStart (ref : BitVec 3) (r : Bool) (otype : BitVec 5) (data : Buffer) (ts : BitVec 32) :
    Statement (.fuStart ref r otype data ts) := by simp [Statement, encode, tableSpace]

theorem fuStartEnd (ref : BitVec 3) (r : Bool) (otype : BitVec 5) (data : Buffer) (ts : BitVec 32) :
    Statement (.fuStartEnd ref r otype data ts) := by simp [Statement, encode, tableSpace]

theorem rtpfix (p x : Bool) (cc : BitVec 4) (m : Bool) (pt : BitVec 7) (seq : BitVec 16) (ts : BitVec 32) (ssrc : BitVec 32)
    (rest : Buffer) : Statement (.rtpfix p x cc m pt seq ts ssrc rest) := by
  simp [Statement, encode, tableSpace, fixBytes]

theorem snalpkt (nal : Buffer) : Statement (.snalpkt nal) := by
  simp only [Statement, encode, tableSpace, Instr.wf, decide_eq_true_eq, true_and]
  exact fun h he => by simp [he] at h

theorem fuapkt (nal : Buffer) : Statement (.fuapkt nal) := by
  simp only [Statement, encode, tableSpace, Instr.wf, decide_eq_true_eq, true_and]
  exact fun h he => by simp [he] at h

end EncodeSpace

end Sys2Proof.Laws
end

