-- ==== Sys2Proof/Tests/Slice0.lean ====
section
/-! SUPPORT. The model's own tests. Expected results are those of spec/95_test_vectors.md (the vector is named in each comment)
or of the tables of spec/30_encoding.md; then one witness for each obligation with hypotheses. -/

open Sys2Proof Sys2Proof.Machine Sys2Proof.Claims

namespace Sys2Proof.Tests

/-! ### Helpers -/

/-- A byte string from numbers. -/
def bytes (l : List Nat) : Buffer := l.map (BitVec.ofNat 8)

/-- Whether an outcome is a next state with the given property. -/
def nextHas (o : Host.Outcome State Fault Refusal) (p : State → Bool) : Bool :=
  match o with
  | .next t => p t
  | .fault _ => false
  | .refused _ => false

/-- Whether an outcome is the given refusal. -/
def refusedWith (o : Host.Outcome State Fault Refusal) (r : Refusal) : Bool :=
  match o with
  | .next _ => false
  | .fault _ => false
  | .refused q => q == r

/-- The decoder's rejection of a request. -/
def rejected (r : Request) : Option Reject :=
  match decode r with
  | .ok _ => none
  | .error e => some e

/-- What the decoder accepts. -/
def accepted (r : Request) : Option Instr :=
  match decode r with
  | .ok i => some i
  | .error _ => none

/-- The sender of spec/95_test_vectors.md, part 2.7: PT 96, SSRC 0x11223344, every allocation granted. -/
def sender (seq : BitVec 16) (maxPkt : Nat) : State :=
  { State.reset with tplPt := 96, txSeq := seq, tplSsrc := 0x11223344, maxPkt := maxPkt, answers := List.replicate 8 true }

/-- A receiver in the middle of a reassembly: the state after fragment 1 of the corner cases of part 2.6. -/
def receiver : State := { State.reset with rxSeen := true, rxLastSeq := 1, acc := bytes [0x65, 0x01, 0x02] }

/-- The packet of part 2.6: SEQ 10, TS 77, with this payload. -/
def packet (pay : List Nat) : Buffer := bytes ([0x80, 0x60, 0x00, 0x0A, 0x00, 0x00, 0x00, 0x4D, 0x11, 0x22, 0x33, 0x44] ++ pay)

/-- Record S1 of part 2.2. -/
def recordS1 : Pkt :=
  ⟨2, false, true, 2, false, 96, 0x1234, 86400, 0xCAFEBABE, [0x11111111, 0x22222222], 0xBEDE, 2,
    bytes [0xA1, 0xA2, 0xA3, 0xA4, 0xB1, 0xB2, 0xB3, 0xB4], bytes [1, 2, 3]⟩

/-- The 35 bytes of vector D3. -/
def packetD3 : Buffer :=
  bytes [0x92, 0x60, 0x12, 0x34, 0x00, 0x01, 0x51, 0x80, 0xCA, 0xFE, 0xBA, 0xBE, 0x11, 0x11, 0x11, 0x11,
    0x22, 0x22, 0x22, 0x22, 0xBE, 0xDE, 0x00, 0x02, 0xA1, 0xA2, 0xA3, 0xA4, 0xB1, 0xB2, 0xB3, 0xB4, 0x01, 0x02, 0x03]

/-- Input of vector F2: one NAL unit of 9 bytes. -/
def inputF2 : Buffer := bytes [0x00, 0x00, 0x01, 0x41, 0x01, 0x02, 0x03, 0x04, 0x05, 0x06, 0x07, 0x08]

/-! ### Well-formedness: an ill-formed term for each check, refused by the decoder -/

theorem test_wf_csrc : rejected (encode (.ser { recordS1 with csrc := [] } 35)) = some .illFormed := by decide

theorem test_wf_ext : rejected (encode (.serhdr { recordS1 with ext := [] } 35)) = some .illFormed := by decide

theorem test_wf_record : accepted (encode (.ser recordS1 35)) = some (.ser recordS1 35) := by decide

/-- R98 (3): a record without the extension flag is a record whatever its extension fields hold; so is one with more CSRC words than
`CC` (I22). -/
theorem test_wf_ignored_fields :
    accepted (encode (.ser { recordS1 with x := false, extLen := 0 } 35)) = some (.ser { recordS1 with x := false, extLen := 0 } 35) ∧
      accepted (encode (.serhdr { recordS1 with x := false, ext := [] } 35)) =
        some (.serhdr { recordS1 with x := false, ext := [] } 35) ∧
      accepted (encode (.serhdr { recordS1 with cc := 1 } 35)) = some (.serhdr { recordS1 with cc := 1 } 35) := by decide

/-- An RSVD term with a type of another row: its encoding is read as that row's instruction. -/
theorem test_wf_rsvd : (Instr.rsvd 3 24 [] 0).wf = false ∧ accepted (encode (.rsvd 3 24 [] 0)) = some (.stapa 3 [] 0) := by decide

theorem test_wf_snal : (Instr.snal 3 30 [] 0).wf = false ∧ accepted (encode (.snal 3 30 [] 0)) = some (.rsvd 3 30 [] 0) := by
  decide

theorem test_wf_snalpkt : rejected (encode (.snalpkt [])) = some .illFormed := by decide

theorem test_wf_fuapkt : rejected (encode (.fuapkt [])) = some .illFormed := by decide

/-! ### Decoding: bytes written out from the tables of spec/30_encoding.md -/

/-- R79: the six selectors. -/
theorem test_decode_commands :
    accepted ⟨.cmd, [0b00000000#8], Operands.zero⟩ = some (.init 0 0 0 0) ∧
      accepted ⟨.cmd, [0b00000001#8], Operands.zero⟩ = some (.deser []) ∧
      accepted ⟨.cmd, [0b00000010#8], Operands.zero⟩ = some (.serhdr Pkt.zero 0) ∧
      accepted ⟨.cmd, [0b00000011#8], Operands.zero⟩ = some (.ser Pkt.zero 0) ∧
      accepted ⟨.cmd, [0b00010000#8], Operands.zero⟩ = some (.hpack [] 0) ∧
      accepted ⟨.cmd, [0b00010001#8], Operands.zero⟩ = some (.hunpack []) := by decide

/-- R79, I18: a byte between two selectors. -/
theorem test_decode_unassigned : rejected ⟨.cmd, [0x12#8], Operands.zero⟩ = some (.noSuchCommand 0x12#8) := by decide

/-- R67, R68: `REF` is bits 7:5, `TYPE` bits 4:0; F (bit 7) takes no part. -/
theorem test_decode_nal :
    accepted ⟨.nalhdr, [0b11100000#8, 9#8], Operands.zero⟩ = some (.rsvd 7 0 [9#8] 0) ∧
      accepted ⟨.nalhdr, [0b01100101#8, 9#8], Operands.zero⟩ = some (.snal 3 5 [9#8] 0) ∧
      accepted ⟨.nalhdr, [0b01111000#8], Operands.zero⟩ = some (.stapa 3 [] 0) ∧
      accepted ⟨.nalhdr, [0b00111001#8], Operands.zero⟩ = some (.stapb 1 [] 0) ∧
      accepted ⟨.nalhdr, [0b01011010#8], Operands.zero⟩ = some (.mtap16 2 [] 0) ∧
      accepted ⟨.nalhdr, [0b10011011#8], Operands.zero⟩ = some (.mtap24 4 [] 0) ∧
      accepted ⟨.nalhdr, [0b01111100#8], Operands.zero⟩ = some (.fua 3 [] 0) ∧
      accepted ⟨.nalhdr, [0b11111101#8], Operands.zero⟩ = some (.fub 7 [] 0) := by decide

/-- R71: `S` is bit 7, `E` bit 6, `R` bit 5, `OTYPE` bits 4:0. -/
theorem test_decode_fu :
    accepted ⟨.fuhdr, [0b00000101#8, 1#8], Operands.zero⟩ = some (.fuMid 0 false 5 [1#8] 0) ∧
      accepted ⟨.fuhdr, [0b01000101#8], Operands.zero⟩ = some (.fuEnd 0 false 5 [] 0) ∧
      accepted ⟨.fuhdr, [0b10111111#8], Operands.zero⟩ = some (.fuStart 0 true 31 [] 0) ∧
      accepted ⟨.fuhdr, [0b11000001#8], Operands.zero⟩ = some (.fuStartEnd 0 false 1 [] 0) := by decide

/-- R61: byte 0 = 10 P X CC, byte 1 = M PT, then SEQ, TS, SSRC. -/
theorem test_decode_rtpfix :
    accepted ⟨.rtpfix, [0b10100011#8, 0b11100001#8, 1#8, 2#8, 3#8, 4#8, 5#8, 6#8, 7#8, 8#8, 9#8, 10#8, 11#8], Operands.zero⟩ =
      some (.rtpfix true false 3 true 97 0x0102 0x03040506 0x0708090A [11#8]) := by decide

theorem test_decode_rtpfix_version : decodeTableWord 96 0x40600064000003E812345678 = none := by decide

theorem test_decode_emission :
    accepted ⟨.snalpkt, [0x65#8], Operands.zero⟩ = some (.snalpkt [0x65#8]) ∧
      accepted ⟨.fuapkt, [0x65#8], Operands.zero⟩ = some (.fuapkt [0x65#8]) := by decide

/-- The very next step runs the placed word: HUNPACK of an empty buffer is too short for a header. -/
theorem test_step_runs_word :
    nextHas (step (State.reset.withFetchWord 8 0x11)) (fun t => t.status == .headerTooShort && t.script == []) = true := by
  decide

/-! ### One step each: the Wire Codec -/

/-- Vector D3. -/
theorem test_deser_extension :
    nextHas (exec (.deser packetD3) State.powerOn) (fun t => t.status == .ok && t.resPkt == some recordS1) = true := by decide

/-- Vector D4: padding. -/
theorem test_deser_padding :
    nextHas (exec (.deser (bytes [0xA0, 0x00, 0x00, 0x01, 0x00, 0x00, 0x00, 0x02, 0x00, 0x00, 0x00, 0x03, 0x01, 0x02, 0x00, 0x00, 0x03])) State.powerOn)
      (fun t => t.resPkt.map (fun k => (k.p, k.pay)) == some (true, bytes [1, 2])) = true := by decide

/-- Vector S4; and R98 (3): with `X = 0` the bytes of S1 without its extension, byte 0 without the flag. -/
theorem test_serhdr_exact :
    nextHas (exec (.serhdr recordS1 32) State.powerOn) (fun t => t.count == 32 && t.resOut == packetD3.take 32) = true ∧
      nextHas (exec (.serhdr { recordS1 with x := false, extLen := 0 } 20) State.powerOn)
        (fun t => t.count == 20 && t.resOut == 0x82#8 :: (packetD3.take 20).drop 1) = true := by decide

/-- Vector S5. -/
theorem test_serhdr_small :
    nextHas (exec (.serhdr recordS1 31) State.powerOn) (fun t => t.status == .bufferTooSmall && t.count == 0) = true := by decide

/-- Vector S1. -/
theorem test_ser_exact :
    nextHas (exec (.ser recordS1 35) State.powerOn) (fun t => t.count == 35 && t.resOut == packetD3) = true := by decide

/-- Vector S8: the padding flag is written, padding is not. -/
theorem test_ser_padding_flag :
    nextHas (exec (.ser ⟨2, true, false, 0, false, 0, 1, 2, 3, [], 0, 0, [], bytes [1, 2]⟩ 14) State.powerOn)
      (fun t => t.resOut == bytes [0xA0, 0x00, 0x00, 0x01, 0x00, 0x00, 0x00, 0x02, 0x00, 0x00, 0x00, 0x03, 0x01, 0x02]) = true := by decide

/-- Vector D1, read as the row RTPFIX of 30_encoding.md R61. -/
theorem test_rtpfix :
    nextHas (exec (.rtpfix false false 0 false 96 100 1000 0x12345678 []) State.powerOn)
      (fun t => t.resPkt == some ⟨2, false, false, 0, false, 96, 100, 1000, 0x12345678, [], 0, 0, [], []⟩) = true := by decide

/-! ### One step each: INIT and the packetizer -/

/-- Part 2.7. -/
theorem test_init :
    nextHas (exec (.init 96 65534 0x11223344 24) State.powerOn)
      (fun t => t.session && t.tplPt == 96 && t.txSeq == 65534 && t.maxPkt == 24 && t.status == .ok) = true := by decide

/-- Part 2.7: 14 is refused and creates no session. -/
theorem test_init_small :
    nextHas (exec (.init 96 0 1 14) State.powerOn) (fun t => !t.session && t.status == .invalidConfig) = true := by decide

/-- Vector F2 (with the SSRC and sequence number of part 2.7): two fragments, the number wraps between them. -/
theorem test_hpack :
    nextHas (exec (.hpack inputF2 1) (sender 65535 20))
      (fun t => t.txSeq == 1 && sentPackets t.trace ==
        [bytes [0x80, 0x60, 0xFF, 0xFF, 0x00, 0x00, 0x00, 0x01, 0x11, 0x22, 0x33, 0x44, 0x5C, 0x81, 0x01, 0x02, 0x03, 0x04, 0x05, 0x06],
          bytes [0x80, 0xE0, 0x00, 0x00, 0x00, 0x00, 0x00, 0x01, 0x11, 0x22, 0x33, 0x44, 0x5C, 0x41, 0x07, 0x08]]) = true := by decide

/-- Vector N2: 4-byte start codes, trailing zeros stripped. -/
theorem test_nalscan :
    nalSpans (bytes [0x00, 0x00, 0x00, 0x01, 0x67, 0x42, 0x00, 0x00, 0x00, 0x00, 0x01, 0x68, 0xCE, 0x00, 0x00]) = [(4, 6), (11, 13)] := by decide

/-- Part 2.4: type 5 sets the marker. -/
theorem test_snalpkt_marker :
    nextHas (exec (.snalpkt (bytes [0x05, 0xAA])) (sender 2 1400))
      (fun t => (sentPackets t.trace).map (fun p => byteAt p 1) == [0xE0#8]) = true := by decide

/-- Part 2.4: type 6 does not. -/
theorem test_snalpkt_no_marker :
    nextHas (exec (.snalpkt (bytes [0x06, 0xAA])) (sender 3 1400))
      (fun t => (sentPackets t.trace).map (fun p => byteAt p 1) == [0x60#8] && t.txSeq == 4) = true := by decide

/-- Part 2.5, `MAXPKT = 15`: three fragments of one byte. -/
theorem test_fuapkt :
    nextHas (exec (.fuapkt (bytes [0x41, 1, 2, 3])) (sender 0 15))
      (fun t => (sentPackets t.trace).map (List.drop 12) ==
        [bytes [0x5C, 0x81, 1], bytes [0x5C, 0x01, 2], bytes [0x5C, 0x41, 3]]) = true := by decide

/-- As P6: a denied allocation ends the command, with its event and no sequence number. -/
theorem test_fuapkt_denied :
    nextHas (exec (.fuapkt (bytes [0x41, 1, 2, 3])) { sender 7 15 with answers := [true, false] })
      (fun t => t.status == .allocFailed && t.txSeq == 8 && t.trace.getLast? == some (.alloc 15 false)) = true := by decide

/-! ### One step each: the depacketizer -/

/-- Vector U10: a good entry before a bad one is not delivered. -/
theorem test_hunpack_two_passes :
    nextHas (exec (.hunpack (packet [0x78, 0x00, 0x02, 0x67, 0x42, 0x00, 0x09, 0x68])) State.reset)
      (fun t => t.status == .packetLost && t.loss && t.trace == [] && t.rxLastSeq == 10) = true := by decide

/-- Sequence check of part 2.6: a duplicate is a gap, and the unit carries the flag. -/
theorem test_hunpack_duplicate :
    nextHas (exec (.hunpack (packet [0x41, 0x01])) { State.reset with rxSeen := true, rxLastSeq := 10 })
      (fun t => t.trace == [.deliverUnit (bytes [0x41, 1]) 2 77 1] && !t.loss) = true := by decide

/-- Vector U3: bit 7 and the reference bits take no part. -/
theorem test_rsvd :
    nextHas (exec (.rsvd 3 30 (bytes [0x11]) 77) receiver) (fun t => t.status == .discarded && t.acc == receiver.acc) = true := by
  decide

/-- Corner case 2 of part 2.6: a single NAL unit during a reassembly. -/
theorem test_snal :
    nextHas (exec (.snal 0 9 (bytes [0x10]) 102) receiver)
      (fun t => t.trace == [.deliverUnit (bytes [0x09, 0x10]) 2 102 0] && t.acc == bytes [0x65, 1, 2]) = true := by decide

/-- Vector U5: no entries. -/
theorem test_stapa_empty :
    nextHas (exec (.stapa 3 [] 77) State.reset) (fun t => t.status == .ok && t.trace == []) = true := by decide

/-- Vector U8: one byte is left over. -/
theorem test_stapa_trailing :
    nextHas (exec (.stapa 3 (bytes [0x00, 0x01, 0x67, 0x00]) 77) State.reset)
      (fun t => t.status == .packetLost && t.trace == []) = true := by decide

/-- Vector U12. -/
theorem test_stapb :
    nextHas (exec (.stapb 3 (bytes [0x12, 0x34, 0x00, 0x02, 0x67, 0x42, 0x00, 0x01, 0x68]) 5) State.reset)
      (fun t => t.trace == [.deliverUnit (bytes [0x67, 0x42]) 2 5 0, .deliverUnit (bytes [0x68]) 1 5 0]) = true := by decide

/-- Vector U11: the DON is cut off. -/
theorem test_stapb_short :
    nextHas (exec (.stapb 3 (bytes [0x12]) 5) State.reset) (fun t => t.status == .packetLost && t.loss) = true := by decide

/-- Vector U13: the offset wraps the timestamp. -/
theorem test_mtap16 :
    nextHas (exec (.mtap16 3 (bytes [0x00, 0x10, 0x00, 0x03, 0x00, 0x00, 0x0A, 0x41, 0x01, 0x02, 0x00, 0x02, 0x01, 0xFF, 0xFF,
      0x06, 0x09]) 0xFFFFFFF0) State.reset)
      (fun t => t.trace == [.deliverUnit (bytes [0x41, 1, 2]) 3 4294967290 0, .deliverUnit (bytes [0x06, 0x09]) 2 65519 0]) =
      true := by decide

/-- Vector U16: a 24-bit offset. -/
theorem test_mtap24 :
    nextHas (exec (.mtap24 3 (bytes [0x00, 0x10, 0x00, 0x02, 0x00, 0x01, 0x00, 0x00, 0x41, 0xAA]) 5) State.reset)
      (fun t => t.trace == [.deliverUnit (bytes [0x41, 0xAA]) 2 65541 0]) = true := by decide

/-- Vector U17: S and E together. -/
theorem test_fua :
    nextHas (exec (.fua 3 (bytes [0xC5, 0x01, 0x02]) 77) State.reset)
      (fun t => t.trace == [.deliverUnit (bytes [0x65, 1, 2]) 3 77 0] && t.acc == []) = true := by decide

/-- Vector U23: a START that rebuilds type 24. -/
theorem test_fua_bad_type :
    nextHas (exec (.fua 3 (bytes [0x98, 0x01]) 77) receiver) (fun t => t.status == .packetLost && t.acc == [] && t.loss) = true := by
  decide

/-- Vector U18: the DON is skipped. -/
theorem test_fub :
    nextHas (exec (.fub 3 (bytes [0x85, 0x12, 0x34, 0x01, 0x02]) 77) State.reset)
      (fun t => t.acc == bytes [0x65, 1, 2] && t.trace == []) = true := by decide

/-- Corner case 3 of part 2.6. -/
theorem test_fu_mid :
    nextHas (exec (.fuMid 3 false 5 (bytes [3, 4]) 103) receiver) (fun t => t.acc == bytes [0x65, 1, 2, 3, 4]) = true := by decide

/-- The overflow of part 2.6: 3 + 2 > 4. -/
theorem test_fu_mid_overflow :
    nextHas (exec (.fuMid 3 false 5 (bytes [3, 4]) 9) { receiver with accCap := some 4 })
      (fun t => t.status == .accOverflow && t.loss && t.acc == []) = true := by decide

/-- Corner case 5 of part 2.6: the timestamp is the last fragment's. -/
theorem test_fu_end :
    nextHas (exec (.fuEnd 2 false 1 (bytes [0x66]) 105) { receiver with acc := bytes [0x41, 0x55] })
      (fun t => t.trace == [.deliverUnit (bytes [0x41, 0x55, 0x66]) 3 105 0] && t.acc == []) = true := by decide

/-- Corner case 4 of part 2.6: a new START drops the old bytes silently. -/
theorem test_fu_start :
    nextHas (exec (.fuStart 2 false 1 (bytes [0x55]) 104) receiver)
      (fun t => t.acc == bytes [0x41, 0x55] && !t.loss && t.trace == []) = true := by decide

/-- Corner case 6 of part 2.6. -/
theorem test_fu_start_end :
    nextHas (exec (.fuStartEnd 3 false 5 (bytes [0xAA]) 106) State.reset)
      (fun t => t.trace == [.deliverUnit (bytes [0x65, 0xAA]) 2 106 0] && t.acc == []) = true := by decide

/-! ### What the host reads (10_state.md R31, 60_exceptions.md R176) -/

theorem test_read_registers :
    (List.range 12).map (fun n => readReg n { receiver with status := .packetLost, count := 3, tplPt := 96, txSeq := 7, txTs := 8 }) =
      [some 6, some 3, some 96, some 0, some 7, some 15, some 8, some 1, some 1, some 0, some 3, none] := by decide

theorem test_status_codes :
    [Status.ok, .headerTooShort, .versionMismatch, .insufficientBytes, .payloadTooShort, .bufferTooSmall, .packetLost,
      .allocFailed, .discarded, .invalidConfig, .accOverflow].map statusCode = List.range 11 := by decide

/-! ### Witnesses: states and operands that meet the hypotheses of the obligations -/

/-- A state whose host gives HUNPACK of an empty buffer and then a byte that is no selector. -/
def scripted : State :=
  { State.reset with script := [⟨.cmd, [0x11#8], Operands.zero⟩, ⟨.cmd, [0x12#8], Operands.zero⟩] }

theorem witness_StepRunsDecodedCommand :
    (scripted.script = ⟨.cmd, [0x11#8], Operands.zero⟩ :: scripted.script.tail ∧
        decode ⟨.cmd, [0x11#8], Operands.zero⟩ = .ok (.hunpack [])) ∧
      ({ scripted with script := scripted.script.tail }.script = ⟨.cmd, [0x12#8], Operands.zero⟩ :: [] ∧
        decode ⟨.cmd, [0x12#8], Operands.zero⟩ = .error (.noSuchCommand 0x12#8)) ∧ State.reset.script = [] :=
  ⟨⟨rfl, rfl⟩, ⟨rfl, rfl⟩, rfl⟩

theorem witness_DecodeOfEncode :
    (Instr.ser recordS1 35).wf = true ∧ (Instr.snal 0 1 [] 0).wf = true ∧ (Instr.snal 7 23 [] 0).wf = true ∧
      (Instr.rsvd 0 0 [] 0).wf = true ∧ (Instr.rsvd 7 31 [] 0).wf = true ∧ (Instr.snalpkt [0#8]).wf = true := by decide

theorem witness_EncodeOfDecodeKeepsBytes :
    decode ⟨.fuhdr, [0xE5#8, 1#8], Operands.zero⟩ = .ok (.fuStartEnd 0 true 5 [1#8] 0) := rfl

theorem witness_UnassignedSelectorIsRefused :
    (0x04#8).toNat ∉ [0, 1, 2, 3, 16, 17] ∧ (0x0F#8).toNat ∉ [0, 1, 2, 3, 16, 17] ∧ (0x12#8).toNat ∉ [0, 1, 2, 3, 16, 17] ∧
      (0xFF#8).toNat ∉ [0, 1, 2, 3, 16, 17] ∧
      { scripted with script := scripted.script.tail }.script = ⟨.cmd, [0x12#8], Operands.zero⟩ :: [] := by decide

theorem witness_InitOpensSession : 15 ≤ 15 ∧ 15 ≤ 1400 := by decide

theorem witness_InitRefusesSmallPackets : 14 < 15 ∧ 0 < 15 := by decide

theorem witness_OnlyPureInstructionsBeforeInit :
    State.powerOn.session = false ∧ isPureOrInit (.deser []) = true ∧ isPureOrInit (.hpack [] 0) = false := by decide

/-- D3 (extension), D4 (padding), D6 (padding takes the whole payload), D1 (the smallest packet). -/
theorem witness_DeserReadsEveryField :
    deserAccepts packetD3 ∧
      deserAccepts (bytes [0xA0, 0x00, 0x00, 0x01, 0x00, 0x00, 0x00, 0x02, 0x00, 0x00, 0x00, 0x03, 0x01, 0x02, 0x00, 0x00, 0x03]) ∧
      deserAccepts (bytes [0xA0, 0x00, 0x00, 0x01, 0x00, 0x00, 0x00, 0x02, 0x00, 0x00, 0x00, 0x03, 0x09, 0x09, 0x03]) ∧
      deserAccepts (bytes [0x80, 0x60, 0x00, 0x64, 0x00, 0x00, 0x03, 0xE8, 0x12, 0x34, 0x56, 0x78]) := by
  unfold deserAccepts
  decide

/-- Each way to fail: E1, E2, E5, E7, E8, E10, E9 of part 2.1. -/
theorem witness_DeserChecksInOrder :
    deserStatus (bytes [0x80, 0x60, 0x00, 0x64, 0x00, 0x00, 0x03, 0xE8, 0x12, 0x34, 0x56]) = .headerTooShort ∧
      deserStatus (bytes [0x40, 0x60, 0x00, 0x64, 0x00, 0x00, 0x03, 0xE8, 0x12, 0x34, 0x56, 0x78]) = .versionMismatch ∧
      deserStatus (bytes [0x83, 0x60, 0x00, 0x64, 0x00, 0x00, 0x03, 0xE8, 0x12, 0x34, 0x56, 0x78, 0, 0, 0, 1, 0, 0, 0, 2]) =
        .insufficientBytes ∧
      deserStatus (bytes [0x90, 0x60, 0x00, 0x64, 0x00, 0x00, 0x03, 0xE8, 0x12, 0x34, 0x56, 0x78, 0xBE, 0xDE]) = .payloadTooShort ∧
      deserStatus (bytes [0x90, 0x60, 0x00, 0x64, 0x00, 0x00, 0x03, 0xE8, 0x12, 0x34, 0x56, 0x78, 0xBE, 0xDE, 0, 2, 1, 2, 3, 4]) =
        .payloadTooShort ∧
      deserStatus (bytes [0xA0, 0x60, 0x00, 0x64, 0x00, 0x00, 0x03, 0xE8, 0x12, 0x34, 0x56, 0x78]) = .insufficientBytes ∧
      deserStatus (bytes [0xA0, 0x60, 0x00, 0x64, 0x00, 0x00, 0x03, 0xE8, 0x12, 0x34, 0x56, 0x78, 1, 2, 5]) = .insufficientBytes := by
  decide

/-- DESER of D3 gives the record S1, by equation. -/
theorem deser_packetD3 (s : State) : exec (.deser packetD3) s = .next (decoded recordS1 s) := by
  have h : deser packetD3 = .ok recordS1 := rfl
  simp only [exec, execDeser, h]
  rfl

theorem witness_DeserLengthLaw :
    exec (.deser packetD3) State.powerOn = .next (decoded recordS1 State.powerOn) ∧
      (decoded recordS1 State.powerOn).resPkt = some recordS1 := ⟨deser_packetD3 _, rfl⟩

/-- A record with an extension; one without, whose extension fields hold something all the same (R98 (3)). -/
theorem witness_SerhdrWritesHeader :
    (recordS1.complete = true ∧ recordS1.v = 2 ∧ headerLength recordS1 = 32) ∧
      let k := { recordS1 with x := false, extLen := 0 }
      k.complete = true ∧ k.v = 2 ∧ k.ext ≠ [] ∧ headerLength k = 20 := by decide

theorem witness_SerWritesPacket :
    recordS1.complete = true ∧ recordS1.v = 2 ∧ headerLength recordS1 + recordS1.pay.length = 35 := by decide

theorem witness_SerializersRefuse :
    { recordS1 with v := 1 }.v ≠ 2 ∧ recordS1.v = 2 ∧ 31 < headerLength recordS1 ∧
      34 < headerLength recordS1 + recordS1.pay.length := by decide

/-- A record with an extension and one without, and a packet with padding (D4). -/
theorem witness_HeaderRoundTrip :
    (recordS1.wf = true ∧ recordS1.v = 2 ∧ recordS1.p = false ∧ (recordS1.x = false → recordS1.extLen = 0 ∧ recordS1.extRsvd = 0) ∧
      headerLength recordS1 + recordS1.pay.length ≤ 35) ∧
      (let k : Pkt := ⟨2, false, false, 0, true, 96, 1, 2, 3, [], 0, 0, [], [0x65#8]⟩
      k.wf = true ∧ k.v = 2 ∧ k.p = false ∧ (k.x = false → k.extLen = 0 ∧ k.extRsvd = 0) ∧ headerLength k + k.pay.length ≤ 13) ∧
      ∃ t k, exec (.deser (bytes [0xA0, 0, 0, 1, 0, 0, 0, 2, 0, 0, 0, 3, 1, 2, 0, 0, 3])) State.reset = .next t ∧
        t.resPkt = some k ∧ k.p = true ∧ headerLength k + k.pay.length ≤ 14 :=
  ⟨by decide, by decide, _, ⟨2, true, false, 0, false, 0, 1, 2, 3, [], 0, 0, [], bytes [1, 2]⟩, rfl, rfl, by decide⟩

theorem witness_FixedHeaderIsRead :
    deserAccepts (bytes ([0x80, 0x60] ++ [0, 100, 0, 0, 3, 0xE8, 0x12, 0x34, 0x56, 0x78])) ∧
      deserAccepts (bytes ([0x91, 0xE0] ++ [0, 100, 0, 0, 3, 0xE8, 0x12, 0x34, 0x56, 0x78, 0, 0, 0, 7, 0, 0, 0, 0])) ∧
      ¬deserAccepts (bytes ([0x81, 0x60] ++ [0, 100, 0, 0, 3, 0xE8, 0x12, 0x34, 0x56, 0x78])) := by
  unfold deserAccepts
  decide

/-- Each width at the end of its buffer. -/
theorem witness_FieldsAreBigEndian :
    let b := bytes [1, 2, 3, 4]
    3 + 1 ≤ b.length ∧ 2 + 2 ≤ b.length ∧ 1 + 3 ≤ b.length ∧ 0 + 4 ≤ b.length := by decide

/-- DESER of D3, with two CSRC words; SERHDR and SER of its record at their least capacity; and a record without CSRC words. -/
theorem witness_CsrcListLayout :
    exec (.deser packetD3) State.powerOn = .next (decoded recordS1 State.powerOn) ∧
      (recordS1.complete = true ∧ recordS1.v = 2 ∧ headerLength recordS1 = 32 ∧ headerLength recordS1 + recordS1.pay.length = 35) ∧
      { recordS1 with cc := 0 }.complete = true := ⟨deser_packetD3 _, by decide, by decide⟩

theorem witness_WireCodecIsPure :
    ∃ t t', exec (.ser recordS1 35) State.reset = .next t ∧ exec (.ser recordS1 35) receiver = .next t' := ⟨_, _, rfl, rfl⟩

theorem witness_NalScanFindsUnits :
    (3, 5) ∈ nalSpans (bytes [0, 0, 1, 0x67, 0x42, 0, 0, 1, 0x68]) ∧ (3, 3) ∈ nalSpans (bytes [0, 0, 1]) ∧
      startCodeAt (bytes [0, 0, 1]) 0 := by
  unfold startCodeAt
  decide

/-- A NAL unit with zero bytes inside is safe in a stream. -/
theorem safe_unit : streamSafe [0x65#8, 0x00#8, 0x00#8, 0x02#8] := by
  refine ⟨by decide, by decide, fun i => ?_⟩
  rintro ⟨h, h0, -, h2⟩
  have : ∀ j, j < 4 → byteAt [0x65#8, 0x00#8, 0x00#8, 0x02#8] (j + 2) ≠ 0x01#8 := by decide
  exact this i (by simp at h; omega) h2

theorem witness_AnnexBStreamIsSplit : ∀ nal ∈ [[0x65#8, 0x00#8, 0x00#8, 0x02#8], [0x65#8, 0x00#8, 0x00#8, 0x02#8]], streamSafe nal := by
  simpa using safe_unit

/-- `MAXPKT` at its least value, three fragments, the answers of exactly these. -/
theorem witness_HpackSendsStream :
    let s := { sender 0 15 with answers := [true, true, true, false] }
    s.session = true ∧ 15 ≤ s.maxPkt ∧
      s.answers = List.replicate (streamPackets s.maxPkt (bytes [0, 0, 1, 0x41, 1, 2, 3])).length true ++ [false] := by decide

/-- A denial as the second of three answers. -/
theorem witness_HpackStopsAtDenial :
    let s := { sender 0 15 with answers := [true, false] }
    s.session = true ∧ 15 ≤ s.maxPkt ∧ s.answers = List.replicate 1 true ++ false :: [] ∧
      1 < (streamPackets s.maxPkt (bytes [0, 0, 1, 0x41, 1, 2, 3])).length := by decide

theorem witness_HpackNumbersPackets : ∃ t, exec (.hpack inputF2 1) (sender 65535 20) = .next t := ⟨_, rfl⟩

/-- A NAL unit that fits exactly. -/
theorem witness_SingleNalPacket :
    (sender 0 16).session = true ∧ 1 ≤ (bytes [0x67, 0x42, 0x00, 0x1E]).length ∧
      12 + (bytes [0x67, 0x42, 0x00, 0x1E]).length = (sender 0 16).maxPkt ∧
      (sender 0 16).answers = true :: List.replicate 7 true := by decide

/-- A NAL unit one byte too long for the least `MAXPKT`. -/
theorem witness_FragmentsAreSent :
    (sender 0 15).session = true ∧ 15 ≤ (sender 0 15).maxPkt ∧ (sender 0 15).maxPkt + 1 = 12 + (bytes [0x41, 1, 2, 3]).length ∧
      (sender 0 15).answers = List.replicate (fragments (sender 0 15).maxPkt (bytes [0x41, 1, 2, 3])).length true ++ List.replicate 5 true := by
  decide

theorem witness_EmissionModesStopAtDenial :
    (sender 0 15).session = true ∧ 1 ≤ (bytes [0x41, 1, 2]).length ∧ 12 + (bytes [0x41, 1, 2]).length ≤ (sender 0 15).maxPkt ∧
      15 ≤ (sender 0 15).maxPkt ∧ (sender 0 15).maxPkt < 12 + (bytes [0x41, 1, 2, 3]).length := by decide

theorem witness_EmissionModesExclude :
    (sender 0 15).session = true ∧ 12 + (bytes [0x41, 1, 2]).length = (sender 0 15).maxPkt ∧
      (sender 0 15).maxPkt < 12 + (bytes [0x41, 1, 2, 3]).length := by decide

theorem witness_FragmentLaws :
    15 ≤ 15 ∧ 15 < 12 + (bytes [0x41, 1, 2, 3]).length ∧
      (fragments 15 (bytes [0x41, 1, 2, 3]))[2]? = some (true, bytes [0x5C, 0x41, 3]) := by decide

theorem witness_PacketizerIgnoresDepacketizer :
    SameTx (sender 0 24) { sender 0 24 with acc := [0x65#8], loss := true } ∧
      SameOracle (sender 0 24) { sender 0 24 with acc := [0x65#8], loss := true } ∧
      ∃ t, exec (.hpack inputF2 1) (sender 0 24) = .next t := by
  exact ⟨⟨rfl, rfl, rfl, rfl, rfl, rfl⟩, ⟨rfl, rfl⟩, _, rfl⟩

/-- The record that DESER reads from `packet pay`. -/
def packetRecord (pay : List Nat) : Pkt := ⟨2, false, false, 0, false, 96, 10, 77, 0x11223344, [], 0, 0, [], bytes pay⟩

theorem deser_packet (pay : List Nat) (s : State) (h : deser (packet pay) = .ok (packetRecord pay)) :
    exec (.deser (packet pay)) s = .next (decoded (packetRecord pay) s) := by
  simp only [exec, execDeser, h]
  rfl

/-- The three clauses: a packet that DESER rejects, one without payload (U19), one with a payload (U17). -/
theorem witness_HunpackSteps :
    State.reset.session = true ∧ deserStatus [] ≠ .ok ∧
      (exec (.deser (packet [])) State.reset = .next (decoded (packetRecord []) State.reset) ∧ (packetRecord []).pay = []) ∧
      (exec (.deser (packet [0x7C, 0xC5, 1, 2])) State.reset = .next (decoded (packetRecord [0x7C, 0xC5, 1, 2]) State.reset) ∧
        (packetRecord [0x7C, 0xC5, 1, 2]).pay = 0x7C#8 :: bytes [0xC5, 1, 2] ∧
        decode ⟨.nalhdr, 0x7C#8 :: bytes [0xC5, 1, 2], { Operands.zero with ts := 77 }⟩ = .ok (.fua 3 (bytes [0xC5, 1, 2]) 77)) :=
  ⟨rfl, by decide, ⟨deser_packet _ _ rfl, rfl⟩, deser_packet _ _ rfl, rfl, rfl⟩

/-- Single NAL unit packets of types 1 and 23, and an FU-A packet. -/
theorem witness_HunpackCompletes :
    State.reset.session = true ∧
      (deserAccepts (packet [0x61, 5]) ∧ payloadOf (packet [0x61, 5]) = bytes [0x61, 5] ∧ (byteAt (bytes [0x61, 5]) 0).toNat % 32 = 1) ∧
      (deserAccepts (packet [0x77]) ∧ payloadOf (packet [0x77]) = bytes [0x77] ∧ (byteAt (bytes [0x77]) 0).toNat % 32 = 23) ∧
      deserAccepts (packet [0x7C, 0x85, 1]) ∧ payloadOf (packet [0x7C, 0x85, 1]) ≠ [] := by
  unfold deserAccepts
  decide

/-- First packet; number 10 after 9; number 10 after 10 (a duplicate). Types 0 and 31. -/
theorem witness_SequenceCheckSteps :
    State.reset.session = true ∧
      (exec (.deser (packet [0x1F, 7])) receiver = .next (decoded (packetRecord [0x1F, 7]) receiver) ∧
        (packetRecord [0x1F, 7]).pay = 0x1F#8 :: [7#8] ∧ (0x1F#8).toNat % 32 = 31 ∧ (0xE0#8).toNat % 32 = 0) ∧
      State.reset.rxSeen = false ∧ receiver.rxSeen = true ∧ (packetRecord [0x1F, 7]).seq.toNat = (9 + 1) % 65536 ∧
      (packetRecord [0x1F, 7]).seq.toNat ≠ (10 + 1) % 65536 ∧ (0 : BitVec 16).toNat = (65535 + 1) % 65536 :=
  ⟨rfl, ⟨deser_packet _ _ rfl, rfl, rfl, rfl⟩, rfl, rfl, rfl, by decide, rfl⟩

/-- Types 1 and 23. -/
theorem witness_HunpackDeliversSingleNal :
    State.reset.session = true ∧
      (exec (.deser (packet [0x61])) State.reset = .next (decoded (packetRecord [0x61]) State.reset) ∧
        (packetRecord [0x61]).pay = 0x61#8 :: [] ∧ (0x61#8).toNat % 32 = 1) ∧
      (exec (.deser (packet [0x77])) State.reset = .next (decoded (packetRecord [0x77]) State.reset) ∧
        (packetRecord [0x77]).pay = 0x77#8 :: [] ∧ (0x77#8).toNat % 32 = 23) :=
  ⟨rfl, ⟨deser_packet _ _ rfl, rfl, rfl⟩, deser_packet _ _ rfl, rfl, rfl⟩

theorem witness_ReservedTypesAreDiscarded :
    State.reset.session = true ∧ (0 : BitVec 5).toNat ∈ [0, 30, 31] ∧ (30 : BitVec 5).toNat ∈ [0, 30, 31] ∧
      (31 : BitVec 5).toNat ∈ [0, 30, 31] := by decide

theorem witness_SingleNalIsDelivered :
    State.reset.session = true ∧ (1 ≤ (1 : BitVec 5).toNat ∧ (1 : BitVec 5).toNat ≤ 23) ∧
      1 ≤ (23 : BitVec 5).toNat ∧ (23 : BitVec 5).toNat ≤ 23 := by decide

/-- Units of the least size, of types 1 and 23. -/
theorem witness_StapDeliversUnits : State.reset.session = true ∧ ∀ u ∈ [[0x01#8], [0x77#8, 0#8]], unitFits u := by
  unfold unitFits
  decide

/-- Offsets at the top of their range. -/
theorem witness_MtapDeliversUnits :
    State.reset.session = true ∧ (∀ e ∈ [([0x01#8], 0xFF#8, 65535)], unitFits e.1 ∧ e.2.2 < 65536) ∧
      ∀ e ∈ [([0x77#8], 0#8, 16777215)], unitFits e.1 ∧ e.2.2 < 16777216 := by
  unfold unitFits
  decide

/-- One byte is no sequence of entries; no byte is no DON. -/
theorem witness_MalformedAggregationIsLost :
    State.reset.session = true ∧ (¬∃ us : List Buffer, (∀ u ∈ us, unitFits u) ∧ [0#8] = us.flatMap stapEntry) ∧
      (¬∃ (d0 d1 : Byte) (us : List Buffer), (∀ u ∈ us, unitFits u) ∧ [] = d0 :: d1 :: us.flatMap stapEntry) ∧
      (¬∃ (d0 d1 : Byte) (es : List (Buffer × Byte × Nat)),
        (∀ e ∈ es, unitFits e.1 ∧ e.2.2 < 65536) ∧ [0#8] = d0 :: d1 :: es.flatMap (mtapEntry 2)) ∧
      ¬∃ (d0 d1 : Byte) (es : List (Buffer × Byte × Nat)),
        (∀ e ∈ es, unitFits e.1 ∧ e.2.2 < 16777216) ∧ [0#8] = d0 :: d1 :: es.flatMap (mtapEntry 3) := by
  refine ⟨rfl, ?_, by simp, by simp, by simp⟩
  rintro ⟨us, -, h⟩
  cases us with
  | nil => simp at h
  | cons u us =>
    have := congrArg List.length h
    simp [stapEntry] at this
    omega

/-- A START that fills the capacity exactly, and a continuation that does. -/
theorem witness_FragmentsReassemble :
    receiver.session = true ∧ fragmentFits true 1 (bytes [1, 2]) { receiver with accCap := some 3 } ∧
      fragmentFits true 23 [] receiver ∧ fragmentFits false 0 (bytes [3]) { receiver with accCap := some 4 } := by
  refine ⟨rfl, ⟨by decide, by decide, ?_⟩, ⟨by decide, by decide, ?_⟩, ⟨by decide, by decide, ?_⟩⟩
  · rintro c h
    cases h
    decide
  · rintro c h
    cases h
  · rintro c h
    cases h
    decide

/-- The short FU-B; types 0 and 24 at a START; no reassembly at a continuation. -/
theorem witness_BadFragmentsAreLost :
    State.reset.session = true ∧ (bytes [0x85, 0x12]).length < 3 ∧ ¬(1 ≤ (0 : BitVec 5).toNat ∧ (0 : BitVec 5).toNat ≤ 23) ∧
      ¬(1 ≤ (24 : BitVec 5).toNat ∧ (24 : BitVec 5).toNat ≤ 23) ∧ State.reset.acc = [] := by decide

/-- One byte over the capacity, at a START and at a continuation; a step with unbounded capacity. -/
theorem witness_OverflowNeedsCapacity :
    (receiver.session = true ∧ { receiver with accCap := some 3 }.accCap = some 3 ∧ 1 ≤ (1 : BitVec 5).toNat ∧
      (1 : BitVec 5).toNat ≤ 23 ∧ 3 < 1 + (bytes [1, 2, 3]).length ∧ receiver.acc ≠ [] ∧
      3 < receiver.acc.length + (bytes [3]).length) ∧
      receiver.accCap = none ∧ ∃ t, exec (.fuMid 3 false 5 (bytes [3, 4]) 9) receiver = .next t :=
  ⟨by decide, rfl, _, rfl⟩

/-- FU-B at a START, FU-A at a continuation, and HUNPACK of the latter. -/
theorem witness_OverflowComesFromFragments :
    (∃ t, exec (.fub 3 (bytes [0x85, 9, 9, 1, 2, 3]) 9) { receiver with accCap := some 3 } = .next t ∧ t.status = .accOverflow) ∧
      (∃ t, exec (.fua 3 (bytes [0x05, 3, 4]) 9) { receiver with accCap := some 4 } = .next t ∧ t.status = .accOverflow) ∧
      ∃ t, exec (.hunpack (packet [0x7C, 0x05, 3, 4])) { receiver with rxLastSeq := 9, accCap := some 4 } = .next t ∧
        t.status = .accOverflow := ⟨⟨_, rfl, rfl⟩, ⟨_, rfl, rfl⟩, _, rfl, rfl⟩

theorem witness_DepacketizerIgnoresPacketizer :
    receiver.session = true ∧ { receiver with txSeq := 7, maxPkt := 0 }.session = true ∧
      { receiver with txSeq := 7, maxPkt := 0 }.accCap = receiver.accCap ∧ SameRx receiver { receiver with txSeq := 7, maxPkt := 0 } ∧
      ∃ t, exec (.hunpack (packet [0x7C, 0x45, 7])) receiver = .next t :=
  ⟨rfl, rfl, rfl, ⟨rfl, rfl, rfl, rfl⟩, _, rfl⟩

theorem witness_LossFlagIsSticky :
    { receiver with loss := true }.loss = true ∧ ∃ t, exec (.hunpack (packet [0x41, 1])) { receiver with loss := true } = .next t :=
  ⟨rfl, _, rfl⟩

/-- Vector U10; then the overflow of part 2.6. -/
theorem witness_LateFailureLeavesLoss :
    (∃ t, exec (.hunpack (packet [0x78, 0x00, 0x00])) State.reset = .next t ∧ t.status = .packetLost) ∧
      ∃ t, exec (.hunpack (packet [0x7C, 0x05, 3, 4])) { receiver with rxLastSeq := 9, accCap := some 4 } = .next t ∧
        t.status = .accOverflow := ⟨⟨_, rfl, rfl⟩, _, rfl, rfl⟩

/-- Two NAL units, one of which goes as two fragments. -/
theorem witness_StreamRoundTrip :
    let nals := [[0x65#8, 0x00#8, 0x00#8, 0x02#8], [0x65#8, 0x00#8, 0x00#8, 0x02#8]]
    (sender 0 15).session = true ∧ 15 ≤ (sender 0 15).maxPkt ∧ (sender 0 15).trace = [] ∧
      (∀ nal ∈ nals, streamSafe nal ∧ 1 ≤ (byteAt nal 0).toNat % 32 ∧ (byteAt nal 0).toNat % 32 ≤ 23) ∧
      (∃ t, exec (.hpack (annexB nals) 9) (sender 0 15) = .next t ∧ t.status = .ok) ∧
      State.reset.session = true ∧ State.reset.accCap = none ∧ State.reset.rxSeen = false ∧ State.reset.loss = false ∧
      State.reset.acc = [] :=
  ⟨rfl, by decide, rfl, by simpa using safe_unit, ⟨_, rfl, rfl⟩, rfl, rfl, rfl, rfl, rfl⟩

/-- The third packet of P3, in the form of part 2.6: sequence number 10 after 1. -/
theorem witness_GapDiscardsReassembly :
    receiver.session = true ∧ receiver.rxSeen = true ∧
      exec (.deser (packet [0x7C, 0x45, 7, 8])) receiver = .next (decoded (packetRecord [0x7C, 0x45, 7, 8]) receiver) ∧
      (packetRecord [0x7C, 0x45, 7, 8]).seq ≠ receiver.rxLastSeq + 1 ∧
      (packetRecord [0x7C, 0x45, 7, 8]).pay =
        BitVec.ofNat 8 ((3 : BitVec 3).toNat * 32 + 28) :: BitVec.ofNat 8 (64 + (5 : BitVec 5).toNat) :: bytes [7, 8] :=
  ⟨rfl, rfl, deser_packet _ _ rfl, by decide, rfl⟩

/-- INIT and another instruction answer a next state. -/
theorem witness_TraceOnlyGrows :
    (∃ t, exec (.init 96 0 1 15) receiver = .next t) ∧ ∃ t, exec (.snal 0 9 [] 1) receiver = .next t := ⟨⟨_, rfl⟩, _, rfl⟩

/-- A granted exchange, a denied one, and an INIT. -/
theorem witness_GrantsAreFreed :
    (∃ t, exec (.snalpkt (bytes [0x65, 1])) (sender 0 20) = .next t ∧ t.trace.length = 3) ∧
      (∃ t, exec (.snalpkt (bytes [0x65, 1])) { sender 0 20 with answers := [false] } = .next t ∧ t.trace = [.alloc 14 false]) ∧
      ∃ t, exec (.init 96 0 1 15) receiver = .next t := ⟨⟨_, rfl, rfl⟩, ⟨_, rfl, rfl⟩, _, rfl⟩

/-- A SERHDR that writes, and one that fails. -/
theorem witness_ErrorsRecordOnlyTheirCode :
    (∃ t, exec (.serhdr recordS1 32) State.reset = .next t ∧ t.count ≠ 0) ∧
      ∃ t, exec (.serhdr recordS1 31) State.reset = .next t ∧ t.status ≠ .ok :=
  ⟨⟨_, rfl, by decide⟩, _, rfl, by decide⟩

theorem witness_OnlyInitConfigures :
    (∃ t, exec (.hunpack (packet [0x41])) receiver = .next t) ∧
      ¬∃ pt q r n, Instr.hunpack (packet [0x41]) = .init pt q r n := ⟨⟨_, rfl⟩, by simp⟩

theorem witness_EarlyErrorsChangeNothing :
    ∃ t, exec (.init 96 0 1 14) receiver = .next t ∧
      t.status ∈ [Status.headerTooShort, .versionMismatch, .insufficientBytes, .payloadTooShort, .bufferTooSmall, .invalidConfig] :=
  ⟨_, rfl, by decide⟩

/-- The invariant holds with a reassembly in progress, a trace and a host's script. -/
theorem inv_scripted : Inv { receiver with script := scripted.script, trace := [.alloc 16 false], maxPkt := 24 } :=
  ⟨by decide, by decide, by decide, by decide⟩

theorem witness_StepKeepsInvariant :
    Inv { receiver with script := scripted.script, trace := [.alloc 16 false], maxPkt := 24 } ∧
      ∃ t, step { receiver with script := scripted.script, trace := [.alloc 16 false], maxPkt := 24 } = .next t :=
  ⟨inv_scripted, _, rfl⟩

theorem witness_StepKeepsHostInvariant :
    HostInv { receiver with script := scripted.script, trace := [.alloc 16 false], maxPkt := 24 } :=
  ⟨inv_scripted, by decide, by decide⟩

theorem witness_NoStepFaults :
    HostInv { scripted with script := scripted.script.tail } ∧ { scripted with script := scripted.script.tail }.session = true ∧
      step { scripted with script := scripted.script.tail } = .refused (.undecodable (.noSuchCommand 0x12#8)) :=
  ⟨⟨⟨by decide, by decide, by decide, by decide⟩, by decide, by decide⟩, rfl, rfl⟩

end Sys2Proof.Tests
end

namespace Sys2Proof.Machine

/-! Scope (spec/00_scope.md): how a step runs the host's next command, how the numbers in a buffer are laid out, and the
machine's invariant. -/

variable {s t : State}

/-! ### A step runs the host's next command -/

theorem step_of_decode_ok {r : Request} {rest : List Request} {i : Instr} (hs : s.script = r :: rest) (hd : decode r = .ok i) :
    step s = exec i { s with script := rest } := by
  simp [step, nextCommand, hs, hd]

theorem step_of_decode_error {r : Request} {rest : List Request} {e : Reject} (hs : s.script = r :: rest)
    (hd : decode r = .error e) : step s = .refused (.undecodable e) := by
  simp [step, nextCommand, hs, hd]

theorem step_of_script_nil (hs : s.script = []) : step s = .next s := by
  simp [step, nextCommand, hs]

/-- Settles O1. -/
theorem stepRunsDecodedCommand : Obligations.StepRunsDecodedCommand :=
  ⟨fun _ _ _ hs => ⟨fun _ hd => step_of_decode_ok hs hd, fun _ hd => step_of_decode_error hs hd⟩,
    fun _ hs => step_of_script_nil hs⟩

/-! ### Numbers in a buffer -/

/-- The first byte of a field is the most significant one. -/
theorem memRead_succ {b : Buffer} {o n : Nat} (h : o + (n + 1) ≤ b.length) :
    memRead b o (n + 1) = (byteAt b o).toNat * 256 ^ n + memRead b (o + 1) n := by
  have ho : o < b.length := by omega
  have hn : n ≤ b.length - (o + 1) := by omega
  have hb : byteAt b o = b[o] := by simp [byteAt, ho]
  rw [memRead, List.drop_eq_getElem_cons ho, List.take_succ_cons, beNat_cons, hb]
  simp [memRead, hn]

theorem memRead_two {b : Buffer} {o : Nat} (h : o + 2 ≤ b.length) :
    memRead b o 2 = (byteAt b o).toNat * 256 + (byteAt b (o + 1)).toNat := by
  rw [memRead_succ h, memRead_one b _ (by omega), pow_one]

theorem memRead_three {b : Buffer} {o : Nat} (h : o + 3 ≤ b.length) :
    memRead b o 3 = (byteAt b o).toNat * 65536 + (byteAt b (o + 1)).toNat * 256 + (byteAt b (o + 2)).toNat := by
  rw [memRead_succ h, memRead_two (by omega)]
  simp only [Nat.add_assoc, Nat.reduceAdd]
  omega

theorem memRead_four {b : Buffer} {o : Nat} (h : o + 4 ≤ b.length) :
    memRead b o 4 = (byteAt b o).toNat * 16777216 + (byteAt b (o + 1)).toNat * 65536 + (byteAt b (o + 2)).toNat * 256 +
      (byteAt b (o + 3)).toNat := by
  rw [memRead_succ h, memRead_three (by omega)]
  simp only [Nat.add_assoc, Nat.reduceAdd]
  omega

/-- Settles O56: a read peels its bytes off from the front, as a write puts them there. -/
theorem fieldsAreBigEndian : Obligations.FieldsAreBigEndian :=
  ⟨fun b o => ⟨memRead_one b o, memRead_two, memRead_three, memRead_four⟩, fun v => by simp [memWrite]⟩

/-! ### What the invariant depends on -/

/-- Inv speaks of the session, `MAXPKT`, `ACC`, its capacity and the trace only. -/
theorem inv_congr (h : Inv s) (hsession : t.session = s.session) (hmax : t.maxPkt = s.maxPkt) (hacc : t.acc = s.acc)
    (hcap : t.accCap = s.accCap) (htrace : t.trace = s.trace) : Inv t where
  maxPkt_legal ht := hmax ▸ h.maxPkt_legal (hsession ▸ ht)
  memory_wf := memoryWf_congr (hacc ▸ le_rfl) hcap h.memory_wf
  acc_header ht := hacc ▸ h.acc_header (hacc ▸ ht)
  trace_ok := hmax ▸ htrace ▸ h.trace_ok

theorem script_inv (rest : List Request) (h : Inv s) : Inv { s with script := rest } := inv_congr h rfl rfl rfl rfl rfl

theorem conclude_inv (st : Status) (n : Nat) (k : Option Pkt) (out : Buffer) (h : Inv s) : Inv (conclude st n k out s) :=
  inv_congr h rfl rfl rfl rfl rfl

theorem raise_inv (st : Status) (h : Inv s) : Inv (raise st s) := conclude_inv st 0 none [] h

/-- Whole exchanges emitted at the end of the trace. -/
theorem emitEvents_inv {es : List Event} (hes : traceOk s.maxPkt es = true) (h : Inv s) : Inv (emitEvents es s) where
  maxPkt_legal := h.maxPkt_legal
  memory_wf := h.memory_wf
  acc_header := h.acc_header
  trace_ok := traceOk_append _ _ _ _ le_rfl h.trace_ok hes

/-- A new content of `ACC` that fits and begins with a valid header. -/
theorem setAcc_inv {b : Buffer} (hwf : Memory.wf { s with acc := b } = true) (hhdr : b ≠ [] → unitTypeOk (byteAt b 0) = true)
    (h : Inv s) : Inv { s with acc := b } where
  maxPkt_legal := h.maxPkt_legal
  memory_wf := hwf
  acc_header := hhdr
  trace_ok := h.trace_ok

/-! ### The depacketizer -/

theorem truncAcc_inv (h : Inv s) : Inv (truncAcc s) := setAcc_inv (truncAcc_memoryWf h.memory_wf) (absurd rfl) h

theorem dropLost_inv (h : Inv s) : Inv (dropLost s) := inv_congr (truncAcc_inv h) rfl rfl rfl rfl rfl

theorem seqCheck_inv (q : BitVec 16) (h : Inv s) : Inv (seqCheck q s) := by
  unfold seqCheck
  split
  · exact inv_congr (dropLost_inv h) rfl rfl rfl rfl rfl
  · exact inv_congr h rfl rfl rfl rfl rfl

/-- A delivered unit of a type in 1 to 23 is an exchange of its own (R136, D34). -/
theorem traceOk_deliverUnit (m : Nat) {b : Buffer} (ts : BitVec 32) (loss : Bool) (hne : b ≠ [])
    (hty : unitTypeOk (byteAt b 0) = true) : traceOk m [.deliverUnit b b.length ts loss.toNat] = true := by
  simp [traceOk, hne, hty, Bool.toNat_le]

theorem deliver_inv {b : Buffer} (ts : BitVec 32) (hne : b ≠ []) (hty : unitTypeOk (byteAt b 0) = true) (h : Inv s) :
    Inv (deliver b ts s) :=
  inv_congr (emitEvents_inv (traceOk_deliverUnit _ ts s.loss hne hty) h) rfl rfl rfl rfl rfl

theorem deliverAll_inv {us : List (Buffer × BitVec 32)} (hus : ∀ u ∈ us, u.1 ≠ [] ∧ unitTypeOk (byteAt u.1 0) = true)
    (h : Inv s) : Inv (deliverAll us s) := by
  induction us generalizing s with
  | nil => exact h
  | cons u us ih =>
    obtain ⟨⟨hne, hty⟩, hrest⟩ := List.forall_mem_cons.mp hus
    exact ih hrest (deliver_inv u.2 hne hty h)

/-- A fragment gathered in a state with Inv has a valid rebuilt header: its own, or that of the reassembly it continues. -/
theorem gathered_header {unit : Buffer}
    (hhdr : unitTypeOk (byteAt unit 0) = true ∨ s.acc ≠ [] ∧ byteAt unit 0 = byteAt s.acc 0) (h : Inv s) :
    unitTypeOk (byteAt unit 0) = true := by
  rcases hhdr with hty | ⟨hacc, hsame⟩
  · exact hty
  · rw [hsame]; exact h.acc_header hacc

/-- Every action of HUNPACK keeps the invariant. -/
theorem actionEffect_inv {wf : Prop} (hwf : wf) {r : State × Status} (he : ActionEffect wf s r) (h : Inv s) : Inv r.1 := by
  cases he with
  | lost => exact dropLost_inv h
  | overflow _ => exact dropLost_inv h
  | discarded => exact h
  | units us hus => exact deliverAll_inv (hus hwf) h
  | gathered unit _ hfits hhdr => exact setAcc_inv hfits (fun _ => gathered_header hhdr h) h
  | finished unit ts hne hhdr =>
    -- `ACC` is truncated after the delivery, so the unit's stay there does not show.
    show Inv (truncAcc (deliver unit ts s))
    exact truncAcc_inv (deliver_inv ts hne (gathered_header hhdr h) h)

/-! ### The packetizer -/

theorem buildPacket_length (m : Bool) (pay : Buffer) (s : State) :
    (buildPacket m pay s).length = Config.rtpFixed + pay.length := by
  simp [buildPacket, writeHdr_template_length, Config.rtpFixed]

/-- The template's byte 0: version 2, no padding, no extension, no CSRC (R82). -/
theorem byteAt_buildPacket_zero (m : Bool) (pay : Buffer) (s : State) : byteAt (buildPacket m pay s) 0 = 0x80#8 := by
  have hbyte : byteAt (buildPacket m pay s) 0 = fixByte0 Config.rtpVersion false false 0 := rfl
  rw [hbyte]
  decide

/-- A denial of a packet that is not empty and fits `MAXPKT` stands alone. -/
theorem traceOk_denied {m n : Nat} (hpos : Config.rtpFixed < n) (hfit : n ≤ m) : traceOk m [.alloc n false] = true := by
  simp [traceOk, hpos, hfit]

/-- A grant, the delivery of a packet of its size and its free are one exchange (R162). -/
theorem traceOk_sent {m n : Nat} {b : Buffer} (ts : BitVec 32) (hpos : Config.rtpFixed < n) (hfit : n ≤ m)
    (hlen : b.length = n) (hhdr : byteAt b 0 = 0x80#8) :
    traceOk m [.alloc n true, .deliverPacket b n ts 0, .free] = true := by
  simp [traceOk, hpos, hfit, hlen, hhdr]

theorem takeAnswer_inv (h : Inv s) : Inv (takeAnswer s) := inv_congr h (by simp) (by simp) (by simp) (by simp) (by simp)

/-- The grant alone would break the invariant; together with the packet sent on it, it does not. -/
theorem sendPacket_granted_inv (m : Bool) {pay : Buffer} (hpos : Config.rtpFixed < Config.rtpFixed + pay.length)
    (hfit : Config.rtpFixed + pay.length ≤ s.maxPkt) (h : Inv s) :
    Inv (sendPacket m pay (emitEvents [.alloc (Config.rtpFixed + pay.length) true] s)) :=
  inv_congr (emitEvents_inv (traceOk_sent s.txTs hpos hfit (buildPacket_length m pay _) (byteAt_buildPacket_zero m pay _)) h)
    rfl rfl rfl rfl (List.append_assoc ..)

theorem emit_inv (m : Bool) {pay : Buffer} (hne : pay ≠ []) (hfit : Config.rtpFixed + pay.length ≤ s.maxPkt) (h : Inv s) :
    Inv (emit m pay s).1 := by
  have hpos : Config.rtpFixed < Config.rtpFixed + pay.length := Nat.lt_add_of_pos_right (List.length_pos_iff.mpr hne)
  have hasked : Config.rtpFixed + pay.length ≤ (takeAnswer s).maxPkt := by simpa using hfit
  rcases emit_cases m pay s with ⟨-, hemit⟩ | ⟨-, hemit⟩ <;> rw [hemit]
  · exact sendPacket_granted_inv m hpos hasked (takeAnswer_inv h)
  · exact emitEvents_inv (traceOk_denied hpos hasked) (takeAnswer_inv h)

theorem emitAll_inv {ps : List (Bool × Buffer)} (hps : PacketsFit s.maxPkt ps) (h : Inv s) : Inv (emitAll ps s).1 := by
  induction ps generalizing s with
  | nil => exact h
  | cons p ps ih =>
    obtain ⟨m, pay⟩ := p
    obtain ⟨⟨hne, hfit⟩, hrest⟩ := List.forall_mem_cons.mp hps
    have hinv := emit_inv m hne hfit h
    obtain ⟨-, -, -, hmax, -⟩ := emit_frame m pay s
    unfold emitAll
    rcases he : emit m pay s with ⟨s', granted⟩
    rw [he] at hinv hmax
    cases granted with
    | false => exact hinv
    | true => exact ih (hmax ▸ hrest) hinv

/-! ### Sessions and steps -/

theorem openSession_inv (pt : BitVec 7) (q : BitVec 16) (r : BitVec 32) {n : Nat} (hn : Config.minMaxPkt ≤ n) (h : Inv s) :
    Inv (openSession pt q r n s) where
  maxPkt_legal _ := hn
  memory_wf := openSession_memoryWf pt q r n h.memory_wf
  acc_header := absurd rfl
  trace_ok := rfl

/-- Every well-formed instruction keeps the invariant. -/
theorem exec_inv {i : Instr} (hwf : i.wf = true) (hexec : exec i s = .next t) (h : Inv s) : Inv t := by
  cases exec_effect hexec with
  | opened pt q r n _ hn => exact raise_inv _ (openSession_inv pt q r hn h)
  | early e _ => exact raise_inv e h
  | record k => exact conclude_inv _ _ _ _ h
  | bytes out _ => exact conclude_inv _ _ _ _ h
  | packets ps ts _ hps => exact raise_inv _ (emitAll_inv (hps hwf) (inv_congr h rfl rfl rfl rfl rfl))
  | action r _ _ he => exact raise_inv _ (actionEffect_inv hwf he h)
  | unpacked inp k r _ _ _ he => exact raise_inv _ (actionEffect_inv hwf he (seqCheck_inv k.seq h))

/-- Settles O52: what a step runs was decoded, so it is well formed. -/
theorem stepKeepsInvariant : Obligations.StepKeepsInvariant := by
  intro s t h hstep
  rcases step_next hstep with ⟨-, rfl⟩ | ⟨r, rest, i, -, hd, hexec⟩
  · exact h
  · obtain ⟨-, hwf⟩ := decode_ok hd
    exact exec_inv hwf hexec (script_inv rest h)

end Sys2Proof.Machine

namespace Sys2Proof.Machine

/-! The state (spec/10_state.md): what reset leaves, what a host's run keeps, which instructions write which registers, and that
the packetizer and the depacketizer read none of each other's. -/

open Claims Laws

variable {s t : State}

/-! ### Reset (R32, R202) -/

/-- Settles O7: each value stands in the literal. -/
theorem resetLeavesSpecValues : Obligations.ResetLeavesSpecValues :=
  ⟨rfl, rfl, rfl, rfl, rfl, rfl, rfl, rfl, le_rfl⟩

theorem reset_inv : Inv State.reset := ⟨fun _ => le_rfl, memoryWf_reset, absurd rfl, rfl⟩

/-- Before the first INIT no session asks for a legal `MAXPKT`; all else that Inv speaks of stands as at reset (log 3). -/
theorem powerOn_inv : Inv State.powerOn where
  maxPkt_legal := nofun
  memory_wf := reset_inv.memory_wf
  acc_header := reset_inv.acc_header
  trace_ok := reset_inv.trace_ok

/-- Settles O51: the script is empty, and so is `ACC`. -/
theorem resetMeetsInvariants : Obligations.ResetMeetsInvariants :=
  ⟨reset_inv, ⟨reset_inv, rfl, fun _ => ⟨rfl, rfl⟩⟩, powerOn_inv, ⟨powerOn_inv, rfl, fun _ => ⟨rfl, rfl⟩⟩⟩

/-! ### Frames (R31, R33, R34) -/

theorem SameTx.trans {u : State} (h : SameTx s t) (h' : SameTx t u) : SameTx s u := by
  simp_all [SameTx]

theorem SameHost.trans {u : State} (h : SameHost s t) (h' : SameHost t u) : SameHost s u := by
  simp_all [SameHost]

theorem SameOracle.trans {u : State} (h : SameOracle s t) (h' : SameOracle t u) : SameOracle s u := by
  simp_all [SameOracle]

theorem seqCheck_frame (q : BitVec 16) (s : State) :
    SameTx s (seqCheck q s) ∧ SameHost s (seqCheck q s) ∧ SameOracle s (seqCheck q s) := by
  simp [SameTx, SameHost, SameOracle]

/-- HUNPACK once it is past the sequence check: neither the check nor the action touches these. -/
theorem checkedAction_frame {wf : Prop} {q : BitVec 16} {r : State × Status} (he : ActionEffect wf (seqCheck q s) r) :
    SameTx s r.1 ∧ SameHost s r.1 ∧ SameOracle s r.1 := by
  obtain ⟨htx, hhost, horacle⟩ := seqCheck_frame q s
  obtain ⟨htx', -, hhost', horacle', -⟩ := he.frame
  exact ⟨htx.trans htx', hhost.trans hhost', horacle.trans horacle'⟩

/-- Settles O49. -/
theorem onlyInitConfigures : Obligations.OnlyInitConfigures := by
  intro i s t hexec
  cases exec_effect hexec with
  | opened pt q r n hi _ => exact ⟨⟨rfl, rfl⟩, fun hno => absurd ⟨pt, q, r, n, hi⟩ hno⟩
  | early e _ => exact ⟨⟨rfl, rfl⟩, fun _ => ⟨rfl, rfl, rfl, rfl⟩⟩
  | record k => exact ⟨⟨rfl, rfl⟩, fun _ => ⟨rfl, rfl, rfl, rfl⟩⟩
  | bytes out _ => exact ⟨⟨rfl, rfl⟩, fun _ => ⟨rfl, rfl, rfl, rfl⟩⟩
  | packets ps ts _ _ =>
    obtain ⟨hsession, hpt, hssrc, hmax, -, -, -, hhost⟩ := emitAll_frame ps { s with txTs := ts }
    exact ⟨hhost, fun _ => ⟨hsession, hpt, hssrc, hmax⟩⟩
  | action r _ _ he =>
    obtain ⟨⟨hsession, hpt, hssrc, -, hmax, -⟩, -, hhost, -⟩ := he.frame
    exact ⟨hhost, fun _ => ⟨hsession, hpt, hssrc, hmax⟩⟩
  | unpacked inp k r _ _ _ he =>
    obtain ⟨⟨hsession, hpt, hssrc, -, hmax, -⟩, hhost, -⟩ := checkedAction_frame he
    exact ⟨hhost, fun _ => ⟨hsession, hpt, hssrc, hmax⟩⟩

/-! ### The loss flag (R23, R147) -/

/-- From `s` to `t` a set `LOSS` stayed set, or units were delivered, the first of them with loss flag 1. -/
def LossCarried (s t : State) : Prop :=
  t.loss = true ∨ ∃ u ts more, t.trace = s.trace ++ .deliverUnit u u.length ts 1 :: more

/-- Delivering clears the flag only by handing it to the first unit; an empty sequence keeps it. -/
theorem deliverAll_lossCarried (us : List (Buffer × BitVec 32)) (hloss : s.loss = true) : LossCarried s (deliverAll us s) := by
  cases us with
  | nil => exact .inl hloss
  | cons u us => exact .inr ⟨u.1, u.2, unitEvents false us, by simp [deliverAll_eq, unitEvents, hloss]⟩

theorem actionEffect_lossCarried {wf : Prop} {r : State × Status} (he : ActionEffect wf s r) (hloss : s.loss = true) :
    LossCarried s r.1 := by
  cases he with
  | lost => exact .inl rfl
  | overflow _ => exact .inl rfl
  | discarded => exact .inl hloss
  | units us _ => exact deliverAll_lossCarried us hloss
  | gathered unit _ _ _ => exact .inl hloss
  | finished unit ts _ _ => exact .inr ⟨unit, ts, [], by simp [hloss]⟩

/-- Settles O43. -/
theorem lossFlagIsSticky : Obligations.LossFlagIsSticky := by
  intro i s t hloss hexec
  cases exec_effect hexec with
  | opened pt q r n hi _ => exact .inr (.inl ⟨pt, q, r, n, hi⟩)
  | early e _ => exact .inl hloss
  | record k => exact .inl hloss
  | bytes out _ => exact .inl hloss
  | packets ps ts _ _ =>
    obtain ⟨-, -, -, -, -, ⟨-, -, hkept, -⟩, -⟩ := emitAll_frame ps { s with txTs := ts }
    exact .inl (hkept.trans hloss)
  | action r _ _ he => exact (actionEffect_lossCarried he hloss).imp_right .inr
  | unpacked inp k r _ _ _ he =>
    -- The sequence check can only set the flag, and emits nothing.
    have hcarried := actionEffect_lossCarried he (by simp [hloss])
    rw [LossCarried, seqCheck_trace] at hcarried
    exact hcarried.imp_right .inr

/-! ### The host's invariant (R21, R79) -/

/-- Before the first sequence check there is no reassembly and no loss (R21, R23, R24). -/
def FreshRx (s : State) : Prop := s.rxSeen = false → s.acc = [] ∧ s.loss = false

theorem freshRx_congr (hrx : SameRx s t) (h : FreshRx s) : FreshRx t := by
  obtain ⟨hseen, -, hloss, hacc⟩ := hrx
  rw [FreshRx, hseen, hloss, hacc]
  exact h

theorem decodeCmd_space {sel : Byte} {o : Operands} {i : Instr} (h : decodeCmd sel o = .ok i) : (encode i).space = .cmd := by
  unfold decodeCmd at h
  split_ifs at h <;> cases h <;> rfl

/-- A host's request is never decoded to the inside of a command. -/
theorem decode_command_space {r : Request} {i : Instr} (hr : isCommand r = true) (hd : decode r = .ok i) :
    (encode i).space = .cmd := by
  obtain ⟨space, bytes, ops⟩ := r
  obtain rfl : space = .cmd := by simpa [isCommand] using hr
  obtain ⟨hraw, -⟩ := decode_ok hd
  match bytes, hraw with
  | [sel], hraw => exact decodeCmd_space hraw

/-- A command reaches the depacketizer's registers only through INIT, which leaves them fresh, and through HUNPACK's sequence
check, which sets `RX_SEEN`. -/
theorem exec_freshRx {i : Instr} (hcmd : (encode i).space = .cmd) (hexec : exec i s = .next t) (h : FreshRx s) : FreshRx t := by
  cases exec_effect hexec with
  | opened pt q r n _ _ => exact fun _ => ⟨rfl, rfl⟩
  | early e _ => exact h
  | record k => exact h
  | bytes out _ => exact h
  | packets ps ts _ _ =>
    obtain ⟨-, -, -, -, -, hrx, -⟩ := emitAll_frame ps { s with txTs := ts }
    exact freshRx_congr hrx h
  | action r _ hinner _ => exact absurd hcmd hinner
  | unpacked inp k r _ _ _ he =>
    obtain ⟨-, -, -, -, hseen, -⟩ := he.frame
    rw [seqCheck_rxSeen] at hseen
    intro hunseen
    rw [raise_rxSeen, hseen] at hunseen
    cases hunseen

/-- Settles O53: Inv by O52, the script by O49, and what a step runs is a command. -/
theorem stepKeepsHostInvariant : Obligations.StepKeepsHostInvariant := by
  intro s t h hstep
  have hinv := stepKeepsInvariant s t h.inv hstep
  rcases step_next hstep with ⟨-, rfl⟩ | ⟨r, rest, i, hs, hd, hexec⟩
  · exact h
  · have hall := h.commands
    rw [hs, List.all_cons, Bool.and_eq_true] at hall
    obtain ⟨hr, hrest⟩ := hall
    obtain ⟨⟨-, hscript⟩, -⟩ := onlyInitConfigures i _ t hexec
    exact ⟨hinv, hscript ▸ hrest, exec_freshRx (decode_command_space hr hd) hexec h.fresh⟩

/-! ### What an operation reads (R34)

The procedures of the packetizer and of the depacketizer are built from operations by sequence and choice. That an operation
reads no more than a part of the state is kept by both, which is shown once. -/

/-- `f` reads no more of a state than the agreement `R` covers: from two states in `R` it answers the same result, appends the
same events and leaves two states in `R`. -/
def ReadsOnly {ρ : Type} (R : State → State → Prop) (f : State → State × ρ) : Prop :=
  ∀ s s', R s s' → (f s').2 = (f s).2 ∧ R (f s).1 (f s').1 ∧
    ∃ es, (f s).1.trace = s.trace ++ es ∧ (f s').1.trace = s'.trace ++ es

section ReadsOnly
variable {ρ ρ' : Type} {R : State → State → Prop}

/-- An operation that emits nothing. -/
theorem ReadsOnly.silent {g : State → State} (r : ρ) (hR : ∀ s s', R s s' → R (g s) (g s'))
    (htrace : ∀ s, (g s).trace = s.trace) : ReadsOnly R fun s => (g s, r) :=
  fun s s' h => ⟨rfl, hR s s' h, [], by simp [htrace], by simp [htrace]⟩

theorem ReadsOnly.pure (r : ρ) : ReadsOnly R fun s => (s, r) := .silent r (fun _ _ h => h) fun _ => rfl

/-- Sequence: what follows may depend on the result. -/
theorem ReadsOnly.bind {f : State → State × ρ} {k : ρ → State → State × ρ'} (hf : ReadsOnly R f)
    (hk : ∀ r, ReadsOnly R (k r)) : ReadsOnly R fun s => k (f s).2 (f s).1 := by
  intro s s' h
  obtain ⟨hres, hR, es, htrace, htrace'⟩ := hf s s' h
  obtain ⟨hres', hR', es', hmore, hmore'⟩ := hk (f s).2 _ _ hR
  refine ⟨?_, ?_⟩ <;> simp only [hres]
  · exact hres'
  exact ⟨hR', es ++ es', by rw [hmore, htrace, List.append_assoc], by rw [hmore', htrace', List.append_assoc]⟩

/-- First a silent operation, then one that reads only what the agreement covers. -/
theorem ReadsOnly.after {f : State → State × ρ} {g : State → State} (hf : ReadsOnly R f)
    (hR : ∀ s s', R s s' → R (g s) (g s')) (htrace : ∀ s, (g s).trace = s.trace) : ReadsOnly R fun s => f (g s) :=
  (ReadsOnly.silent () hR htrace).bind (k := fun _ => f) fun _ => hf

/-- Choice by a condition that the agreement decides. -/
theorem ReadsOnly.ite {f g : State → State × ρ} {p : State → Prop} [DecidablePred p] (hp : ∀ s s', R s s' → (p s' ↔ p s))
    (hf : ReadsOnly R f) (hg : ReadsOnly R g) : ReadsOnly R fun s => if p s then f s else g s := by
  intro s s' h
  by_cases hs : p s
  · simpa [hs, (hp s s' h).mpr hs] using hf s s' h
  · simpa [hs, mt (hp s s' h).mp hs] using hg s s' h

end ReadsOnly

/-! ### The packetizer reads its registers and the answers (R110, R117) -/

/-- Two states agree on the packetizer's registers and on the answers to come. -/
def TxAgree (s s' : State) : Prop := SameTx s s' ∧ SameOracle s s'

theorem TxAgree.allocAnswer {s' : State} (h : TxAgree s s') : allocAnswer s' = allocAnswer s := by
  obtain ⟨-, hans, hctr⟩ := h
  rw [Machine.allocAnswer, Machine.allocAnswer, hans, hctr]

theorem TxAgree.takeAnswer {s' : State} (h : TxAgree s s') : TxAgree (takeAnswer s) (takeAnswer s') := by
  obtain ⟨htx, hans, hctr⟩ := h
  refine ⟨by simpa [SameTx] using htx, ?_⟩
  cases ha : s.answers <;> simp [SameOracle, Machine.takeAnswer, hans, hctr, ha]

theorem TxAgree.buildPacket {s' : State} (m : Bool) (pay : Buffer) (h : TxAgree s s') :
    buildPacket m pay s' = buildPacket m pay s := by
  obtain ⟨⟨-, hpt, hssrc, hseq, -, hts⟩, -⟩ := h
  simp [buildPacket_eq, hpt, hssrc, hseq, hts]

theorem TxAgree.sendPacket {s' : State} (m : Bool) (pay : Buffer) (h : TxAgree s s') :
    TxAgree (sendPacket m pay s) (sendPacket m pay s') := by
  obtain ⟨⟨hsession, hpt, hssrc, hseq, hmax, hts⟩, horacle⟩ := h
  exact ⟨⟨hsession, hpt, hssrc, congrArg (· + 1) hseq, hmax, hts⟩, horacle⟩

theorem TxAgree.setTxTs {s' : State} (ts : BitVec 32) (h : TxAgree s s') :
    TxAgree { s with txTs := ts } { s' with txTs := ts } := by
  obtain ⟨⟨hsession, hpt, hssrc, hseq, hmax, -⟩, horacle⟩ := h
  exact ⟨⟨hsession, hpt, hssrc, hseq, hmax, rfl⟩, horacle⟩

theorem emitEvents_readsOnly {ρ : Type} (es : List Event) (r : ρ) : ReadsOnly TxAgree fun s => (emitEvents es s, r) :=
  fun _ _ h => ⟨rfl, h, es, rfl, rfl⟩

/-- The delivered packet is built from the packetizer's registers alone. -/
theorem sendPacket_readsOnly (m : Bool) (pay : Buffer) : ReadsOnly TxAgree fun s => (sendPacket m pay s, true) := by
  intro s s' h
  refine ⟨rfl, h.sendPacket m pay, _, sendPacket_trace .., ?_⟩
  have hpacket := h.buildPacket m pay
  obtain ⟨⟨-, -, -, -, -, hts⟩, -⟩ := h
  simp [hpacket, hts]

theorem emit_eq_ite (m : Bool) (pay : Buffer) (s : State) :
    emit m pay s =
      if allocAnswer s then (sendPacket m pay (emitEvents [.alloc (Config.rtpFixed + pay.length) true] (takeAnswer s)), true)
      else (emitEvents [.alloc (Config.rtpFixed + pay.length) false] (takeAnswer s), false) := by
  rcases emit_cases m pay s with ⟨hanswer, hemit⟩ | ⟨hanswer, hemit⟩ <;> simp [hanswer, hemit]

theorem emit_readsOnly (m : Bool) (pay : Buffer) : ReadsOnly TxAgree (emit m pay) := by
  have hgranted := (emitEvents_readsOnly [.alloc (Config.rtpFixed + pay.length) true] ()).bind
    fun _ => sendPacket_readsOnly m pay
  have hdenied := emitEvents_readsOnly [.alloc (Config.rtpFixed + pay.length) false] false
  rw [funext (emit_eq_ite m pay)]
  exact .ite (fun _ _ h => by rw [h.allocAnswer]) (hgranted.after (fun _ _ h => h.takeAnswer) takeAnswer_trace)
    (hdenied.after (fun _ _ h => h.takeAnswer) takeAnswer_trace)

/-- What `EMIT` for a list does after its first packet: go on at a grant, stop at a denial (R120). -/
def emitRest (ps : List (Bool × Buffer)) (granted : Bool) (s : State) : State × Bool :=
  if granted then emitAll ps s else (s, false)

theorem emitAll_cons (m : Bool) (pay : Buffer) (ps : List (Bool × Buffer)) (s : State) :
    emitAll ((m, pay) :: ps) s = emitRest ps (emit m pay s).2 (emit m pay s).1 := by
  rw [emitAll]
  rcases emit m pay s with ⟨s', _ | _⟩ <;> rfl

theorem emitAll_readsOnly (ps : List (Bool × Buffer)) : ReadsOnly TxAgree (emitAll ps) := by
  induction ps with
  | nil => exact .pure true
  | cons p ps ih =>
    obtain ⟨m, pay⟩ := p
    have hrest : ∀ granted, ReadsOnly TxAgree (emitRest ps granted)
      | true => ih
      | false => .pure false
    rw [funext (emitAll_cons m pay ps)]
    exact (emit_readsOnly m pay).bind hrest

/-- Setting `TX_TS` to the value that it has. -/
theorem SameTx.setTxTs_eq {s' : State} (h : SameTx s s') : { s' with txTs := s.txTs } = s' := by
  obtain ⟨-, -, -, -, -, hts⟩ := h
  rw [← hts]

/-- In every state with the packetizer's registers of `s`, the instruction sends the packets `ps` with timestamp `ts`. -/
def SendsAlike (i : Instr) (s : State) (ps : List (Bool × Buffer)) (ts : BitVec 32) : Prop :=
  ∀ s', SameTx s s' → exec i s' = .next (concludeEmit (emitAll ps { s' with txTs := ts }))

theorem hpack_sendsAlike {inp : Buffer} {ts : BitVec 32} (hexec : exec (.hpack inp ts) s = .next t) :
    SendsAlike (.hpack inp ts) s ((nalUnits inp).flatMap (nalPackets s.maxPkt)) ts := by
  rintro s' ⟨hsession, -, -, -, hmax, -⟩
  simp only [exec, execHpack, inSession_next, hsession, hmax] at hexec ⊢
  obtain ⟨hs, hexec⟩ := hexec
  split at hexec
  · cases hexec
  · next hstuck => exact ⟨hs, if_neg hstuck⟩

theorem snalpkt_sendsAlike {nal : Buffer} (hexec : exec (.snalpkt nal) s = .next t) :
    SendsAlike (.snalpkt nal) s [singlePacket nal] s.txTs := by
  intro s' htx
  rw [htx.setTxTs_eq]
  obtain ⟨hsession, -, -, -, hmax, -⟩ := htx
  simp only [exec, execSnalpkt, inSession_next, hsession, hmax] at hexec ⊢
  obtain ⟨hs, hexec⟩ := hexec
  split at hexec
  · next hfits => exact ⟨hs, if_pos hfits⟩
  · cases hexec

theorem fuapkt_sendsAlike {nal : Buffer} (hexec : exec (.fuapkt nal) s = .next t) :
    SendsAlike (.fuapkt nal) s (fragments s.maxPkt nal) s.txTs := by
  intro s' htx
  rw [htx.setTxTs_eq]
  obtain ⟨hsession, -, -, -, hmax, -⟩ := htx
  simp only [exec, execFuapkt, inSession_next, hsession, hmax] at hexec ⊢
  obtain ⟨hs, hexec⟩ := hexec
  split at hexec
  · cases hexec
  split at hexec
  · cases hexec
  · next hfits hstuck => exact ⟨hs, (if_neg hfits).trans (if_neg hstuck)⟩

theorem exec_sendsAlike {i : Instr}
    (hi : (∃ inp ts, i = .hpack inp ts) ∨ (∃ nal, i = .snalpkt nal) ∨ ∃ nal, i = .fuapkt nal) (hexec : exec i s = .next t) :
    ∃ ps ts, SendsAlike i s ps ts := by
  rcases hi with ⟨inp, ts, rfl⟩ | ⟨nal, rfl⟩ | ⟨nal, rfl⟩
  · exact ⟨_, _, hpack_sendsAlike hexec⟩
  · exact ⟨_, _, snalpkt_sendsAlike hexec⟩
  · exact ⟨_, _, fuapkt_sendsAlike hexec⟩

/-- Settles O30. -/
theorem packetizerIgnoresDepacketizer : Obligations.PacketizerIgnoresDepacketizer := by
  intro i s s' t hi htx horacle hexec
  obtain ⟨ps, ts, hsends⟩ := exec_sendsAlike hi hexec
  have hself := hsends s ⟨rfl, rfl, rfl, rfl, rfl, rfl⟩
  obtain rfl : t = concludeEmit (emitAll ps { s with txTs := ts }) := by simpa [hexec] using hself
  obtain ⟨hres, ⟨htx', horacle'⟩, es, htrace, htrace'⟩ := emitAll_readsOnly ps _ _ (TxAgree.setTxTs ts ⟨htx, horacle⟩)
  obtain ⟨-, -, -, -, -, hrx, -, hhost⟩ := emitAll_frame ps { s with txTs := ts }
  obtain ⟨-, -, -, -, -, hrx', -⟩ := emitAll_frame ps { s' with txTs := ts }
  exact ⟨_, es, hsends s' htx, htx', horacle', by simp [concludeEmit, hres], hrx, hrx', hhost, htrace, htrace'⟩

/-! ### The depacketizer reads its registers and the capacity (R130) -/

/-- Two states agree on the depacketizer's registers and on the capacity. -/
def RxAgree (s s' : State) : Prop := SameRx s s' ∧ s'.accCap = s.accCap

theorem RxAgree.acc {s' : State} (h : RxAgree s s') : s'.acc = s.acc := by
  obtain ⟨⟨-, -, -, hacc⟩, -⟩ := h
  exact hacc

theorem RxAgree.overflows {s' : State} (n : Nat) (h : RxAgree s s') : overflows s' n = overflows s n := by
  have hacc := h.acc
  obtain ⟨-, hcap⟩ := h
  rw [Bool.eq_iff_iff, overflows_eq_true_iff, overflows_eq_true_iff, hacc, hcap]

theorem RxAgree.setAcc {s' : State} (b : Buffer) (h : RxAgree s s') : RxAgree { s with acc := b } { s' with acc := b } := by
  obtain ⟨⟨hseen, hseq, hloss, -⟩, hcap⟩ := h
  exact ⟨⟨hseen, hseq, hloss, rfl⟩, hcap⟩

theorem RxAgree.truncAcc {s' : State} (h : RxAgree s s') : RxAgree (truncAcc s) (truncAcc s') := h.setAcc []

theorem RxAgree.appendAcc {s' : State} (b : Buffer) (h : RxAgree s s') : RxAgree (appendAcc b s) (appendAcc b s') := by
  have hset := h.setAcc (s.acc ++ b)
  rw [Machine.appendAcc, Machine.appendAcc, h.acc]
  exact hset

theorem RxAgree.setLoss {s' : State} (l : Bool) (h : RxAgree s s') : RxAgree { s with loss := l } { s' with loss := l } := by
  obtain ⟨⟨hseen, hseq, -, hacc⟩, hcap⟩ := h
  exact ⟨⟨hseen, hseq, rfl, hacc⟩, hcap⟩

theorem RxAgree.dropLost {s' : State} (h : RxAgree s s') : RxAgree (dropLost s) (dropLost s') := h.truncAcc.setLoss true

theorem RxAgree.seqCheck {s' : State} (q : BitVec 16) (h : RxAgree s s') : RxAgree (seqCheck q s) (seqCheck q s') := by
  obtain ⟨⟨hseen, hseq, hloss, hacc⟩, hcap⟩ := h
  simp [RxAgree, SameRx, seqGap, hseen, hseq, hloss, hacc, hcap]

theorem dropLost_readsOnly (st : Status) : ReadsOnly RxAgree fun s => (dropLost s, st) :=
  .silent st (fun _ _ h => h.dropLost) fun _ => rfl

/-- A unit that both states have is delivered with the flag, which they agree on. -/
theorem deliver_readsOnly {b : State → Buffer} (hb : ∀ s s', RxAgree s s' → b s' = b s) (ts : BitVec 32) :
    ReadsOnly RxAgree fun s => (deliver (b s) ts s, ()) := by
  intro s s' h
  refine ⟨rfl, h.setLoss false, _, deliver_trace .., ?_⟩
  have hunit := hb s s' h
  obtain ⟨⟨-, -, hloss, -⟩, -⟩ := h
  simp [hunit, hloss]

theorem deliverAll_readsOnly (us : List (Buffer × BitVec 32)) : ReadsOnly RxAgree fun s => (deliverAll us s, Status.ok) := by
  induction us with
  | nil => exact .pure _
  | cons u us ih => exact (deliver_readsOnly (b := fun _ => u.1) (fun _ _ _ => rfl) u.2).bind fun _ => ih

theorem agg_readsOnly (start w : Nat) (pay : Buffer) (ts : BitVec 32) : ReadsOnly RxAgree (agg start w pay ts) := by
  unfold agg
  split
  · exact dropLost_readsOnly _
  · split
    · exact dropLost_readsOnly _
    · exact deliverAll_readsOnly _

theorem appendThen_readsOnly (b : Buffer) {next : State → State × Status} (hnext : ReadsOnly RxAgree next) :
    ReadsOnly RxAgree fun s => appendThen b s next :=
  .ite (fun s s' h => by rw [h.overflows]) (dropLost_readsOnly _)
    (hnext.after (fun _ _ h => h.appendAcc b) fun _ => rfl)

theorem fuFinish_readsOnly (eBit : Bool) (ts : BitVec 32) : ReadsOnly RxAgree (fuFinish eBit ts) := by
  cases eBit with
  | false => exact .pure _
  | true =>
    have hdeliver := deliver_readsOnly (b := State.acc) (fun _ _ h => h.acc) ts
    exact hdeliver.bind (k := fun _ s => (truncAcc s, Status.ok)) fun _ => .silent _ (fun _ _ h => h.truncAcc) fun _ => rfl

theorem fuBody_readsOnly (sBit eBit : Bool) (ref : BitVec 3) (ot : BitVec 5) (data : Buffer) (ts : BitVec 32) :
    ReadsOnly RxAgree (fuBody sBit eBit ref ot data ts) := by
  have happend := appendThen_readsOnly data (fuFinish_readsOnly eBit ts)
  unfold fuBody
  split
  · split
    · exact (appendThen_readsOnly _ happend).after (fun _ _ h => h.truncAcc) fun _ => rfl
    · exact dropLost_readsOnly _
  · exact .ite (fun s s' h => by rw [accSize_def, accSize_def, h.acc]) (dropLost_readsOnly _) happend

theorem fu_readsOnly (n : Nat) (pay : Buffer) (ts : BitVec 32) : ReadsOnly RxAgree (fu n pay ts) := by
  unfold fu
  split
  · exact dropLost_readsOnly _
  · exact fuBody_readsOnly _ _ _ _ _ ts

theorem payloadAction_readsOnly (pay : Buffer) (ts : BitVec 32) : ReadsOnly RxAgree (payloadAction pay ts) := by
  unfold payloadAction
  cases nalAction (nalType (byteAt pay 0)) with
  | rsvd => exact .pure _
  | snal => exact deliverAll_readsOnly [(pay, ts)]
  | stapa => exact agg_readsOnly 1 0 pay ts
  | stapb => exact agg_readsOnly 3 0 pay ts
  | mtap16 => exact agg_readsOnly 3 2 pay ts
  | mtap24 => exact agg_readsOnly 3 3 pay ts
  | fua => exact fu_readsOnly 2 pay ts
  | fub => exact fu_readsOnly 4 pay ts

theorem hunpack_readsOnly (inp : Buffer) : ReadsOnly RxAgree (hunpack inp) := by
  unfold hunpack
  cases deser inp with
  | error e => exact .pure e
  | ok k =>
    by_cases hpay : k.pay = []
    · simpa [hpay] using ReadsOnly.pure (R := RxAgree) Status.payloadTooShort
    · have hchecked := (payloadAction_readsOnly k.pay k.ts).after (fun _ _ h => h.seqCheck k.seq) fun s => seqCheck_trace s k.seq
      simpa [hpay] using hchecked

theorem hunpack_frame (inp : Buffer) (s : State) :
    SameTx s (hunpack inp s).1 ∧ SameHost s (hunpack inp s).1 ∧ SameOracle s (hunpack inp s).1 := by
  have hself : SameTx s s ∧ SameHost s s ∧ SameOracle s s := by simp [SameTx, SameHost, SameOracle]
  rcases hunpack_cases inp s with ⟨e, -, h⟩ | ⟨k, -, -, h⟩ | ⟨k, -, hpay, h⟩ <;> rw [h]
  · exact hself
  · exact hself
  · exact checkedAction_frame (wf := True) (payloadAction_effect k.pay k.ts _ hpay)

theorem exec_hunpack (inp : Buffer) (hsession : s.session = true) :
    exec (.hunpack inp) s = .next (raise (hunpack inp s).2 (hunpack inp s).1) := inSession_of hsession _

/-- Settles O42. -/
theorem depacketizerIgnoresPacketizer : Obligations.DepacketizerIgnoresPacketizer := by
  intro inp s s' t hsession hsession' hcap hrx hexec
  rw [exec_hunpack inp hsession] at hexec
  cases hexec
  obtain ⟨hres, ⟨hrx', -⟩, es, htrace, htrace'⟩ := hunpack_readsOnly inp s s' ⟨hrx, hcap⟩
  obtain ⟨htx, hhost, horacle⟩ := hunpack_frame inp s
  obtain ⟨htx', -⟩ := hunpack_frame inp s'
  exact ⟨_, es, exec_hunpack inp hsession', hrx', hres, htx, htx', hhost, horacle, htrace, htrace'⟩

end Sys2Proof.Machine

namespace Sys2Proof.Machine

/-! The encodings (spec/30_encoding.md): the decoder and the encoder are each other's inverse, every first byte of a payload
selects its action, and the formats of the fixed header, of the CSRC list, of aggregation packets and of the byte stream are
read and written as their tables say. -/

open Claims Laws

variable {s : State}

/-! ### The decoder on the bytes of each space (R83) -/

theorem decode_eq_ok_iff {r : Request} {i : Instr} : decode r = .ok i ↔ decodeRaw r = .ok i ∧ i.wf = true := by
  refine ⟨decode_ok, fun ⟨hraw, hwf⟩ => ?_⟩
  simp [decode, hraw, hwf]

theorem decode_cmd_error {sel : Byte} {ops : Operands} {e : Reject} (h : decodeCmd sel ops = .error e) :
    decode ⟨.cmd, [sel], ops⟩ = .error e := by
  simp [decode, decodeRaw, h]

/-! ### Unassigned selectors (R79) -/

theorem decodeCmd_unassigned {sel : Byte} (ops : Operands) (h : sel.toNat ∉ [0, 1, 2, 3, 16, 17]) :
    decodeCmd sel ops = .error (.noSuchCommand sel) := by
  have hne : ∀ n ∈ [0, 1, 2, 3, 16, 17], sel ≠ BitVec.ofNat 8 n := by
    rintro n hn rfl
    rw [BitVec.toNat_ofNat, Nat.mod_eq_of_lt (by simp at hn; omega)] at h
    exact h hn
  simp only [List.forall_mem_cons, List.not_mem_nil, false_implies, implies_true, and_true] at hne
  obtain ⟨h00, h01, h02, h03, h10, h11⟩ := hne
  simp [decodeCmd, h00, h01, h02, h03, h10, h11]

/-- Settles O5: the decoder has the reason, and a step gives the decoder's. -/
theorem unassignedSelectorIsRefused : Obligations.UnassignedSelectorIsRefused := by
  intro sel ops hsel
  have hdecode := decode_cmd_error (decodeCmd_unassigned ops hsel)
  exact ⟨hdecode, fun _ _ hscript => step_of_decode_error hscript hdecode⟩

/-! ### The dispatch map (R68) -/

theorem nalAction_eq_ite : ∀ ty : BitVec 5, nalAction ty =
    if ty.toNat = 0 ∨ ty.toNat = 30 ∨ ty.toNat = 31 then .rsvd
    else if ty.toNat ≤ 23 then .snal
    else if ty.toNat = 24 then .stapa
    else if ty.toNat = 25 then .stapb
    else if ty.toNat = 26 then .mtap16
    else if ty.toNat = 27 then .mtap24
    else if ty.toNat = 28 then .fua
    else .fub := by decide

theorem nalAction_eq_rsvd : ∀ {ty : BitVec 5}, nalAction ty = .rsvd ↔ rsvdType ty = true := by decide

theorem nalAction_eq_snal : ∀ {ty : BitVec 5}, nalAction ty = .snal ↔ singleType ty = true := by decide

theorem nalAction_eq_stapa : ∀ {ty : BitVec 5}, nalAction ty = .stapa ↔ ty = 24 := by decide

theorem nalAction_eq_stapb : ∀ {ty : BitVec 5}, nalAction ty = .stapb ↔ ty = 25 := by decide

theorem nalAction_eq_mtap16 : ∀ {ty : BitVec 5}, nalAction ty = .mtap16 ↔ ty = 26 := by decide

theorem nalAction_eq_mtap24 : ∀ {ty : BitVec 5}, nalAction ty = .mtap24 ↔ ty = 27 := by decide

theorem nalAction_eq_fua : ∀ {ty : BitVec 5}, nalAction ty = .fua ↔ ty = 28 := by decide

theorem nalAction_eq_fub : ∀ {ty : BitVec 5}, nalAction ty = .fub ↔ ty = 29 := by decide

theorem nalRef_eq_ofNat : ∀ b : Byte, nalRef b = BitVec.ofNat 3 (b.toNat / 32) := by decide

theorem nalType_eq_ofNat (b : Byte) : nalType b = BitVec.ofNat 5 (b.toNat % 32) := by
  rw [← nalType_toNat, BitVec.ofNat_toNat, BitVec.setWidth_eq]

theorem decodeNal_wf (b : Byte) (rest : Buffer) (ts : BitVec 32) : (decodeNal b rest ts).wf = true := by
  unfold decodeNal
  cases haction : nalAction (nalType b) with
  | rsvd => exact nalAction_eq_rsvd.mp haction
  | snal => exact nalAction_eq_snal.mp haction
  | stapa | stapb | mtap16 | mtap24 | fua | fub => rfl

/-- A payload with a first byte is never rejected. -/
theorem decode_nalhdr (b : Byte) (rest : Buffer) (ops : Operands) :
    decode ⟨.nalhdr, b :: rest, ops⟩ = .ok (decodeNal b rest ops.ts) :=
  decode_eq_ok_iff.mpr ⟨rfl, decodeNal_wf ..⟩

/-- Settles O6: the map is a choice by the number of the type, and the instruction follows it. -/
theorem dispatchMapIsTotal : Obligations.DispatchMapIsTotal := by
  intro b rest ops ref ty
  have haction := nalAction_eq_ite (nalType b)
  rw [nalType_toNat] at haction
  rw [decode_nalhdr, decodeNal, haction, nalRef_eq_ofNat, nalType_eq_ofNat]
  split_ifs <;> rfl

/-! ### Bytes and fields of the fixed header (R61) -/

section FixBytes
variable (v : BitVec 2) (p x : Bool) (cc : BitVec 4) (m : Bool) (pt : BitVec 7) (seq : BitVec 16) (ts ssrc : BitVec 32)
  (rest : Buffer)

theorem memRead_fixBytes_seq : memRead (fixBytes v p x cc m pt seq ts ssrc ++ rest) 2 2 = seq.toNat := by
  have h := memRead_append_memWrite [fixByte0 v p x cc, fixByte1 m pt] (memWrite 4 ts.toNat ++ (memWrite 4 ssrc.toNat ++ rest))
    2 seq.toNat
  simpa [fixBytes, Nat.mod_eq_of_lt seq.isLt] using h

theorem memRead_fixBytes_ts : memRead (fixBytes v p x cc m pt seq ts ssrc ++ rest) 4 4 = ts.toNat := by
  have h := memRead_append_memWrite (fixByte0 v p x cc :: fixByte1 m pt :: memWrite 2 seq.toNat) (memWrite 4 ssrc.toNat ++ rest)
    4 ts.toNat
  simpa [fixBytes, Nat.mod_eq_of_lt ts.isLt] using h

theorem memRead_fixBytes_ssrc : memRead (fixBytes v p x cc m pt seq ts ssrc ++ rest) 8 4 = ssrc.toNat := by
  have h := memRead_append_memWrite (fixByte0 v p x cc :: fixByte1 m pt :: (memWrite 2 seq.toNat ++ memWrite 4 ts.toNat)) rest
    4 ssrc.toNat
  simpa [fixBytes, Nat.mod_eq_of_lt ssrc.isLt] using h

@[simp] theorem byteAt_fixBytes_zero : byteAt (fixBytes v p x cc m pt seq ts ssrc ++ rest) 0 = fixByte0 v p x cc := rfl

@[simp] theorem byteAt_fixBytes_one : byteAt (fixBytes v p x cc m pt seq ts ssrc ++ rest) 1 = fixByte1 m pt := rfl

theorem drop_fixBytes : (fixBytes v p x cc m pt seq ts ssrc ++ rest).drop Config.rtpFixed = rest :=
  List.drop_left' (fixBytes_length ..)

/-- The fields come back from the bytes that the encoder wrote. -/
theorem decodeFix_fixBytes : decodeFix (fixBytes Config.rtpVersion p x cc m pt seq ts ssrc ++ rest) =
    .ok (.rtpfix p x cc m pt seq ts ssrc rest) := by
  have hlen : ¬(fixBytes Config.rtpVersion p x cc m pt seq ts ssrc ++ rest).length < Config.rtpFixed := by
    simp [Config.rtpFixed]
  simp only [decodeFix, if_neg hlen, byteAt_fixBytes_zero, byteAt_fixBytes_one, memRead_fixBytes_seq, memRead_fixBytes_ts,
    memRead_fixBytes_ssrc, drop_fixBytes]
  simp

end FixBytes

/-- A field of `n` bytes fits a word of `8 * n` bits. -/
theorem toNat_ofNat_memRead (b : Buffer) (o n : Nat) : (BitVec.ofNat (8 * n) (memRead b o n)).toNat = memRead b o n := by
  rw [BitVec.toNat_ofNat, Nat.mod_eq_of_lt]
  rw [pow_mul]
  exact memRead_lt b o n

theorem slice_append_slice (b : Buffer) (o j k : Nat) : slice b o j ++ slice b (o + j) k = slice b o (j + k) := by
  rw [slice, slice, slice, List.take_add, List.drop_drop]

/-- The bytes come back from the fields that the decoder read. -/
theorem fixBytes_of_fields {bs : Buffer} (hlen : 12 ≤ bs.length) :
    fixBytes (fixV (byteAt bs 0)) (fixP (byteAt bs 0)) (fixX (byteAt bs 0)) (fixCc (byteAt bs 0)) (fixM (byteAt bs 1))
      (fixPt (byteAt bs 1)) (BitVec.ofNat 16 (memRead bs 2 2)) (BitVec.ofNat 32 (memRead bs 4 4))
      (BitVec.ofNat 32 (memRead bs 8 4)) ++ bs.drop 12 = bs := by
  have hseq : memWrite 2 (BitVec.ofNat 16 (memRead bs 2 2)).toNat = slice bs 2 2 := by
    rw [toNat_ofNat_memRead bs 2 2, memWrite_memRead _ _ _ (by omega)]
  have hts : memWrite 4 (BitVec.ofNat 32 (memRead bs 4 4)).toNat = slice bs 4 4 := by
    rw [toNat_ofNat_memRead bs 4 4, memWrite_memRead _ _ _ (by omega)]
  have hssrc : memWrite 4 (BitVec.ofNat 32 (memRead bs 8 4)).toNat = slice bs 8 4 := by
    rw [toNat_ofNat_memRead bs 8 4, memWrite_memRead _ _ _ (by omega)]
  rw [fixBytes, fixByte0_eta, fixByte1_eta, hseq, hts, hssrc, slice_append_slice bs 2 2 4, slice_append_slice bs 2 6 4]
  match bs, hlen with
  | b0 :: b1 :: rest, _ => simp [slice]

/-! ### Decoding what was encoded (R60, R61, R67, R68, R70, R71, R79) -/

theorem decodeRaw_encode {i : Instr} (hwf : i.wf = true) : decodeRaw (encode i) = .ok i := by
  cases i with
  | init | deser | serhdr | ser | hpack | hunpack => rfl
  | rsvd ref ty rest ts =>
    have haction : nalAction ty = .rsvd := nalAction_eq_rsvd.mpr hwf
    simp [encode, decodeRaw, decodeNal, haction]
  | snal ref ty rest ts =>
    have haction : nalAction ty = .snal := nalAction_eq_snal.mpr hwf
    simp [encode, decodeRaw, decodeNal, haction]
  | stapa | stapb | mtap16 | mtap24 | fua | fub => simp [encode, decodeRaw, decodeNal, nalAction]
  | fuMid | fuEnd | fuStart | fuStartEnd => simp [encode, decodeRaw, decodeFu]
  | rtpfix p x cc m pt seq ts ssrc rest => exact decodeFix_fixBytes p x cc m pt seq ts ssrc rest
  | snalpkt | fuapkt => rfl

/-- Settles O3, constructor by constructor: each field of a header byte, and each number behind it, is read as it was written. -/
theorem decodeOfEncode : Obligations.DecodeOfEncode :=
  fun _ hwf => decode_eq_ok_iff.mpr ⟨decodeRaw_encode hwf, hwf⟩

/-! ### Words of the tables (log 9) -/

/-- A word that the encoder writes for a well-formed instruction decodes to it. -/
theorem decodeTableWord_of_encode {nbits w : Nat} {i : Instr} (hreq : tableRequest nbits w = encode i) (hwf : i.wf = true) :
    decodeTableWord nbits w = some i := by
  simp [decodeTableWord, hreq, decodeOfEncode i hwf]

/-- Settles O2: each word stands for the request of its instruction with all operands zero, so O3 applies. -/
theorem wordsOfTheTablesDecode : Obligations.WordsOfTheTablesDecode :=
  have word {nbits w : Nat} {i : Instr} := @decodeTableWord_of_encode nbits w i
  ⟨word rfl rfl, word rfl rfl, word rfl rfl, word rfl rfl, word rfl rfl, word rfl rfl, word rfl rfl, word rfl rfl, word rfl rfl,
    word rfl rfl, word rfl rfl, word rfl rfl, word rfl rfl, word rfl rfl, word rfl rfl⟩

/-! ### Encoding what was decoded (R83) -/

theorem decodeCmd_bytes {sel : Byte} {ops : Operands} {i : Instr} (h : decodeCmd sel ops = .ok i) : (encode i).bytes = [sel] := by
  unfold decodeCmd at h
  split_ifs at h <;> cases h <;> simp [encode, *]

theorem nalByte_cons_of_type {b : Byte} {ty : BitVec 5} (rest : Buffer) (h : nalType b = ty) :
    nalByte (nalRef b) ty :: rest = b :: rest := by
  rw [← h, nalByte_eta]

theorem encode_decodeNal (b : Byte) (rest : Buffer) (ts : BitVec 32) :
    (encode (decodeNal b rest ts)).space = .nalhdr ∧ (encode (decodeNal b rest ts)).bytes = b :: rest := by
  unfold decodeNal
  cases haction : nalAction (nalType b) with
  | rsvd | snal => simp [encode]
  | stapa => exact ⟨rfl, nalByte_cons_of_type rest (nalAction_eq_stapa.mp haction)⟩
  | stapb => exact ⟨rfl, nalByte_cons_of_type rest (nalAction_eq_stapb.mp haction)⟩
  | mtap16 => exact ⟨rfl, nalByte_cons_of_type rest (nalAction_eq_mtap16.mp haction)⟩
  | mtap24 => exact ⟨rfl, nalByte_cons_of_type rest (nalAction_eq_mtap24.mp haction)⟩
  | fua => exact ⟨rfl, nalByte_cons_of_type rest (nalAction_eq_fua.mp haction)⟩
  | fub => exact ⟨rfl, nalByte_cons_of_type rest (nalAction_eq_fub.mp haction)⟩

theorem encode_decodeFu (ref : BitVec 3) (b : Byte) (data : Buffer) (ts : BitVec 32) :
    (encode (decodeFu ref b data ts)).space = .fuhdr ∧ (encode (decodeFu ref b data ts)).bytes = b :: data := by
  have heta := fuByte_eta b
  unfold decodeFu
  cases hS : fuS b <;> cases hE : fuE b <;> rw [hS, hE] at heta <;> simp [encode, heta]

theorem encode_decodeFix {bs : Buffer} {i : Instr} (h : decodeFix bs = .ok i) :
    (encode i).space = .rtpfix ∧ (encode i).bytes = bs := by
  unfold decodeFix at h
  split_ifs at h with hlen hversion
  cases h
  rw [not_not] at hversion
  have hbytes := fixBytes_of_fields (Nat.le_of_not_lt hlen)
  rw [hversion] at hbytes
  exact ⟨rfl, hbytes⟩

/-- What is read in a space is encoded in it, to the bytes it was read from. -/
theorem encode_decodeRaw {r : Request} {i : Instr} (h : decodeRaw r = .ok i) :
    (encode i).space = r.space ∧ (encode i).bytes = r.bytes := by
  obtain ⟨space, bytes, ops⟩ := r
  match space, bytes, h with
  | .cmd, [sel], h => exact ⟨decodeCmd_space h, decodeCmd_bytes h⟩
  | .nalhdr, b :: rest, h => cases h; exact encode_decodeNal b rest ops.ts
  | .fuhdr, b :: data, h => cases h; exact encode_decodeFu ops.ref b data ops.ts
  | .rtpfix, bs, h => exact encode_decodeFix h
  | .snalpkt, bs, h => cases h; exact ⟨rfl, rfl⟩
  | .fuapkt, bs, h => cases h; exact ⟨rfl, rfl⟩

/-- Settles O4, space by space. -/
theorem encodeOfDecodeKeepsBytes : Obligations.EncodeOfDecodeKeepsBytes := by
  intro r i h
  obtain ⟨hraw, hwf⟩ := decode_ok h
  exact ⟨hwf, encode_decodeRaw hraw⟩

/-! ### Parts of a fixed header and a CSRC list as numbers (R61, R62) -/

theorem toNat_readCsrc {b : Buffer} {cc i : Nat} (hi : i < cc) :
    ((readCsrc b cc).getD i 0).toNat = memRead b (12 + 4 * i) 4 := by
  rw [readCsrc, List.getD_eq_getElem?_getD, List.getElem?_map, List.getElem?_range hi]
  exact toNat_ofNat_memRead b (12 + 4 * i) 4

theorem readCsrc_length (b : Buffer) (cc : Nat) : (readCsrc b cc).length = cc := by simp [readCsrc]

theorem parsed_cc (inp : Buffer) : (parsed inp).cc.toNat = csrcCount inp :=
  (BitVec.toNat_ofNat ..).trans (Nat.mod_eq_of_lt (Nat.mod_lt _ (by decide)))

theorem hasPad_eq_fixP (inp : Buffer) : hasPad inp = fixP (byteAt inp 0) := (fixP_eq _).symm

theorem hasExt_eq_fixX (inp : Buffer) : hasExt inp = fixX (byteAt inp 0) := (fixX_eq _).symm

/-- The computed record has every field where R45 puts it. -/
theorem parsed_isRecordOf (inp : Buffer) : IsRecordOf inp (parsed inp) := by
  refine ⟨rfl, rfl, rfl, parsed_cc inp, fixM_eq _, fixPt_toNat _, toNat_ofNat_memRead inp 2 2, toNat_ofNat_memRead inp 4 4,
    toNat_ofNat_memRead inp 8 4, readCsrc_length .., fun _ => toNat_readCsrc, fun hext => ?_, fun hext => ?_, rfl⟩
  · simp only [parsed, hext, if_true]
    exact ⟨toNat_ofNat_memRead inp (headEnd inp) 2, toNat_ofNat_memRead inp (headEnd inp + 2) 2, trivial⟩
  · simp [parsed, hext]

theorem exec_rtpfix (p x : Bool) (cc : BitVec 4) (m : Bool) (pt : BitVec 7) (seq : BitVec 16) (ts ssrc : BitVec 32)
    (rest : Buffer) (s : State) : exec (.rtpfix p x cc m pt seq ts ssrc rest) s =
      .next (concludePkt (deser (fixBytes Config.rtpVersion p x cc m pt seq ts ssrc ++ rest)) s) := rfl

theorem deser_of_accepts {inp : Buffer} (h : deserAccepts inp) : deser inp = .ok (parsed inp) := by
  rw [deser_eq, if_pos ((deserAccepts_iff inp).mp h)]

theorem deser_of_not_accepts {inp : Buffer} (h : ¬deserAccepts inp) : deser inp = .error (deserStatus inp) := by
  rw [deser_eq, if_neg (mt (deserAccepts_iff inp).mpr h)]

/-- The fixed header, byte by byte (R61). -/
theorem fixBytes_eq (p x : Bool) (cc : BitVec 4) (m : Bool) (pt : BitVec 7) (seq : BitVec 16) (ts ssrc : BitVec 32) :
    fixBytes Config.rtpVersion p x cc m pt seq ts ssrc =
      [BitVec.ofNat 8 (128 + p.toNat * 32 + x.toNat * 16 + cc.toNat), BitVec.ofNat 8 (m.toNat * 128 + pt.toNat)] ++
        memWrite 2 seq.toNat ++ memWrite 4 ts.toNat ++ memWrite 4 ssrc.toNat := by
  rw [fixBytes, fixByte0_eq, fixByte1_eq]
  rfl

/-- The record of a packet that begins with a fixed header has that header's fields. -/
theorem parsed_fixBytes (p x : Bool) (cc : BitVec 4) (m : Bool) (pt : BitVec 7) (seq : BitVec 16) (ts ssrc : BitVec 32)
    (rest : Buffer) {k : Pkt} (hk : parsed (fixBytes Config.rtpVersion p x cc m pt seq ts ssrc ++ rest) = k) :
    k.p = p ∧ k.x = x ∧ k.cc = cc ∧ k.m = m ∧ k.pt = pt ∧ k.seq = seq ∧ k.ts = ts ∧ k.ssrc = ssrc := by
  subst hk
  simp only [parsed, hasPad_eq_fixP, hasExt_eq_fixX, csrcCount, ← fixCc_toNat, byteAt_fixBytes_zero, byteAt_fixBytes_one,
    memRead_fixBytes_seq, memRead_fixBytes_ts, memRead_fixBytes_ssrc]
  simp

/-- Settles O18: RTPFIX reads the header's bytes back through DESER. -/
theorem fixedHeaderIsRead : Obligations.FixedHeaderIsRead := by
  intro p x cc m pt seq ts ssrc rest s inp
  have hinp : inp = fixBytes Config.rtpVersion p x cc m pt seq ts ssrc ++ rest := by rw [fixBytes_eq]
  rw [exec_rtpfix, hinp]
  refine ⟨fun hreject => ?_, fun haccept => ?_⟩
  · rw [deser_of_not_accepts hreject]; rfl
  · rw [deser_of_accepts haccept]
    exact ⟨_, rfl, parsed_isRecordOf _, rfl, parsed_fixBytes p x cc m pt seq ts ssrc rest rfl⟩

/-! ### The CSRC list (R62) -/

theorem hasCsrcList_of_memRead {b : Buffer} {k : Pkt} (hlen : 12 + 4 * k.cc.toNat ≤ b.length)
    (hread : ∀ i, i < k.cc.toNat → (k.csrc.getD i 0).toNat = memRead b (12 + 4 * i) 4) : HasCsrcList b k := by
  refine ⟨hlen, Nat.le_of_lt_succ k.cc.isLt, fun i hi => ?_⟩
  rw [hread i hi, memRead_four (by omega)]
  simp only [Nat.add_right_comm 12 (4 * i)]

theorem parsed_hasCsrcList {inp : Buffer} (h : deserAccepts inp) : HasCsrcList inp (parsed inp) := by
  obtain ⟨-, -, hlen, -⟩ := h
  have hcc := parsed_cc inp
  refine hasCsrcList_of_memRead (by rw [hcc]; exact hlen) fun i hi => ?_
  exact toNat_readCsrc (hcc ▸ hi)

/-- What DESER answers with a record. -/
theorem deser_decoded {inp : Buffer} {k : Pkt} (h : exec (.deser inp) s = .next (decoded k s)) :
    deserAccepts inp ∧ k = parsed inp := by
  have hport : (concludePkt (deser inp) s).resPkt = some k := congrArg State.resPkt (Host.Outcome.next.inj h)
  by_cases haccept : deserAccepts inp
  · rw [deser_of_accepts haccept] at hport
    cases hport
    exact ⟨haccept, rfl⟩
  · rw [deser_of_not_accepts haccept] at hport
    cases hport

theorem headerBytes_append_eq (k : Pkt) (post : Buffer) : headerBytes k ++ post =
    fixBytes k.v k.p k.x k.cc k.m k.pt k.seq k.ts k.ssrc ++ (csrcBytes k ++ (extBytes k ++ post)) := by
  rw [← writeHdr_eq, writeHdr, List.append_assoc, List.append_assoc]

/-- The words that `WRITEHDR` takes from the CSRC file are read back, whatever follows the header. -/
theorem readCsrc_headerBytes {k : Pkt} (hcsrc : k.cc.toNat ≤ k.csrc.length) (post : Buffer) :
    readCsrc (headerBytes k ++ post) k.cc.toNat = k.csrc.take k.cc.toNat := by
  have hread := readCsrc_flatMap (fixBytes k.v k.p k.x k.cc k.m k.pt k.seq k.ts k.ssrc) (fixBytes_length ..)
    (k.csrc.take k.cc.toNat) (extBytes k ++ post)
  rw [List.length_take_of_le hcsrc] at hread
  rw [headerBytes_append_eq]
  exact hread

theorem headerBytes_hasCsrcList {k : Pkt} (hk : k.complete = true) (post : Buffer) : HasCsrcList (headerBytes k ++ post) k := by
  obtain ⟨hcsrc, -⟩ := (complete_iff k).mp hk
  refine hasCsrcList_of_memRead ?_ fun i hi => ?_
  · rw [List.length_append, headerBytes_length k hk, headerLength]
    omega
  · have hslot : k.csrc.getD i 0 = (k.csrc.take k.cc.toNat).getD i 0 := by simp [hi]
    rw [hslot, ← readCsrc_headerBytes hcsrc post]
    exact toNat_readCsrc hi

theorem hdrLen_eq (k : Pkt) : hdrLen k = headerLength k := rfl

theorem serHdr_of_fits {k : Pkt} {cap : Nat} (hv : k.v = 2) (hcap : headerLength k ≤ cap) :
    serHdr k cap = .ok (headerBytes k) := by
  rw [serHdr, if_neg (not_not.mpr hv : ¬k.v ≠ Config.rtpVersion), hdrLen_eq, if_neg (Nat.not_lt.mpr hcap), writeHdr_eq]

theorem ser_of_fits {k : Pkt} {cap : Nat} (hv : k.v = 2) (hcap : headerLength k + k.pay.length ≤ cap) :
    ser k cap = .ok (headerBytes k ++ k.pay) := by
  rw [ser, if_neg (not_not.mpr hv : ¬k.v ≠ Config.rtpVersion), hdrLen_eq, payLen, if_neg (Nat.not_lt.mpr hcap), writeHdr_eq]

/-- Settles O57: DESER's words are read from the list, and those of SERHDR and SER are read back from what they write. -/
theorem csrcListLayout : Obligations.CsrcListLayout := by
  refine ⟨fun inp s k hexec => ?_, fun k cap s hk hv hcap => ?_, fun k cap s hk hv hcap => ?_⟩
  · obtain ⟨haccept, rfl⟩ := deser_decoded hexec
    exact ⟨(readCsrc_length ..).trans (parsed_cc inp).symm, parsed_hasCsrcList haccept⟩
  · refine ⟨headerBytes k, ?_, ?_⟩
    · rw [exec, execSerhdr, serHdr_of_fits hv hcap]; rfl
    · simpa using headerBytes_hasCsrcList hk []
  · refine ⟨headerBytes k ++ k.pay, ?_, headerBytes_hasCsrcList hk k.pay⟩
    rw [exec, execSer, ser_of_fits hv hcap]; rfl

/-! ### Aggregation packets (R73 to R76, R137) -/

/-- `AGG` behind `start` bytes delivers the units of a sequence of well-formed entries. -/
theorem agg_of_entries {start w : Nat} {hdr : Buffer} (hstart : hdr.length = start) {es : List (Buffer × Byte × Nat)}
    (hes : ∀ e ∈ es, unitFits e.1 ∧ e.2.2 < 256 ^ w) (ts : BitVec 32) (s : State) :
    agg start w (hdr ++ es.flatMap (anyEntry w)) ts s =
      (deliverAll (es.map fun e => (e.1, ts + if w = 0 then 0 else BitVec.ofNat 32 e.2.2)) s, .ok) := by
  subst hstart
  have hlen : (es.flatMap (anyEntry w)).length ≤ (hdr ++ es.flatMap (anyEntry w)).length := by simp
  rw [agg, if_neg (by simp), List.drop_left, aggEntries_of_entries w ts es _ hes hlen]

/-- The state after an aggregation packet's units are delivered (R137, R147). -/
def afterUnits (us : List (Buffer × BitVec 32)) (s : State) : State :=
  withResult .ok { s with trace := s.trace ++ unitEvents s.loss us, loss := s.loss && us.isEmpty }

theorem finish_deliverAll (hs : s.session = true) (us : List (Buffer × BitVec 32)) :
    inSession s (finishWith (deliverAll us s, .ok)) = .next (afterUnits us s) := by
  rw [inSession_of hs, finishWith, deliverAll_eq]
  rfl

theorem stap_agg {start : Nat} {hdr : Buffer} (hs : s.session = true) (hstart : hdr.length = start) {us : List Buffer}
    (hus : ∀ u ∈ us, unitFits u) (ts : BitVec 32) :
    inSession s (finishWith (agg start 0 (hdr ++ us.flatMap stapEntry) ts s)) = .next (afterUnits (us.map fun u => (u, ts)) s) := by
  have hfit : ∀ e ∈ us.map (fun u => (u, (0 : Byte), 0)), unitFits e.1 ∧ e.2.2 < 256 ^ 0 := by simpa using hus
  have hagg := agg_of_entries (w := 0) hstart hfit ts s
  simp only [List.flatMap_map, List.map_map, Function.comp_def, anyEntry, if_true, add_zero] at hagg
  rw [hagg, finish_deliverAll hs]

theorem mtap_agg {w : Nat} (hw : w ≠ 0) {hdr : Buffer} (hs : s.session = true) (hstart : hdr.length = 3)
    {es : List (Buffer × Byte × Nat)} (hunits : ∀ e ∈ es, unitFits e.1) (hoffsets : ∀ e ∈ es, e.2.2 < 256 ^ w) (ts : BitVec 32) :
    inSession s (finishWith (agg 3 w (hdr ++ es.flatMap (mtapEntry w)) ts s)) =
      .next (afterUnits (es.map fun e => (e.1, ts + BitVec.ofNat 32 e.2.2)) s) := by
  have hagg := agg_of_entries (w := w) hstart (fun e he => ⟨hunits e he, hoffsets e he⟩) ts s
  have hentry : anyEntry w = mtapEntry w := funext fun _ => if_neg hw
  simp only [hentry, hw, if_false] at hagg
  rw [hagg, finish_deliverAll hs]

theorem afterUnits_map {α : Type} (f : α → Buffer × BitVec 32) (xs : List α) (s : State) : afterUnits (xs.map f) s =
    withResult .ok { s with trace := s.trace ++ unitEvents s.loss (xs.map f), loss := s.loss && xs.isEmpty } := by
  rw [afterUnits, List.isEmpty_map]

/-- Settles O36: the NAL header, and in a STAP-B the DON, stand before the entries. -/
theorem stapDeliversUnits : Obligations.StapDeliversUnits := by
  intro ref d0 d1 us ts s hs hus t
  rw [show t = afterUnits (us.map fun u => (u, ts)) s from (afterUnits_map ..).symm]
  exact ⟨stap_agg (hdr := [nalByte ref 24]) hs rfl hus ts, stap_agg (hdr := [nalByte ref 25, d0, d1]) hs rfl hus ts⟩

/-- Settles O37: the NAL header and the DONB stand before the entries. -/
theorem mtapDeliversUnits : Obligations.MtapDeliversUnits := by
  intro ref d0 d1 es ts s hs hunits t
  rw [show t = afterUnits (es.map fun e => (e.1, ts + BitVec.ofNat 32 e.2.2)) s from (afterUnits_map ..).symm]
  exact ⟨fun hoffsets => mtap_agg (hdr := [nalByte ref 26, d0, d1]) (by decide) hs rfl hunits hoffsets ts,
    fun hoffsets => mtap_agg (hdr := [nalByte ref 27, d0, d1]) (by decide) hs rfl hunits hoffsets ts⟩

/-! ### The Annex-B byte stream (R69, R112, R113) -/

theorem findStartCode_of_isStartCode {inp : Buffer} {p : Nat} (h : isStartCode inp p = true) : findStartCode inp p = some p := by
  obtain ⟨hlen, -⟩ := (isStartCode_iff inp p).mp h
  rw [findStartCode, show inp.length - p = (inp.length - p - 1) + 1 by omega, List.range'_succ, List.find?_cons_of_pos h]

/-- The search passes over offsets without a start code. -/
theorem findStartCode_skip {inp : Buffer} {p q : Nat} (hpq : p ≤ q) (hq : q ≤ inp.length)
    (h : ∀ i, p ≤ i → i < q → isStartCode inp i = false) : findStartCode inp p = findStartCode inp q := by
  have hrange : List.range' p (inp.length - p) = List.range' p (q - p) ++ List.range' q (inp.length - q) := by
    have happend := List.range'_append (s := p) (m := q - p) (n := inp.length - q) (step := 1)
    rw [← Nat.sub_add_sub_cancel hq hpq, Nat.add_comm, ← happend, Nat.one_mul, Nat.add_sub_cancel' hpq]
  have hnone : (List.range' p (q - p)).find? (isStartCode inp) = none := by
    rw [List.find?_eq_none]
    intro i hi
    obtain ⟨hlo, hhi⟩ := List.mem_range'_1.mp hi
    simp [h i hlo (by omega)]
  rw [findStartCode, hrange, List.find?_append, hnone, Option.none_or, findStartCode]

theorem annexB_cons (nal : Buffer) (nals : List Buffer) :
    annexB (nal :: nals) = 0x00#8 :: 0x00#8 :: 0x01#8 :: (nal ++ annexB nals) := by
  simp [annexB]

theorem length_le_annexB_length (nals : List Buffer) : nals.length ≤ (annexB nals).length := by
  induction nals with
  | nil => exact le_rfl
  | cons nal nals ih =>
    simp only [annexB_cons, List.length_cons, List.length_append]
    omega

/-- A start code behind a first part is one of the second part. -/
theorem isStartCode_append (pre b : Buffer) (i : Nat) : isStartCode (pre ++ b) (pre.length + i) = isStartCode b i := by
  rw [Bool.eq_iff_iff, isStartCode_iff, isStartCode_iff]
  simp only [Nat.add_assoc, byteAt_append_right, List.length_append, Nat.add_lt_add_iff_left]

theorem findStartCode_annexB_cons (pre nal : Buffer) (nals : List Buffer) :
    findStartCode (pre ++ annexB (nal :: nals)) pre.length = some pre.length := by
  apply findStartCode_of_isStartCode
  rw [annexB_cons]
  exact (isStartCode_append pre _ 0).trans (by simp [isStartCode, byteAt])

/-- A search from the end of a unit finds the unit's end: the next start code, or none, which stands for the input's end. -/
theorem findStartCode_annexB_getD (pre : Buffer) (nals : List Buffer) :
    (findStartCode (pre ++ annexB nals) pre.length).getD (pre ++ annexB nals).length = pre.length := by
  cases nals with
  | nil => simp [annexB, findStartCode]
  | cons nal nals => rw [findStartCode_annexB_cons, Option.getD_some]

/-- No start code begins inside a safe unit: not within it, and not with its last byte or two, for that byte is not zero. -/
theorem isStartCode_inside_unit {nal : Buffer} (hnal : streamSafe nal) (post : Buffer) {i : Nat} (hi : i < nal.length) :
    isStartCode (nal ++ post) i = false := by
  obtain ⟨-, hlast, hnone⟩ := hnal
  by_contra hcode
  rw [Bool.not_eq_false, isStartCode_iff] at hcode
  obtain ⟨-, h0, h1, h2⟩ := hcode
  rw [byteAt_append_left _ _ _ hi] at h0
  rcases Nat.lt_trichotomy (i + 2) nal.length with hin | hend | hend
  · rw [byteAt_append_left _ _ _ (by omega)] at h1 h2
    exact hnone i ⟨hin, h0, h1, h2⟩
  · rw [byteAt_append_left _ _ _ (by omega), show i + 1 = nal.length - 1 by omega] at h1
    exact hlast h1
  · rw [show i = nal.length - 1 by omega] at h0
    exact hlast h0

/-- A span that does not end in a zero byte keeps all its bytes. -/
theorem stripEnd_of_last_ne_zero {inp : Buffer} {b e : Nat} (hbe : b < e) (h : byteAt inp (e - 1) ≠ 0) :
    stripEnd inp b (e - b) = e := by
  obtain ⟨k, rfl⟩ := Nat.exists_eq_add_of_lt hbe
  rw [Nat.add_assoc, Nat.add_sub_cancel_left]
  exact if_neg h

/-- One turn of `NALSCAN`: from the start code at the end of `start`, the span of the safe unit behind it. -/
theorem nalSpansFrom_unit {start nal : Buffer} {i : Nat} (hstart : start.length = i + 3) (hnal : streamSafe nal)
    (nals : List Buffer) (fuel : Nat) :
    nalSpansFrom (start ++ nal ++ annexB nals) (fuel + 1) (some i) = (start.length, (start ++ nal).length) ::
      nalSpansFrom (start ++ nal ++ annexB nals) fuel
        (findStartCode (start ++ nal ++ annexB nals) (start ++ nal).length) := by
  have hfind : findStartCode (start ++ nal ++ annexB nals) start.length =
      findStartCode (start ++ nal ++ annexB nals) (start ++ nal).length := by
    refine findStartCode_skip (by simp) (by simp) fun j hlo hhi => ?_
    obtain ⟨m, rfl⟩ := Nat.exists_eq_add_of_le hlo
    rw [List.append_assoc, isStartCode_append]
    exact isStartCode_inside_unit hnal _ (by simpa using hhi)
  obtain ⟨hne, hend, -⟩ := hnal
  have hpos : 0 < nal.length := List.length_pos_iff.mpr hne
  have hlast : byteAt (start ++ nal ++ annexB nals) ((start ++ nal).length - 1) ≠ 0 := by
    rw [byteAt_append_left _ _ _ (by simp; omega), List.length_append, Nat.add_sub_assoc hpos, byteAt_append_right]
    exact hend
  rw [nalSpansFrom, ← hstart, hfind, findStartCode_annexB_getD, stripEnd_of_last_ne_zero (by simp; omega) hlast]

theorem slice_middle (a b c : Buffer) : slice (a ++ b ++ c) a.length ((a ++ b).length - a.length) = b := by
  simp [slice]

/-- The bytes of the spans from the end of `pre` on are the units. -/
theorem map_slice_nalSpansFrom {nals : List Buffer} (hsafe : ∀ nal ∈ nals, streamSafe nal) (pre : Buffer) {fuel : Nat}
    (hfuel : nals.length ≤ fuel) :
    (nalSpansFrom (pre ++ annexB nals) fuel (findStartCode (pre ++ annexB nals) pre.length)).map
      (fun be => slice (pre ++ annexB nals) be.1 (be.2 - be.1)) = nals := by
  induction nals generalizing pre fuel with
  | nil => simp [annexB, findStartCode, nalSpansFrom]
  | cons nal nals ih =>
    obtain ⟨hnal, hrest⟩ := List.forall_mem_cons.mp hsafe
    obtain _ | fuel := fuel
    · simp at hfuel
    have hbytes : pre ++ annexB (nal :: nals) = pre ++ [0x00#8, 0x00#8, 0x01#8] ++ nal ++ annexB nals := by simp [annexB_cons]
    rw [findStartCode_annexB_cons, hbytes, nalSpansFrom_unit (by simp) hnal, List.map_cons, slice_middle,
      ih hrest _ (Nat.le_of_succ_le_succ hfuel)]

/-- Settles O21: every span starts behind the part of the stream already read, and ends where the next unit's start code is. -/
theorem annexBStreamIsSplit : Obligations.AnnexBStreamIsSplit := by
  intro nals hsafe
  have hunits := map_slice_nalSpansFrom hsafe [] (length_le_annexB_length nals)
  rw [nalUnits, nalSpans]
  simp only [List.nil_append, List.length_nil] at hunits
  rw [hunits, List.filter_eq_self]
  intro nal hmem
  obtain ⟨hne, -⟩ := hsafe nal hmem
  simpa using hne

end Sys2Proof.Machine

namespace Sys2Proof.Machine

/-! The Wire Codec (spec/40_wire_codec.md): what DESER, SERHDR and SER answer, in the words of the layout (R45); the bytes that
SER writes for a record which DESER read; and that no instruction of the unit reads or writes the state beside the result. -/

open Claims Laws

variable {s t : State} {inp : Buffer} {k : Pkt} {cap : Nat}

/-! ### What each command answers (R91, R95 to R97) -/

/-- DESER of an acceptable packet answers its computed record (R91, R95). -/
theorem exec_deser_of_accepts (s : State) (h : deserAccepts inp) : exec (.deser inp) s = .next (decoded (parsed inp) s) := by
  rw [exec, execDeser, deser_of_accepts h]; rfl

/-- A record that DESER hands back is the computed one, of a packet that it accepts (R91, R95). -/
theorem deser_resPkt (hexec : exec (.deser inp) s = .next t) (hport : t.resPkt = some k) :
    deserAccepts inp ∧ k = parsed inp := by
  cases hexec
  by_cases haccept : deserAccepts inp
  · rw [deser_of_accepts haccept] at hport
    cases hport
    exact ⟨haccept, rfl⟩
  · rw [deser_of_not_accepts haccept] at hport
    cases hport

/-- SERHDR with room writes the header (R96). -/
theorem exec_serhdr_of_fits (s : State) (hv : k.v = 2) (hcap : headerLength k ≤ cap) :
    exec (.serhdr k cap) s = .next (wrote (headerBytes k) s) := by
  rw [exec, execSerhdr, serHdr_of_fits hv hcap]; rfl

/-- SER with room writes the header and then the payload (R97). -/
theorem exec_ser_of_fits (s : State) (hv : k.v = 2) (hcap : headerLength k + k.pay.length ≤ cap) :
    exec (.ser k cap) s = .next (wrote (headerBytes k ++ k.pay) s) := by
  rw [exec, execSer, ser_of_fits hv hcap]; rfl

/-- Settles O14: the length is that of a complete record's header. -/
theorem serhdrWritesHeader : Obligations.SerhdrWritesHeader :=
  fun k _ s hk hv hcap => ⟨headerBytes_length k hk, exec_serhdr_of_fits s hv hcap⟩

/-- Settles O15: one capacity test covers header and payload. -/
theorem serWritesPacket : Obligations.SerWritesPacket := fun _ _ s _ hv hcap => exec_ser_of_fits s hv hcap

/-! ### Lengths of an accepted packet's parts (R45, R63 to R66) -/

theorem slice_length {b : Buffer} {o n : Nat} (h : o + n ≤ b.length) : (slice b o n).length = n := by
  rw [slice, List.length_take, List.length_drop]
  omega

theorem parsed_x (inp : Buffer) : (parsed inp).x = hasExt inp := rfl

theorem parsed_csrc_length (inp : Buffer) : (parsed inp).csrc.length = csrcCount inp := readCsrc_length ..

/-- The extension fields of the computed record (R63). -/
theorem parsed_extension (hext : hasExt inp = true) :
    (parsed inp).extRsvd.toNat = memRead inp (headEnd inp) 2 ∧ (parsed inp).extLen.toNat = extWords inp ∧
      (parsed inp).ext = slice inp (headEnd inp + 4) (4 * extWords inp) := by
  obtain ⟨-, -, -, -, -, -, -, -, -, -, -, h, -⟩ := parsed_isRecordOf inp
  exact h hext

theorem headerLength_parsed (inp : Buffer) : headerLength (parsed inp) = headEnd inp + extSize inp := by
  rw [headerLength, parsed_cc, parsed_x, extSize, headEnd]
  by_cases hext : hasExt inp = true
  · obtain ⟨-, hwords, -⟩ := parsed_extension hext
    rw [hwords]
  · rw [if_neg hext, if_neg hext]

/-- Header and padding of an accepted packet leave room for each other (R91 steps 5, 7, 8). -/
theorem headerLength_add_padCount_le (h : deserAccepts inp) : headEnd inp + extSize inp + padCount inp ≤ inp.length := by
  obtain ⟨-, -, hhead, hext, hpad⟩ := h
  by_cases hP : hasPad inp = true
  · exact (hpad hP).2
  · rw [padCount, if_neg hP]
    by_cases hX : hasExt inp = true
    · exact (hext hX).2
    · rw [extSize, if_neg hX]; exact hhead

theorem parsed_pay_length (h : deserAccepts inp) :
    (parsed inp).pay.length = inp.length - (headEnd inp + extSize inp) - padCount inp :=
  have := headerLength_add_padCount_le h
  slice_length (by omega)

/-- An accepted packet is its header, its payload and its padding, in lengths (R100). -/
theorem length_eq_parts (h : deserAccepts inp) :
    inp.length = headerLength (parsed inp) + (parsed inp).pay.length + padCount inp := by
  have := headerLength_add_padCount_le h
  rw [headerLength_parsed, parsed_pay_length h]
  omega

/-- The computed record of an accepted packet is a record proper (R11, R13). -/
theorem parsed_wf (h : deserAccepts inp) : (parsed inp).wf = true := by
  have hcsrc : (parsed inp).csrc.length = (parsed inp).cc.toNat := (parsed_csrc_length inp).trans (parsed_cc inp).symm
  have hext : (parsed inp).ext.length = 4 * (parsed inp).extLen.toNat := by
    by_cases hX : hasExt inp = true
    · have hroom := headerLength_add_padCount_le h
      rw [extSize, if_pos hX] at hroom
      obtain ⟨-, hwords, hbytes⟩ := parsed_extension hX
      rw [hwords, hbytes, slice_length (by omega)]
    · simp [parsed, hX]
  simp [Pkt.wf, hcsrc, hext]

/-- Settles O11: the answer is the computed record, which has every field where R45 puts it. -/
theorem deserReadsEveryField : Obligations.DeserReadsEveryField :=
  fun inp s h => ⟨parsed inp, parsed_isRecordOf inp, parsed_wf h, exec_deser_of_accepts s h⟩

/-- Settles O13: the length law of the computed record. -/
theorem deserLengthLaw : Obligations.DeserLengthLaw := by
  intro inp s t k hexec hport
  obtain ⟨haccept, rfl⟩ := deser_resPkt hexec hport
  exact length_eq_parts haccept

/-! ### The bytes of a record that DESER read (R99) -/

/-- The fixed header of the computed record is the packet's first 12 bytes (R61). -/
theorem fixBytes_parsed (h : deserAccepts inp) :
    fixBytes (parsed inp).v (parsed inp).p (parsed inp).x (parsed inp).cc (parsed inp).m (parsed inp).pt (parsed inp).seq
      (parsed inp).ts (parsed inp).ssrc = slice inp 0 12 := by
  obtain ⟨hlen, hversion, -⟩ := h
  have hv : (parsed inp).v = fixV (byteAt inp 0) := BitVec.eq_of_toNat_eq ((fixV_toNat _).trans hversion).symm
  have hcc : (parsed inp).cc = fixCc (byteAt inp 0) :=
    BitVec.eq_of_toNat_eq ((parsed_cc inp).trans (fixCc_toNat _).symm)
  have hbytes := congrArg (List.take 12) (fixBytes_of_fields hlen)
  rw [List.take_left' (fixBytes_length ..)] at hbytes
  rw [hv, hcc, slice, List.drop_zero, ← hbytes, ← hasPad_eq_fixP, ← hasExt_eq_fixX]
  rfl

/-- CSRC words that were read are written back to the bytes they were read from (R62). -/
theorem readCsrc_flatMap_memWrite (b : Buffer) (n : Nat) (h : 12 + 4 * n ≤ b.length) :
    (readCsrc b n).flatMap (fun w => memWrite 4 w.toNat) = slice b 12 (4 * n) := by
  induction n with
  | zero => rfl
  | succ n ih =>
    have hword : memWrite 4 (BitVec.ofNat 32 (memRead b (12 + 4 * n) 4)).toNat = slice b (12 + 4 * n) 4 := by
      rw [toNat_ofNat_memRead b (12 + 4 * n) 4, memWrite_memRead _ _ _ (by omega)]
    have hsnoc : readCsrc b (n + 1) = readCsrc b n ++ [BitVec.ofNat 32 (memRead b (12 + 4 * n) 4)] := by
      rw [readCsrc, List.range_succ, List.map_append]; rfl
    rw [hsnoc, List.flatMap_append, ih (by omega), List.flatMap_singleton, hword, slice_append_slice]
    rfl

/-- The CSRC list of the computed record is the packet's (R62). -/
theorem csrcBytes_parsed (h : deserAccepts inp) : csrcBytes (parsed inp) = slice inp 12 (4 * csrcCount inp) := by
  obtain ⟨-, -, hhead, -⟩ := h
  rw [csrcBytes, parsed_cc, List.take_of_length_le (parsed_csrc_length inp).le]
  exact readCsrc_flatMap_memWrite inp (csrcCount inp) hhead

/-- The extension of the computed record is written back to the bytes it was read from (R63). -/
theorem extBytes_parsed (h : deserAccepts inp) : extBytes (parsed inp) = slice inp (headEnd inp) (extSize inp) := by
  by_cases hX : hasExt inp = true
  · have hroom := headerLength_add_padCount_le h
    have hsize : extSize inp = 2 + 2 + 4 * extWords inp := if_pos hX
    obtain ⟨hrsvd, hwords, hbytes⟩ := parsed_extension hX
    have hlen : memWrite 2 (extWords inp) = slice inp (headEnd inp + 2) 2 := memWrite_memRead _ _ _ (by omega)
    rw [extBytes, parsed_x, if_pos hX, hrsvd, memWrite_memRead _ _ _ (by omega), hwords, hlen, hbytes,
      List.take_of_length_le (slice_length (by omega)).le, slice_append_slice, slice_append_slice, hsize]
  · rw [extBytes, parsed_x, if_neg hX, extSize, if_neg hX]; rfl

/-- The header of the computed record is the packet's, byte for byte (R96, R99). -/
theorem headerBytes_parsed (h : deserAccepts inp) : headerBytes (parsed inp) = slice inp 0 (headEnd inp + extSize inp) := by
  have hcsrc := slice_append_slice inp 0 12 (4 * csrcCount inp)
  have hext := slice_append_slice inp 0 (headEnd inp) (extSize inp)
  rw [Nat.zero_add] at hcsrc hext
  rw [← writeHdr_eq, writeHdr, fixBytes_parsed h, csrcBytes_parsed h, extBytes_parsed h, hcsrc]
  exact hext

/-- What SER writes for the record of an accepted packet: the packet less its padding (R99). -/
theorem headerBytes_append_pay_parsed (h : deserAccepts inp) :
    headerBytes (parsed inp) ++ (parsed inp).pay = inp.take (inp.length - padCount inp) := by
  have hroom := headerLength_add_padCount_le h
  have hpay := slice_append_slice inp 0 (headEnd inp + extSize inp) (inp.length - (headEnd inp + extSize inp) - padCount inp)
  have hlen : headEnd inp + extSize inp + (inp.length - (headEnd inp + extSize inp) - padCount inp) =
      inp.length - padCount inp := by omega
  rw [Nat.zero_add, hlen] at hpay
  rw [headerBytes_parsed h]
  exact hpay

/-- Without the padding flag nothing is taken off (R64). -/
theorem take_length_sub_padCount (inp : Buffer) : inp.take (inp.length - padCount inp) =
    if hasPad inp then inp.take (inp.length - (byteAt inp (inp.length - 1)).toNat) else inp := by
  by_cases hP : hasPad inp = true
  · rw [padCount, if_pos hP, if_pos hP]
  · rw [padCount, if_neg hP, if_neg hP, Nat.sub_zero, List.take_length]

/-- Settles O17: DESER reads back what SER wrote, and SER writes back what DESER read, less the padding. -/
theorem headerRoundTrip : Obligations.HeaderRoundTrip := by
  refine ⟨fun k cap s hwf hv hp hx hcap => ?_, fun inp s t k cap hexec hport hcap => ?_⟩
  · refine ⟨headerBytes k ++ k.pay, exec_ser_of_fits s hv hcap, ?_⟩
    rw [exec, execDeser, deser_written k hwf hv hp hx]; rfl
  · obtain ⟨haccept, rfl⟩ := deser_resPkt hexec hport
    rw [exec_ser_of_fits s rfl hcap, headerBytes_append_pay_parsed haccept, take_length_sub_padCount]
    rfl

/-! ### The unit touches only the result (R90, R34) -/

/-- The instruction ends in one conclusion, the same in every state. -/
def ConcludesAlike (i : Instr) : Prop :=
  ∃ (st : Status) (n : Nat) (pkt : Option Pkt) (out : Buffer), ∀ s, exec i s = .next (conclude st n pkt out s)

theorem concludesAlike_of_concludePkt {i : Instr} {r : Except Status Pkt} (h : ∀ s, exec i s = .next (concludePkt r s)) :
    ConcludesAlike i := by
  cases r with
  | ok k => exact ⟨.ok, 0, some k, [], h⟩
  | error e => exact ⟨e, 0, none, [], h⟩

theorem concludesAlike_of_concludeOut {i : Instr} {r : Except Status Buffer} (h : ∀ s, exec i s = .next (concludeOut r s)) :
    ConcludesAlike i := by
  cases r with
  | ok out => exact ⟨.ok, out.length, none, out, h⟩
  | error e => exact ⟨e, 0, none, [], h⟩

/-- A conclusion writes the result and nothing else, and what it writes does not depend on the state (R29). -/
theorem conclude_frame (st : Status) (n : Nat) (pkt : Option Pkt) (out : Buffer) (s s' : State) :
    SameTx s (conclude st n pkt out s) ∧ SameRx s (conclude st n pkt out s) ∧ SameHost s (conclude st n pkt out s) ∧
      SameOracle s (conclude st n pkt out s) ∧ (conclude st n pkt out s).trace = s.trace ∧
      SameResult (conclude st n pkt out s) (conclude st n pkt out s') := by
  simp [SameTx, SameRx, SameHost, SameOracle, SameResult]

/-- Settles O19: each of the four instructions ends in the conclusion of a result that is computed from its operands. -/
theorem wireCodecIsPure : Obligations.WireCodecIsPure := by
  intro i s s' t t' hi hexec hexec'
  have halike : ConcludesAlike i := by
    rcases hi with ⟨inp, rfl⟩ | ⟨k, cap, rfl⟩ | ⟨k, cap, rfl⟩ | ⟨p, x, cc, m, pt, seq, ts, ssrc, rest, rfl⟩
    · exact concludesAlike_of_concludePkt fun _ => rfl
    · exact concludesAlike_of_concludeOut fun _ => rfl
    · exact concludesAlike_of_concludeOut fun _ => rfl
    · exact concludesAlike_of_concludePkt (exec_rtpfix p x cc m pt seq ts ssrc rest)
  obtain ⟨st, n, pkt, out, hconclude⟩ := halike
  rw [hconclude] at hexec hexec'
  cases hexec
  cases hexec'
  exact conclude_frame st n pkt out s s'

end Sys2Proof.Machine

namespace Sys2Proof.Machine

/-! The H.264 Packetizer (spec/41_h264_packetizer.md): the spans of the boundary detector, what each instruction of the unit
sends and where a denied allocation stops it, and the laws of the packets and fragments sent. -/

open Claims Laws

variable {s t : State} {inp nal : Buffer} {q : List (Bool × Buffer)}

/-! ### The boundary detector (R112, R113) -/

/-- Where the span behind the start code at `i` stops before the strip: the next start code or the end of the input. -/
def spanStop (inp : Buffer) (i : Nat) : Nat := (findStartCode inp (i + 3)).getD inp.length

/-- The span that the start code at `i` begins. -/
def spanAt (inp : Buffer) (i : Nat) : Nat × Nat := (i + 3, stripEnd inp (i + 3) (spanStop inp i - (i + 3)))

theorem nalSpansFrom_succ (inp : Buffer) (fuel i : Nat) :
    nalSpansFrom inp (fuel + 1) (some i) = spanAt inp i :: nalSpansFrom inp fuel (findStartCode inp (i + 3)) := rfl

theorem spanStop_spec {i : Nat} (hi : startCodeAt inp i) :
    i + 3 ≤ spanStop inp i ∧ spanStop inp i ≤ inp.length ∧
      (spanStop inp i = inp.length ∨ startCodeAt inp (spanStop inp i)) ∧
      ∀ j, i + 3 ≤ j → j < spanStop inp i → ¬startCodeAt inp j := by
  simp only [startCodeAt_iff, Bool.not_eq_true] at hi ⊢
  obtain ⟨hlen, -⟩ := (isStartCode_iff inp i).mp hi
  rw [spanStop]
  cases hfind : findStartCode inp (i + 3) with
  | none => exact ⟨hlen, le_rfl, .inl rfl, fun j hj _ => findStartCode_none hfind j hj⟩
  | some j =>
    obtain ⟨hle, hcode, hleast⟩ := findStartCode_some hfind
    obtain ⟨hj, -⟩ := (isStartCode_iff inp j).mp hcode
    exact ⟨hle, (by omega : j ≤ inp.length), .inr hcode, hleast⟩

theorem spanAt_spec {i : Nat} (hi : startCodeAt inp i) :
    i + 3 ≤ (spanAt inp i).2 ∧ (spanAt inp i).2 ≤ spanStop inp i ∧
      (i + 3 < (spanAt inp i).2 → byteAt inp ((spanAt inp i).2 - 1) ≠ 0) ∧
      ∀ j, (spanAt inp i).2 ≤ j → j < spanStop inp i → byteAt inp j = 0 := by
  obtain ⟨hstop, -⟩ := spanStop_spec hi
  have hstrip := stripEnd_spec inp (i + 3) (spanStop inp i - (i + 3))
  rwa [Nat.add_sub_cancel' hstop] at hstrip

/-- Start codes do not overlap: the bytes 0, 0, 1 cannot begin again on the second or the third of them. -/
theorem startCodeAt_apart {i j : Nat} (hi : startCodeAt inp i) (hj : startCodeAt inp j) (hij : i < j) : i + 3 ≤ j := by
  obtain ⟨-, -, -, hone⟩ := hi
  obtain ⟨-, hzero, hzero', -⟩ := hj
  by_contra hnear
  obtain rfl | rfl : j = i + 1 ∨ j = i + 2 := by omega
  · exact absurd (hone.symm.trans hzero') (by decide)
  · exact absurd (hone.symm.trans hzero) (by decide)

/-- The search answers a start code wherever one follows. -/
theorem findStartCode_of_le {p i : Nat} (hpi : p ≤ i) (hi : startCodeAt inp i) :
    ∃ j, findStartCode inp p = some j ∧ p ≤ j ∧ startCodeAt inp j ∧ j ≤ i := by
  rw [startCodeAt_iff] at hi
  cases hfind : findStartCode inp p with
  | none => simp [findStartCode_none hfind i hpi] at hi
  | some j =>
    obtain ⟨hpj, hcode, hleast⟩ := findStartCode_some hfind
    refine ⟨j, rfl, hpj, (startCodeAt_iff inp j).mpr hcode, ?_⟩
    by_contra hij
    simp [hleast i hpi (by omega)] at hi

/-- A span reaches no further than the start code of a later one. -/
theorem spanAt_end_le {i j : Nat} (hi : startCodeAt inp i) (hj : startCodeAt inp j) (hij : i + 3 ≤ j) : (spanAt inp i).2 ≤ j := by
  obtain ⟨-, -, -, hnone⟩ := spanStop_spec hi
  obtain ⟨-, hend, -⟩ := spanAt_spec hi
  by_contra hlt
  exact hnone j hij (by omega) hj

/-- What the loop yields, searching from `p`: spans of start codes at `p` or later. -/
theorem nalSpansFrom_sound {fuel p : Nat} {be : Nat × Nat} (h : be ∈ nalSpansFrom inp fuel (findStartCode inp p)) :
    ∃ i, p ≤ i ∧ startCodeAt inp i ∧ be = spanAt inp i := by
  induction fuel generalizing p with
  | zero => cases hfind : findStartCode inp p <;> simp [hfind, nalSpansFrom] at h
  | succ fuel ih =>
    cases hfind : findStartCode inp p with
    | none => simp [hfind, nalSpansFrom] at h
    | some j =>
      obtain ⟨hpj, hcode, -⟩ := findStartCode_some hfind
      rw [hfind, nalSpansFrom_succ, List.mem_cons] at h
      obtain rfl | h := h
      · exact ⟨j, hpj, (startCodeAt_iff inp j).mpr hcode, rfl⟩
      · obtain ⟨i, hi, hspan⟩ := ih h
        exact ⟨i, by omega, hspan⟩

/-- With fuel for the rest of the input, the loop yields the span of every start code from `p` on. -/
theorem nalSpansFrom_complete {fuel p i : Nat} (hfuel : inp.length ≤ p + fuel) (hpi : p ≤ i) (hi : startCodeAt inp i) :
    spanAt inp i ∈ nalSpansFrom inp fuel (findStartCode inp p) := by
  induction fuel generalizing p with
  | zero =>
    obtain ⟨hlen, -⟩ := hi
    omega
  | succ fuel ih =>
    obtain ⟨j, hfind, hpj, hj, hji⟩ := findStartCode_of_le hpi hi
    rw [hfind, nalSpansFrom_succ, List.mem_cons]
    obtain rfl | hlt := Nat.eq_or_lt_of_le hji
    · exact .inl rfl
    · exact .inr (ih (by omega) (startCodeAt_apart hj hi hlt))

theorem mem_nalSpans {be : Nat × Nat} : be ∈ nalSpans inp ↔ ∃ i, startCodeAt inp i ∧ be = spanAt inp i := by
  constructor
  · intro h
    obtain ⟨i, -, hspan⟩ := nalSpansFrom_sound h
    exact ⟨i, hspan⟩
  · rintro ⟨i, hi, rfl⟩
    exact nalSpansFrom_complete (Nat.le_add_left ..) (Nat.zero_le i) hi

/-- The start code of each span stands at or behind the end of the span before it. -/
theorem nalSpansFrom_pairwise (inp : Buffer) (fuel p : Nat) :
    (nalSpansFrom inp fuel (findStartCode inp p)).Pairwise fun x y => x.2 + 3 ≤ y.1 := by
  induction fuel generalizing p with
  | zero => cases findStartCode inp p <;> exact .nil
  | succ fuel ih =>
    cases hfind : findStartCode inp p with
    | none => exact .nil
    | some j =>
      obtain ⟨-, hcode, -⟩ := findStartCode_some hfind
      rw [nalSpansFrom_succ, List.pairwise_cons]
      refine ⟨fun be hbe => ?_, ih (j + 3)⟩
      obtain ⟨i, hji, hi, rfl⟩ := nalSpansFrom_sound hbe
      exact Nat.add_le_add_right (spanAt_end_le ((startCodeAt_iff inp j).mpr hcode) hi hji) 3

/-- Settles O20: the spans are those that the start codes begin, each with the stop and the strip of its own. -/
theorem nalScanFindsUnits : Obligations.NalScanFindsUnits := by
  intro inp
  refine ⟨fun b e hbe => ?_, fun i hi => ⟨_, mem_nalSpans.mpr ⟨i, hi, rfl⟩⟩, nalSpansFrom_pairwise inp _ 0⟩
  obtain ⟨i, hi, hspan⟩ := mem_nalSpans.mp hbe
  obtain ⟨rfl, rfl⟩ := Prod.mk.inj hspan
  obtain ⟨-, hlen, hstop, hnone⟩ := spanStop_spec hi
  obtain ⟨hbegin, hend, hlast, hzero⟩ := spanAt_spec hi
  exact ⟨Nat.le_add_left .., hbegin, hend.trans hlen, hi, hlast, spanStop inp i, hend, hstop, hnone, hzero⟩

/-! ### What each instruction sends (R111, R114 to R116) -/

theorem inSession_of_session (hs : s.session = true) (o : Host.Outcome State Fault Refusal) : inSession s o = o := if_pos hs

theorem fitsSingle_eq (maxPkt : Nat) (nal : Buffer) : fitsSingle maxPkt nal = decide (12 + nal.length ≤ maxPkt) := rfl

/-- From the least legal `MAXPKT` on, fragmentation makes progress (R6, R212). -/
theorem stuckFragments_of_le {maxPkt : Nat} (h : 15 ≤ maxPkt) (nal : Buffer) : stuckFragments maxPkt nal = false := by
  rw [stuckFragments, Config.minMaxPkt, decide_eq_false (Nat.not_lt.mpr h), Bool.false_and]

/-- The marker of a single packet by the arithmetic of R67 and D19. -/
theorem singlePacket_eq (nal : Buffer) :
    singlePacket nal = (decide (1 ≤ (byteAt nal 0).toNat % 32 ∧ (byteAt nal 0).toNat % 32 ≤ 5), nal) := by
  rw [singlePacket, singleMarker, nalType_toNat, ← Bool.decide_and]

theorem exec_hpack_of_le (hs : s.session = true) (hmax : 15 ≤ s.maxPkt) (inp : Buffer) (ts : BitVec 32) :
    exec (.hpack inp ts) s = .next (concludeEmit (emitAll (streamPackets s.maxPkt inp) { s with txTs := ts })) := by
  have hstuck : (nalUnits inp).any (stuckFragments s.maxPkt) = false := by simp [stuckFragments_of_le hmax]
  rw [exec, execHpack, inSession_of_session hs, hstuck, streamPackets_eq]
  rfl

theorem exec_snalpkt (hs : s.session = true) (nal : Buffer) :
    exec (.snalpkt nal) s = if 12 + nal.length ≤ s.maxPkt then
      .next (concludeEmit (emitAll [(decide (1 ≤ (byteAt nal 0).toNat % 32 ∧ (byteAt nal 0).toNat % 32 ≤ 5), nal)] s))
    else .refused .modeNotSelected := by
  rw [exec, execSnalpkt, inSession_of_session hs, fitsSingle_eq, singlePacket_eq]
  simp only [decide_eq_true_eq]

theorem exec_fuapkt_of_fits (hs : s.session = true) (hfits : 12 + nal.length ≤ s.maxPkt) :
    exec (.fuapkt nal) s = .refused .modeNotSelected := by
  rw [exec, execFuapkt, inSession_of_session hs, fitsSingle_eq, if_pos (decide_eq_true hfits)]

theorem exec_fuapkt_of_lt (hs : s.session = true) (hmax : 15 ≤ s.maxPkt) (hlong : s.maxPkt < 12 + nal.length) :
    exec (.fuapkt nal) s = .next (concludeEmit (emitAll (fragments s.maxPkt nal) s)) := by
  rw [exec, execFuapkt, inSession_of_session hs, fitsSingle_eq, decide_eq_false (Nat.not_le_of_lt hlong),
    stuckFragments_of_le hmax]
  rfl

/-- Settles O28. -/
theorem emissionModesExclude : Obligations.EmissionModesExclude := fun nal _ hs =>
  ⟨exec_fuapkt_of_fits hs, fun hlong => (exec_snalpkt hs nal).trans (if_neg (Nat.not_le_of_lt hlong))⟩

/-! ### Every allocation granted (R117, R119) -/

theorem concludeEmit_of_grants {more : List Bool} (h : s.answers = List.replicate q.length true ++ more) :
    concludeEmit (emitAll q s) = afterSending q more s := by
  rw [emitAll_grant q s more h]
  rfl

/-- Settles O22. -/
theorem hpackSendsStream : Obligations.HpackSendsStream := by
  intro inp ts s more hs hmax hgrants
  rw [exec_hpack_of_le hs hmax, concludeEmit_of_grants (s := { s with txTs := ts }) hgrants]

/-- Settles O25. -/
theorem singleNalPacket : Obligations.SingleNalPacket := by
  intro nal s more hs _ hfits hgrant
  rw [exec_snalpkt hs, if_pos hfits, concludeEmit_of_grants hgrant]

/-- Settles O26. -/
theorem fragmentsAreSent : Obligations.FragmentsAreSent := by
  intro nal s more hs hmax hlong hgrants
  rw [exec_fuapkt_of_lt hs hmax hlong, concludeEmit_of_grants hgrants]

/-! ### Whatever the host answers (R120) -/

/-- Each packet sent leaves its allocation, its delivery and its free. -/
theorem sentEvents_length (pt : BitVec 7) (ts ssrc : BitVec 32) (seq : BitVec 16) (q : List (Bool × Buffer)) :
    (sentEvents pt ts ssrc seq q).length = 3 * q.length := by
  induction q generalizing seq with
  | nil => rfl
  | cons p q ih => simp [sentEvents, ih]; omega

/-- What the packetizer leaves behind on a list of packets: how many were sent, and at a denial which one was not. -/
theorem emitAll_sent (q : List (Bool × Buffer)) (s : State) :
    ∃ sent, (emitAll q s).1.txSeq = s.txSeq + BitVec.ofNat 16 sent ∧
      (((emitAll q s).2 = true ∧ sent = q.length ∧
          (emitAll q s).1.trace = s.trace ++ sentEvents s.tplPt s.txTs s.tplSsrc s.txSeq q) ∨
        ∃ m pay, q[sent]? = some (m, pay) ∧ (emitAll q s).2 = false ∧
          (emitAll q s).1.trace =
            s.trace ++ sentEvents s.tplPt s.txTs s.tplSsrc s.txSeq (q.take sent) ++ [.alloc (12 + pay.length) false]) := by
  obtain ⟨sent, ans, fc, ⟨hall, rfl⟩ | ⟨m, pay, hpacket, hdenied⟩⟩ := emitAll_any q s
  · rw [hall]
    exact ⟨q.length, rfl, .inl ⟨rfl, rfl, rfl⟩⟩
  · obtain ⟨hsent, -⟩ := List.getElem?_eq_some_iff.mp hpacket
    rw [hdenied]
    refine ⟨sent, ?_, .inr ⟨m, pay, hpacket, rfl, rfl⟩⟩
    simp [sentState, Nat.min_eq_left hsent.le]

/-- What sending a list leaves in the machine, in the words of the statements. The trace of a denied run has three events for
each packet sent and one more, so that it tells how many were sent. -/
theorem sentOrDenied_emitAll (q : List (Bool × Buffer)) (s : State) : SentOrDenied q s (concludeEmit (emitAll q s)) := by
  obtain ⟨sent, hseq, hend⟩ := emitAll_sent q s
  obtain ⟨hsession, hpt, hssrc, hmax, hts, hrx, -, hhost⟩ := emitAll_frame q s
  refine ⟨sent, hseq, rfl, rfl, rfl, hsession, hpt, hssrc, hmax, hts, hrx, hhost, ?_, fun k more hanswers hk => ?_⟩
  · obtain ⟨hall, hsent, htrace⟩ | ⟨m, pay, hpacket, hdenied, htrace⟩ := hend
    · exact .inl ⟨by simp [concludeEmit, hall], hsent, htrace⟩
    · exact .inr ⟨m, pay, hpacket, by simp [concludeEmit, hdenied], htrace⟩
  · obtain ⟨-, hdeny, hmore, m, pay, -, htrace⟩ := emitAll_deny q s k more hanswers hk
    refine ⟨?_, by simp [concludeEmit, hdeny], hmore⟩
    obtain ⟨hall, -⟩ | ⟨m', pay', hpacket, -, htrace'⟩ := hend
    · simp [hall] at hdeny
    · obtain ⟨hsent, -⟩ := List.getElem?_eq_some_iff.mp hpacket
      have hlength := congrArg List.length (htrace'.symm.trans htrace)
      simp only [sentState, List.length_append, List.length_singleton, sentEvents_length, List.length_take] at hlength
      omega

/-- Settles O23. -/
theorem hpackStopsAtDenial : Obligations.HpackStopsAtDenial := fun inp ts _ hs hmax =>
  ⟨_, exec_hpack_of_le hs hmax inp ts, sentOrDenied_emitAll ..⟩

/-- Settles O27. -/
theorem emissionModesStopAtDenial : Obligations.EmissionModesStopAtDenial := fun nal _ hs =>
  ⟨fun _ hfits => ⟨_, (exec_snalpkt hs nal).trans (if_pos hfits), sentOrDenied_emitAll ..⟩,
    fun hmax hlong => ⟨_, exec_fuapkt_of_lt hs hmax hlong, sentOrDenied_emitAll ..⟩⟩

/-! ### Sequence numbers and timestamps (R118) -/

theorem sentNumbers_append (es es' : List Event) : sentNumbers (es ++ es') = sentNumbers es ++ sentNumbers es' := by
  induction es with
  | nil => rfl
  | cons e es ih => cases e <;> simp [sentNumbers, ih]

theorem wirePacket_eq_fixBytes (m : Bool) (pt : BitVec 7) (seq : BitVec 16) (ts ssrc : BitVec 32) (pay : Buffer) :
    wirePacket m pt seq ts ssrc pay = fixBytes Config.rtpVersion false false 0 m pt seq ts ssrc ++ pay := by
  rw [fixBytes_eq]
  rfl

/-- The headers of packets sent from `seq` on. -/
theorem sentNumbers_sentEvents (pt : BitVec 7) (ts ssrc : BitVec 32) (seq : BitVec 16) (q : List (Bool × Buffer)) :
    sentNumbers (sentEvents pt ts ssrc seq q) =
      (List.range q.length).map fun j => ((seq.toNat + j) % 65536, ts.toNat) := by
  induction q generalizing seq with
  | nil => rfl
  | cons p q ih =>
    have hhead : seq.toNat % 65536 = seq.toNat := Nat.mod_eq_of_lt seq.isLt
    simp [sentEvents, sentNumbers, ih, wirePacket_eq_fixBytes, memRead_fixBytes_seq, memRead_fixBytes_ts,
      List.range_succ_eq_map, hhead, Nat.add_assoc, Nat.add_comm 1]

/-- The new events of a run carry as many headers as packets were sent, whether it was denied or not. -/
theorem sentNumbers_of_sentOrDenied (h : SentOrDenied q s t) :
    ∃ es sent, t.trace = s.trace ++ es ∧ t.txSeq = s.txSeq + BitVec.ofNat 16 sent ∧
      sentNumbers es = (List.range sent).map fun j => ((s.txSeq.toNat + j) % 65536, s.txTs.toNat) := by
  obtain ⟨sent, hseq, -, -, -, -, -, -, -, -, -, -, hend, -⟩ := h
  obtain ⟨-, rfl, htrace⟩ | ⟨m, pay, hpacket, -, htrace⟩ := hend
  · exact ⟨_, _, htrace, hseq, sentNumbers_sentEvents ..⟩
  · obtain ⟨hsent, -⟩ := List.getElem?_eq_some_iff.mp hpacket
    refine ⟨_, sent, htrace.trans (List.append_assoc ..), hseq, ?_⟩
    rw [sentNumbers_append, sentNumbers_sentEvents, List.length_take, Nat.min_eq_left hsent.le]
    exact List.append_nil _

/-- Settles O24. -/
theorem hpackNumbersPackets : Obligations.HpackNumbersPackets := by
  intro inp ts s t hexec
  have hself := hpack_sendsAlike hexec s ⟨rfl, rfl, rfl, rfl, rfl, rfl⟩
  obtain rfl : t = concludeEmit (emitAll ((nalUnits inp).flatMap (nalPackets s.maxPkt)) { s with txTs := ts }) := by
    simpa [hexec] using hself
  obtain ⟨es, sent, htrace, hseq, hnumbers⟩ := sentNumbers_of_sentOrDenied (sentOrDenied_emitAll _ _)
  have hlength : (sentNumbers es).length = sent := by simp [hnumbers]
  refine ⟨es, htrace, by rw [hlength]; exact hnumbers, ?_⟩
  rw [hseq, hlength, BitVec.toNat_add, BitVec.toNat_ofNat, Nat.add_mod_mod]

/-! ### The fragments (R116, R121) -/

/-- The FU indicator: bits 7:5 of the header and type 28 (R70). -/
theorem fuIndicator_toNat : ∀ hdr : Byte, (fuIndicator hdr).toNat = hdr.toNat / 32 * 32 + 28 := by decide

/-- The FU header: the two flags, `R = 0` and the header's type (R71). -/
theorem fuHeader_toNat (hdr : Byte) (first last : Bool) :
    (fuHeader hdr first last).toNat = first.toNat * 128 + last.toNat * 64 + hdr.toNat % 32 := by
  rw [fuHeader, fuByte_toNat, nalType_toNat]
  rfl

/-- The first two bytes of a buffer from the list of them. -/
theorem byteAt_of_take_two {pay : Buffer} {a b : Byte} (h : pay.take 2 = [a, b]) : byteAt pay 0 = a ∧ byteAt pay 1 = b := by
  rw [← List.take_append_drop 2 pay, h]
  exact ⟨rfl, rfl⟩

/-- Settles O29: the laws of `fragmentsFrom_spec` for the bytes behind the header and a chunk of `MAXPKT - 14` bytes. -/
theorem fragmentLaws : Obligations.FragmentLaws := by
  intro maxPkt nal hmax hlong fs
  have hdata : (nal.drop 1).length = nal.length - 1 := List.length_drop
  have hne : nal.drop 1 ≠ [] := List.ne_nil_of_length_pos (by omega)
  have hfs : fragmentsFrom (byteAt nal 0) (maxPkt - 14) nal.length true (nal.drop 1) = fs := rfl
  have hspec := fragmentsFrom_spec (byteAt nal 0) (maxPkt - 14) (by omega) nal.length true (nal.drop 1) (by omega) hne
  rw [hfs, hdata] at hspec
  obtain ⟨hcount, hchunks, hfragment⟩ := hspec
  refine ⟨?_, hcount, ?_, fun j m pay hj => ?_⟩
  · have htwo : 2 ≤ (nal.length - 1 + (maxPkt - 14) - 1) / (maxPkt - 14) := by
      rw [Nat.le_div_iff_mul_le (by omega)]
      omega
    exact htwo.trans_eq hcount.symm
  · obtain ⟨b, rest, rfl⟩ := List.exists_cons_of_length_pos (show 0 < nal.length by omega)
    exact congrArg (b :: ·) hchunks
  · obtain ⟨hhead, hmarker, hpos, hbound, hfull⟩ := hfragment j m pay hj
    obtain ⟨hind, hhdr⟩ := byteAt_of_take_two hhead
    refine ⟨by rw [hind, fuIndicator_toNat], ?_, hmarker, hpos, by omega, fun hmore => ?_⟩
    · rw [hhdr, fuHeader_toNat]
      simp only [Bool.true_and, Bool.toNat, Bool.cond_decide, ite_mul, Nat.one_mul, Nat.zero_mul]
    · have := hfull hmore
      omega

end Sys2Proof.Machine

namespace Sys2Proof.Machine

/-! The H.264 Depacketizer (spec/42_h264_depacketizer.md): HUNPACK's steps and the sequence check, the actions of the dispatch
map, what the fragment handler accepts, loses and has no room for, and the round trip of a stream. -/

open Claims Laws

variable {s t : State} {inp rest : Buffer} {k : Pkt} {b : Byte}

/-! ### The actions that read no structure (R135, R136) -/

theorem nalByte_eq (ref : BitVec 3) (ty : BitVec 5) : nalByte ref ty = BitVec.ofNat 8 (ref.toNat * 32 + ty.toNat) := by
  apply BitVec.eq_of_toNat_eq; rw [← nalByte_toNat]; simp

theorem exec_rsvd (hs : s.session = true) (ref : BitVec 3) (ty : BitVec 5) (rest : Buffer) (ts : BitVec 32) :
    exec (.rsvd ref ty rest ts) s = .next (withResult .discarded s) := inSession_of hs _

/-- The state after a unit is delivered whole, `ACC` untouched (R136, R147). -/
def afterUnit (unit : Buffer) (ts : BitVec 32) (s : State) : State :=
  withResult .ok { s with loss := false, trace := s.trace ++ [.deliverUnit unit unit.length ts s.loss.toNat] }

theorem exec_snal (hs : s.session = true) (ref : BitVec 3) (ty : BitVec 5) (rest : Buffer) (ts : BitVec 32) :
    exec (.snal ref ty rest ts) s = .next (afterUnit (nalByte ref ty :: rest) ts s) := inSession_of hs _

/-- Settles O34. -/
theorem reservedTypesAreDiscarded : Obligations.ReservedTypesAreDiscarded := fun ref ty rest ts _ hs _ =>
  exec_rsvd hs ref ty rest ts

/-- Settles O35. -/
theorem singleNalIsDelivered : Obligations.SingleNalIsDelivered := by
  intro ref ty rest ts s hs _ _
  rw [exec_snal hs, nalByte_eq]
  rfl

/-! ### HUNPACK's steps (R131, R134) -/

/-- The instruction read from a payload's first byte does what HUNPACK's dispatch does with the payload. -/
theorem exec_decodeNal (hs : s.session = true) (b : Byte) (rest : Buffer) (ts : BitVec 32) :
    exec (decodeNal b rest ts) s = finishWith (payloadAction (b :: rest) ts s) := by
  have hbytes {ty : BitVec 5} (act : Buffer → BitVec 32 → State → State × Status) (hty : nalType b = ty) :
      inSession s (finishWith (act (nalByte (nalRef b) ty :: rest) ts s)) = finishWith (act (b :: rest) ts s) := by
    rw [inSession_of hs, nalByte_cons_of_type rest hty]
  unfold decodeNal payloadAction
  rw [byteAt_cons_zero]
  cases haction : nalAction (nalType b) with
  | rsvd => exact inSession_of hs _
  | snal => exact hbytes actSnal rfl
  | stapa => exact hbytes actStapa (nalAction_eq_stapa.mp haction)
  | stapb => exact hbytes actStapb (nalAction_eq_stapb.mp haction)
  | mtap16 => exact hbytes actMtap16 (nalAction_eq_mtap16.mp haction)
  | mtap24 => exact hbytes actMtap24 (nalAction_eq_mtap24.mp haction)
  | fua => exact hbytes actFua (nalAction_eq_fua.mp haction)
  | fub => exact hbytes actFub (nalAction_eq_fub.mp haction)

theorem deser_of_decoded (h : exec (.deser inp) s = .next (decoded k s)) : deser inp = .ok k := by
  obtain ⟨haccept, rfl⟩ := deser_decoded h
  exact deser_of_accepts haccept

theorem exec_hunpack_of_error {e : Status} (hs : s.session = true) (h : deser inp = .error e) :
    exec (.hunpack inp) s = .next (withResult e s) := by
  rw [exec_hunpack inp hs, hunpack, h]
  rfl

theorem exec_hunpack_of_empty (hs : s.session = true) (h : deser inp = .ok k) (hpay : k.pay = []) :
    exec (.hunpack inp) s = .next (withResult .payloadTooShort s) := by
  simp only [exec_hunpack inp hs, hunpack, h, hpay, if_true]
  rfl

theorem checked_session (q : BitVec 16) (hs : s.session = true) : (checked q s).session = true := hs

/-- HUNPACK of a packet with a payload runs the action read from it after the sequence check. -/
theorem exec_hunpack_of_payload (hs : s.session = true) (h : deser inp = .ok k) (hpay : k.pay = b :: rest) :
    exec (.hunpack inp) s = exec (decodeNal b rest k.ts) (checked k.seq s) := by
  have hdispatch : hunpack inp s = payloadAction (b :: rest) k.ts (checked k.seq s) := by
    simp [hunpack, h, hpay, seqCheck_eq]
  rw [exec_hunpack inp hs, exec_decodeNal (checked_session k.seq hs), hdispatch]
  rfl

/-- Settles O31. -/
theorem hunpackSteps : Obligations.HunpackSteps := by
  intro inp s hs
  refine ⟨fun hreject => ?_, fun k hdeser => ?_⟩
  · exact exec_hunpack_of_error hs (deser_of_not_accepts (mt (deserAccepts_iff inp).mp hreject))
  · refine ⟨exec_hunpack_of_empty hs (deser_of_decoded hdeser), fun b rest i ops hpay hdecode => ?_⟩
    obtain rfl : decodeNal b rest k.ts = i := Except.ok.inj ((decode_nalhdr b rest _).symm.trans hdecode)
    exact ⟨exec_hunpack_of_payload hs (deser_of_decoded hdeser) hpay, _, exec_decodeNal (checked_session k.seq hs) ..⟩

/-! ### The sequence check (R133) -/

theorem checked_of_no_gap {q : BitVec 16} (h : s.rxSeen = true → q = s.rxLastSeq + 1) :
    checked q s = { s with rxSeen := true, rxLastSeq := q } := by
  have hgap : (s.rxSeen && q != s.rxLastSeq + 1) = false := by simpa using h
  rw [checked, hgap, Bool.or_false]
  rfl

theorem checked_of_gap {q : BitVec 16} (hseen : s.rxSeen = true) (h : q ≠ s.rxLastSeq + 1) :
    checked q s = { s with rxLastSeq := q, loss := true, acc := [] } := by
  have hgap : (s.rxSeen && q != s.rxLastSeq + 1) = true := by simpa [hseen] using h
  rw [checked, hgap, Bool.or_true, if_pos rfl, ← hseen]

/-- The expected number, as the arithmetic of R133. -/
theorem eq_add_one_iff (q last : BitVec 16) : q = last + 1 ↔ q.toNat = (last.toNat + 1) % 65536 := by
  rw [← BitVec.toNat_inj, BitVec.toNat_add]
  rfl

theorem decodeNal_reserved (h : b.toNat % 32 = 0 ∨ b.toNat % 32 = 31) (rest : Buffer) (ts : BitVec 32) :
    decodeNal b rest ts = .rsvd (nalRef b) (nalType b) rest ts := by
  have haction : nalAction (nalType b) = .rsvd := by
    rw [nalAction_eq_ite, nalType_toNat, if_pos (by omega)]
  rw [decodeNal, haction]

/-- Settles O32. -/
theorem sequenceCheckSteps : Obligations.SequenceCheckSteps := by
  intro inp s k b rest hs hdeser hpay hreserved
  rw [exec_hunpack_of_payload hs (deser_of_decoded hdeser) hpay, decodeNal_reserved hreserved,
    exec_rsvd (checked_session k.seq hs)]
  refine ⟨fun hfirst => ?_, fun hseen hnext => ?_, fun hseen hgap => ?_⟩
  · rw [checked_of_no_gap (by simp [hfirst])]
  · rw [checked_of_no_gap fun _ => (eq_add_one_iff ..).mpr hnext, ← hseen]
  · rw [checked_of_gap hseen (mt (eq_add_one_iff ..).mp hgap)]

/-! ### Single NAL unit packets (R136) -/

theorem exec_decodeNal_single (hs : s.session = true) (hlo : 1 ≤ b.toNat % 32) (hhi : b.toNat % 32 ≤ 23) (rest : Buffer)
    (ts : BitVec 32) : exec (decodeNal b rest ts) s = .next (afterUnit (b :: rest) ts s) := by
  have haction : nalAction (nalType b) = .snal := by
    rw [nalAction_eq_ite, nalType_toNat, if_neg (by omega), if_pos hhi]
  simp only [decodeNal, haction]
  rw [exec_snal hs, nalByte_eta]

/-- Settles O33. -/
theorem hunpackDeliversSingleNal : Obligations.HunpackDeliversSingleNal := by
  intro inp s k b rest hs hdeser hpay hlo hhi
  rw [exec_hunpack_of_payload hs (deser_of_decoded hdeser) hpay, exec_decodeNal_single (checked_session k.seq hs) hlo hhi, hpay]
  rfl

/-- Settles O55: the frame is that of the check and of every action. -/
theorem hunpackCompletes : Obligations.HunpackCompletes := by
  intro inp s hs haccept hne
  obtain ⟨b, rest, hpay⟩ := List.exists_cons_of_ne_nil hne
  have hs' := checked_session (parsed inp).seq hs
  have hexec := exec_hunpack_of_payload hs (deser_of_accepts haccept) hpay
  have haction := exec_decodeNal hs' b rest (parsed inp).ts
  have heffect := payloadAction_effect (wf := True) (b :: rest) (parsed inp).ts (seqCheck (parsed inp).seq s) (by simp)
  have hframe := checkedAction_frame heffect
  rw [seqCheck_eq] at heffect hframe
  obtain ⟨htx, hhost, horacle⟩ := hframe
  obtain ⟨-, -, -, -, hseen, hseq⟩ := heffect.frame
  refine ⟨parsed inp, decodeNal b rest (parsed inp).ts, _, hexec.trans haction, parsed_isRecordOf inp, ?_, haction, hseen, hseq,
    htx, hhost, horacle, rfl, rfl, rfl, ?_⟩
  · rw [hpay, decode_nalhdr]
  · intro ty gap hlo hhi
    rw [show ty = b.toNat % 32 by simp [ty, hpay]] at hlo hhi
    rw [hpay]
    exact Host.Outcome.next.inj (haction.symm.trans (exec_decodeNal_single hs' hlo hhi ..))

/-! ### Late failures (R183, R187, R191) -/

theorem deser_ok (h : deser inp = .ok k) : k = parsed inp := by
  rw [deser_eq] at h
  split at h <;> cases h
  rfl

theorem parsed_seq_toNat (inp : Buffer) : (parsed inp).seq.toNat = memRead inp 2 2 := toNat_ofNat_memRead inp 2 2

/-- An action that ends with `PacketLost` or `AccOverflow` has taken the failure path. -/
theorem actionEffect_lost {wf : Prop} {r : State × Status} (he : ActionEffect wf s r)
    (hst : r.2 = .packetLost ∨ r.2 = .accOverflow) : r.1 = dropLost s := by
  cases he with
  | lost => rfl
  | overflow _ => rfl
  | discarded | units | gathered | finished => simp at hst

/-- Settles O44: the early failures have other results. -/
theorem lateFailureLeavesLoss : Obligations.LateFailureLeavesLoss := by
  intro inp s t hexec hst
  obtain ⟨hs, -⟩ := inSession_next.mp hexec
  rw [exec_hunpack inp hs] at hexec
  cases hexec
  rcases hunpack_cases inp s with ⟨e, hdeser, h⟩ | ⟨k, -, -, h⟩ | ⟨k, hdeser, hpay, h⟩ <;> rw [h] at hst ⊢
  · have hearly := deser_error_early hdeser
    rcases hst with rfl | rfl <;> cases hearly
  · simp at hst
  · have hlost := actionEffect_lost (payloadAction_effect (wf := True) k.pay k.ts (seqCheck k.seq s) hpay) hst
    obtain rfl := deser_ok hdeser
    rw [hlost]
    exact ⟨rfl, parsed_seq_toNat inp, rfl, rfl, seqCheck_trace .., rfl⟩


/-! ### Malformed aggregation packets (R137, R183) -/

/-- `AGG` takes the failure path where the bytes behind `start` are no sequence of well-formed entries. -/
theorem agg_lost {start w : Nat} {pay : Buffer} (ts : BitVec 32) (s : State)
    (h : start ≤ pay.length → ¬∃ es : List (Buffer × Byte × Nat),
      (∀ e ∈ es, unitFits e.1 ∧ e.2.2 < 256 ^ w) ∧ pay.drop start = es.flatMap (anyEntry w)) :
    agg start w pay ts s = lostFail s := by
  obtain hlost | ⟨us, haccepted, hlen, -⟩ := agg_cases start w pay ts s
  · exact hlost
  · exact absurd (entries_of_aggEntries w ts _ _ _ haccepted) (h hlen)

/-- A sequence of STAP entries, as the walker sees it, is one of units. -/
theorem stapEntries_of_entries {es : List (Buffer × Byte × Nat)} (hes : ∀ e ∈ es, unitFits e.1 ∧ e.2.2 < 256 ^ 0) :
    ∃ us : List Buffer, (∀ u ∈ us, unitFits u) ∧ es.flatMap (anyEntry 0) = us.flatMap stapEntry := by
  refine ⟨es.map Prod.fst, fun u hu => ?_, by rw [List.flatMap_map]; rfl⟩
  obtain ⟨e, he, rfl⟩ := List.mem_map.mp hu
  exact (hes e he).1

/-- Behind a NAL header byte, three bytes or more begin with two bytes of DON or DONB. -/
theorem exists_don_of_length {hdr : Byte} (h : 3 ≤ (hdr :: rest).length) :
    ∃ d0 d1, rest = d0 :: d1 :: (hdr :: rest).drop 3 := by
  match rest, h with
  | d0 :: d1 :: _, _ => exact ⟨d0, d1, rfl⟩

theorem finish_agg_lost {start w : Nat} {pay : Buffer} {ts : BitVec 32} (hs : s.session = true)
    (h : agg start w pay ts s = lostFail s) : inSession s (finishWith (agg start w pay ts s)) = .next (lost .packetLost s) := by
  rw [inSession_of hs, h]
  rfl

theorem mtap_lost {w : Nat} (hw : w ≠ 0) (hs : s.session = true) {hdr : Byte} (ts : BitVec 32)
    (hno : ¬∃ (d0 d1 : Byte) (es : List (Buffer × Byte × Nat)),
      (∀ e ∈ es, unitFits e.1 ∧ e.2.2 < 256 ^ w) ∧ rest = d0 :: d1 :: es.flatMap (mtapEntry w)) :
    inSession s (finishWith (agg 3 w (hdr :: rest) ts s)) = .next (lost .packetLost s) := by
  refine finish_agg_lost hs (agg_lost ts s ?_)
  rintro hlen ⟨es, hes, hrest⟩
  obtain ⟨d0, d1, hdon⟩ := exists_don_of_length hlen
  have hentry : anyEntry w = mtapEntry w := funext fun _ => if_neg hw
  rw [hrest, hentry] at hdon
  exact hno ⟨d0, d1, es, hes, hdon⟩

/-- Settles O38: what pass 1 of `AGG` accepts is a sequence of well-formed entries. -/
theorem malformedAggregationIsLost : Obligations.MalformedAggregationIsLost := by
  intro ref rest ts s hs
  refine ⟨fun hno => finish_agg_lost hs (agg_lost ts s ?_), fun hno => finish_agg_lost hs (agg_lost ts s ?_),
    mtap_lost (w := 2) (by decide) hs ts, mtap_lost (w := 3) (by decide) hs ts⟩
  · rintro - ⟨es, hes, hrest⟩
    obtain ⟨us, hus, hentries⟩ := stapEntries_of_entries hes
    exact hno ⟨us, hus, hrest.trans hentries⟩
  · rintro hlen ⟨es, hes, hrest⟩
    obtain ⟨us, hus, hentries⟩ := stapEntries_of_entries hes
    obtain ⟨d0, d1, hdon⟩ := exists_don_of_length hlen
    rw [hrest, hentries] at hdon
    exact hno ⟨d0, d1, us, hus, hdon⟩

/-! ### Every form of a fragment (R142 to R144) -/

section Forms

variable {sBit eBit r : Bool} {ref : BitVec 3} {otype : BitVec 5} {data : Buffer} {ts : BitVec 32}

theorem fuByte_eq (sBit eBit r : Bool) (otype : BitVec 5) : fuByte sBit eBit r otype =
    BitVec.ofNat 8 (sBit.toNat * 128 + eBit.toNat * 64 + r.toNat * 32 + otype.toNat) := by
  apply BitVec.eq_of_toNat_eq; rw [← fuByte_toNat]; simp

theorem nalByte_eq_rebuilt (ref : BitVec 3) (otype : BitVec 5) : nalByte ref otype = rebuilt ref otype := nalByte_eq ref otype

theorem exec_fuMid (hs : s.session = true) :
    exec (.fuMid ref r otype data ts) s = finishWith (fuBody false false ref otype data ts s) := inSession_of hs _

theorem exec_fuEnd (hs : s.session = true) :
    exec (.fuEnd ref r otype data ts) s = finishWith (fuBody false true ref otype data ts s) := inSession_of hs _

theorem exec_fuStart (hs : s.session = true) :
    exec (.fuStart ref r otype data ts) s = finishWith (fuBody true false ref otype data ts s) := inSession_of hs _

theorem exec_fuStartEnd (hs : s.session = true) :
    exec (.fuStartEnd ref r otype data ts) s = finishWith (fuBody true true ref otype data ts s) := inSession_of hs _

/-- An FU-A packet is the fragment that its FU header byte describes. -/
theorem exec_fua (hs : s.session = true) (sBit eBit r : Bool) : exec (.fua ref (fuByte sBit eBit r otype :: data) ts) s =
    finishWith (fuBody sBit eBit ref otype data ts s) := by
  have hfields : actFua (nalByte ref 28 :: fuByte sBit eBit r otype :: data) ts s = fuBody sBit eBit ref otype data ts s := by
    simp [actFua, fu]
  rw [exec, execFua, inSession_of hs, hfields]

/-- An FU-B packet is the fragment that its FU header byte describes, whatever its DON. -/
theorem exec_fub (hs : s.session = true) (sBit eBit r : Bool) (d0 d1 : Byte) :
    exec (.fub ref (fuByte sBit eBit r otype :: d0 :: d1 :: data) ts) s = finishWith (fuBody sBit eBit ref otype data ts s) := by
  have hfields : actFub (nalByte ref 29 :: fuByte sBit eBit r otype :: d0 :: d1 :: data) ts s =
      fuBody sBit eBit ref otype data ts s := by
    simp [actFub, fu]
  rw [exec, execFub, inSession_of hs, hfields]

/-- A START that ends one way whatever the E flag does so in every form. -/
theorem start_forms (hs : s.session = true) (h : ∀ eBit, finishWith (fuBody true eBit ref otype data ts s) = .next t)
    (eBit r : Bool) (d0 d1 : Byte) :
    exec (.fuStart ref r otype data ts) s = .next t ∧ exec (.fuStartEnd ref r otype data ts) s = .next t ∧
      exec (.fua ref (fuByte true eBit r otype :: data) ts) s = .next t ∧
      exec (.fub ref (fuByte true eBit r otype :: d0 :: d1 :: data) ts) s = .next t :=
  ⟨(exec_fuStart hs).trans (h false), (exec_fuStartEnd hs).trans (h true), (exec_fua hs true eBit r).trans (h eBit),
    (exec_fub hs true eBit r d0 d1).trans (h eBit)⟩

/-- A continuation that ends one way whatever the E flag does so in every form. -/
theorem continuation_forms (hs : s.session = true) (h : ∀ eBit, finishWith (fuBody false eBit ref otype data ts s) = .next t)
    (eBit r : Bool) (d0 d1 : Byte) :
    exec (.fuMid ref r otype data ts) s = .next t ∧ exec (.fuEnd ref r otype data ts) s = .next t ∧
      exec (.fua ref (fuByte false eBit r otype :: data) ts) s = .next t ∧
      exec (.fub ref (fuByte false eBit r otype :: d0 :: d1 :: data) ts) s = .next t :=
  ⟨(exec_fuMid hs).trans (h false), (exec_fuEnd hs).trans (h true), (exec_fua hs false eBit r).trans (h eBit),
    (exec_fub hs false eBit r d0 d1).trans (h eBit)⟩

/-! ### What the fragment handler does (R142, R145, R146) -/

theorem unitTypeOk_nalByte (ref : BitVec 3) (otype : BitVec 5) :
    unitTypeOk (nalByte ref otype) = true ↔ 1 ≤ otype.toNat ∧ otype.toNat ≤ 23 := by
  simp [unitTypeOk]

theorem fuBody_start_badType (h : ¬(1 ≤ otype.toNat ∧ otype.toNat ≤ 23)) (eBit : Bool) (ref : BitVec 3) (data : Buffer)
    (ts : BitVec 32) (s : State) : fuBody true eBit ref otype data ts s = lostFail s := by
  rw [fuBody, if_pos rfl, if_neg (mt (unitTypeOk_nalByte ref otype).mp h)]

theorem fuBody_continuation_nothing (h : s.acc = []) (eBit : Bool) (ref : BitVec 3) (otype : BitVec 5) (data : Buffer)
    (ts : BitVec 32) : fuBody false eBit ref otype data ts s = lostFail s := by
  simp [fuBody, h]

/-- The conditions of `LOSTFAIL` do not hold (R142): a START rebuilds a type in 1 to 23, a continuation has a reassembly. -/
def FragmentLegal (sBit : Bool) (otype : BitVec 5) (s : State) : Prop :=
  (sBit = true → 1 ≤ otype.toNat ∧ otype.toNat ≤ 23) ∧ (sBit = false → s.acc ≠ [])

theorem fuBody_illegal (h : ¬FragmentLegal sBit otype s) (eBit : Bool) (ref : BitVec 3) (data : Buffer) (ts : BitVec 32) :
    fuBody sBit eBit ref otype data ts s = lostFail s := by
  cases sBit with
  | true => exact fuBody_start_badType (by simpa [FragmentLegal] using h) ..
  | false => exact fuBody_continuation_nothing (by simpa [FragmentLegal] using h) ..

/-- `ACC` before the fragment's data is appended (R142 steps 3 and 4). -/
def pending (sBit : Bool) (ref : BitVec 3) (otype : BitVec 5) (s : State) : Buffer := if sBit then [rebuilt ref otype] else s.acc

theorem pending_length (sBit : Bool) (ref : BitVec 3) (otype : BitVec 5) (s : State) :
    (pending sBit ref otype s).length = if sBit then 1 else s.acc.length := by
  cases sBit <;> rfl

/-- A legal fragment appends its data. A START has two appends, but the one of the header byte overflows only where header
and data together do, and leaves the same then. -/
theorem fuBody_legal (h : FragmentLegal sBit otype s) (eBit : Bool) (ref : BitVec 3) (data : Buffer) (ts : BitVec 32) :
    fuBody sBit eBit ref otype data ts s = appendThen data { s with acc := pending sBit ref otype s } (fuFinish eBit ts) := by
  obtain ⟨hstart, hcontinue⟩ := h
  cases sBit with
  | false =>
    rw [fuBody, if_neg Bool.false_ne_true, if_neg (by simpa using hcontinue rfl)]
    rfl
  | true =>
    rw [fuBody, if_pos rfl, if_pos ((unitTypeOk_nalByte ref otype).mpr (hstart rfl)), nalByte_eq_rebuilt]
    rcases appendThen_cases [rebuilt ref otype] (truncAcc s) (fun s1 => appendThen data s1 (fuFinish eBit ts)) with
      ⟨hover, happend⟩ | ⟨-, happend⟩
    · obtain ⟨c, hcap, hlt⟩ := (overflows_eq_true_iff _).mp hover
      have hover' : overflows { s with acc := pending true ref otype s } data.length = true :=
        (overflows_eq_true_iff _).mpr ⟨c, hcap, by simp [pending] at hlt ⊢; omega⟩
      rw [happend, appendThen, if_pos hover']
      rfl
    · rw [happend]
      rfl

/-- The data of a fragment does not fit behind what `ACC` holds then (R146). -/
def FragmentOverflows (sBit : Bool) (data : Buffer) (s : State) : Prop :=
  ∃ c, s.accCap = some c ∧ c < (if sBit then 1 else s.acc.length) + data.length

theorem overflows_pending (sBit : Bool) (ref : BitVec 3) (otype : BitVec 5) (data : Buffer) (s : State) :
    overflows { s with acc := pending sBit ref otype s } data.length = true ↔ FragmentOverflows sBit data s := by
  rw [overflows_eq_true_iff, pending_length]
  rfl

theorem fuBody_overflow (h : FragmentLegal sBit otype s) (hover : FragmentOverflows sBit data s) (eBit : Bool)
    (ref : BitVec 3) (ts : BitVec 32) : fuBody sBit eBit ref otype data ts s = (dropLost s, .accOverflow) := by
  rw [fuBody_legal h, appendThen, if_pos ((overflows_pending sBit ref otype data s).mpr hover)]
  rfl

theorem fuBody_fits (h : FragmentLegal sBit otype s) (hfits : ¬FragmentOverflows sBit data s) (eBit : Bool)
    (ref : BitVec 3) (ts : BitVec 32) :
    fuBody sBit eBit ref otype data ts s = fuFinish eBit ts { s with acc := gathered sBit ref otype data s } := by
  rw [fuBody_legal h, appendThen, if_neg (mt (overflows_pending sBit ref otype data s).mp hfits)]
  rfl

theorem finish_fuFinish (sBit eBit : Bool) (ref : BitVec 3) (otype : BitVec 5) (data : Buffer) (ts : BitVec 32) (s : State) :
    finishWith (fuFinish eBit ts { s with acc := gathered sBit ref otype data s }) =
      .next (afterFragment sBit eBit ref otype data ts s) := by
  cases eBit <;> rfl

/-- The fragment handler on a fragment that R142 accepts. -/
theorem finish_fuBody_fits (h : fragmentFits sBit otype data s) (eBit : Bool) (ref : BitVec 3) (ts : BitVec 32) :
    finishWith (fuBody sBit eBit ref otype data ts s) = .next (afterFragment sBit eBit ref otype data ts s) := by
  obtain ⟨hstart, hcontinue, hroom⟩ := h
  have hfits : ¬FragmentOverflows sBit data s := by
    rintro ⟨c, hcap, hlt⟩
    exact Nat.not_le_of_lt hlt (hroom c hcap)
  rw [fuBody_fits ⟨hstart, hcontinue⟩ hfits, finish_fuFinish]

end Forms

/-- Settles O39: the handler is reached with the same fields in each form. -/
theorem fragmentsReassemble : Obligations.FragmentsReassemble := by
  intro sBit eBit r ref otype d0 d1 data ts s hs hfits t hdr
  have hbody := finish_fuBody_fits hfits eBit ref ts
  rw [show hdr = fuByte sBit eBit r otype from (fuByte_eq ..).symm]
  refine ⟨?_, ?_, ?_, ?_, (exec_fua hs sBit eBit r).trans hbody, (exec_fub hs sBit eBit r d0 d1).trans hbody⟩
  · rintro rfl rfl
    exact (exec_fuMid hs).trans hbody
  · rintro rfl rfl
    exact (exec_fuEnd hs).trans hbody
  · rintro rfl rfl
    exact (exec_fuStart hs).trans hbody
  · rintro rfl rfl
    exact (exec_fuStartEnd hs).trans hbody

theorem fu_short {n : Nat} {pay : Buffer} (h : pay.length < n) (ts : BitVec 32) (s : State) :
    fu n pay ts s = lostFail s := if_pos h

/-- Settles O40. -/
theorem badFragmentsAreLost : Obligations.BadFragmentsAreLost := by
  intro sBit eBit r ref otype d0 d1 data ts s hs t hdr
  rw [show hdr = fuByte sBit eBit r otype from (fuByte_eq ..).symm]
  refine ⟨?_, fun hshort => ?_, ?_, ?_⟩
  · exact inSession_of hs _
  · rw [exec, execFub, inSession_of hs, actFub, fu_short (by simp; omega)]
    rfl
  · rintro rfl hbad
    exact start_forms hs (fun eBit => congrArg finishWith (fuBody_start_badType hbad eBit ref data ts s)) eBit r d0 d1
  · rintro rfl hnothing
    exact continuation_forms hs (fun eBit => congrArg finishWith (fuBody_continuation_nothing hnothing eBit ref otype data ts))
      eBit r d0 d1

/-! ### Where an overflow comes from (R146, R187) -/

/-- The fragment handler overflows only on a legal fragment whose data does not fit. -/
theorem fuBody_accOverflow {sBit eBit : Bool} {ref : BitVec 3} {otype : BitVec 5} {data : Buffer} {ts : BitVec 32}
    (h : (fuBody sBit eBit ref otype data ts s).2 = .accOverflow) :
    FragmentLegal sBit otype s ∧ FragmentOverflows sBit data s := by
  by_cases hlegal : FragmentLegal sBit otype s
  · by_cases hover : FragmentOverflows sBit data s
    · exact ⟨hlegal, hover⟩
    · rw [fuBody_fits hlegal hover] at h
      cases eBit <;> simp [fuFinish] at h
  · simp [fuBody_illegal hlegal, lostFail] at h

/-- The fragment `f` is there, and for `s` it is legal and does not fit. -/
def CarriesOverflow (f : Option (Bool × BitVec 5 × Buffer)) (s : State) : Prop :=
  ∃ sBit otype data, f = some (sBit, otype, data) ∧ FragmentLegal sBit otype s ∧ FragmentOverflows sBit data s

/-- A gap empties `ACC`, so a continuation that overflows behind the sequence check met no gap. -/
theorem CarriesOverflow.of_seqCheck {f : Option (Bool × BitVec 5 × Buffer)} {q : BitVec 16}
    (h : CarriesOverflow f (seqCheck q s)) : CarriesOverflow f s := by
  obtain ⟨sBit, otype, data, hf, ⟨hstart, hcontinue⟩, hover⟩ := h
  rw [FragmentOverflows, seqCheck_accCap, seqCheck_acc] at hover
  rw [seqCheck_acc] at hcontinue
  cases sBit with
  | true => exact ⟨true, otype, data, hf, ⟨hstart, by simp⟩, hover⟩
  | false =>
    by_cases hgap : seqGap s q = true
    · exact absurd (if_pos hgap) (hcontinue rfl)
    · rw [if_neg hgap] at hcontinue hover
      exact ⟨false, otype, data, hf, ⟨hstart, hcontinue⟩, hover⟩

theorem fuS_eq : ∀ b : Byte, fuS b = decide (128 ≤ b.toNat) := by decide

theorem fuOtype_eq : ∀ b : Byte, fuOtype b = BitVec.ofNat 5 b.toNat := by decide

/-- `FU` overflows only on the fragment behind its FU bytes. -/
theorem fu_accOverflow {n : Nat} {pay : Buffer} {ts : BitVec 32} (h : (fu n pay ts s).2 = .accOverflow) :
    n ≤ pay.length ∧ FragmentLegal (fuS (byteAt pay 1)) (fuOtype (byteAt pay 1)) s ∧
      FragmentOverflows (fuS (byteAt pay 1)) (pay.drop n) s := by
  rcases fu_cases n pay ts s with ⟨-, hlost⟩ | ⟨hlen, hbody⟩
  · rw [hlost] at h
    cases h
  · rw [hbody] at h
    exact ⟨hlen, fuBody_accOverflow h⟩

theorem actFua_accOverflow {pay : Buffer} {ts : BitVec 32} (hty : (byteAt pay 0).toNat % 32 = 28)
    (h : (actFua pay ts s).2 = .accOverflow) : CarriesOverflow (payloadFragment pay) s := by
  obtain ⟨hlen, hlegal, hover⟩ := fu_accOverflow h
  match pay, hlen with
  | ind :: hdr :: data, _ =>
    rw [byteAt_cons_zero] at hty
    exact ⟨_, _, _, by simp [payloadFragment, hty, fuS_eq, fuOtype_eq], hlegal, hover⟩

theorem actFub_accOverflow {pay : Buffer} {ts : BitVec 32} (hty : (byteAt pay 0).toNat % 32 = 29)
    (h : (actFub pay ts s).2 = .accOverflow) : CarriesOverflow (payloadFragment pay) s := by
  obtain ⟨hlen, hlegal, hover⟩ := fu_accOverflow h
  match pay, hlen with
  | ind :: hdr :: d0 :: d1 :: data, _ =>
    rw [byteAt_cons_zero] at hty
    exact ⟨_, _, _, by simp [payloadFragment, hty, fuS_eq, fuOtype_eq], hlegal, hover⟩

theorem agg_ne_accOverflow (start w : Nat) (pay : Buffer) (ts : BitVec 32) (s : State) :
    (agg start w pay ts s).2 ≠ .accOverflow := by
  rcases agg_cases start w pay ts s with h | ⟨us, -, -, h⟩ <;> simp [h, lostFail]

/-- Of the actions that a payload selects only FUA and FUB can overflow. -/
theorem payloadAction_accOverflow {pay : Buffer} {ts : BitVec 32} (h : (payloadAction pay ts s).2 = .accOverflow) :
    CarriesOverflow (payloadFragment pay) s := by
  unfold payloadAction at h
  cases haction : nalAction (nalType (byteAt pay 0)) <;> rw [haction] at h
  case rsvd | snal => cases h
  case stapa | stapb | mtap16 | mtap24 => exact (agg_ne_accOverflow _ _ _ _ _ h).elim
  case fua =>
    have hty := congrArg BitVec.toNat (nalAction_eq_fua.mp haction)
    rw [nalType_toNat] at hty
    exact actFua_accOverflow hty h
  case fub =>
    have hty := congrArg BitVec.toNat (nalAction_eq_fub.mp haction)
    rw [nalType_toNat] at hty
    exact actFub_accOverflow hty h

theorem concludeEmit_ne_accOverflow (r : State × Bool) : (concludeEmit r).status ≠ .accOverflow := by
  cases h : r.2 <;> simp [concludeEmit, h]

theorem deser_error_ne_accOverflow {e : Status} (h : deser inp = .error e) : e ≠ .accOverflow := by
  rintro rfl
  cases deser_error_early h

theorem hunpack_accOverflow (h : (hunpack inp s).2 = .accOverflow) : CarriesOverflow (carriedFragment (.hunpack inp)) s := by
  rcases hunpack_cases inp s with ⟨e, hdeser, hres⟩ | ⟨k, -, -, hres⟩ | ⟨k, hdeser, -, hres⟩ <;> rw [hres] at h
  · exact absurd h (deser_error_ne_accOverflow hdeser)
  · cases h
  · obtain rfl := deser_ok hdeser
    have haccept : deserStatus inp = .ok := by
      by_contra hreject
      rw [deser_eq, if_neg hreject] at hdeser
      cases hdeser
    rw [carriedFragment, if_pos haccept]
    exact (payloadAction_accOverflow h).of_seqCheck

/-- The result of an action's instruction is that of the action. -/
theorem action_status {r : State × Status} (h : inSession s (finishWith r) = .next t) : r.2 = t.status := by
  obtain ⟨-, h⟩ := inSession_next.mp h
  cases h
  rfl

/-- The host's commands other than HUNPACK reach no reassembly. -/
theorem command_ne_accOverflow {i : Instr} (hcmd : (encode i).space = .cmd) (hi : ∀ inp, i ≠ .hunpack inp)
    (hexec : exec i s = .next t) : t.status ≠ .accOverflow := by
  cases exec_effect hexec with
  | opened | record | bytes => simp
  | early e hearly => rintro rfl; cases hearly
  | packets ps ts => exact concludeEmit_ne_accOverflow _
  | action r _ hspace => exact absurd hcmd hspace
  | unpacked inp k r _ hhunpack => exact absurd hhunpack (hi inp)

theorem emission_ne_accOverflow {i : Instr}
    (hi : (∃ inp ts, i = .hpack inp ts) ∨ (∃ nal, i = .snalpkt nal) ∨ ∃ nal, i = .fuapkt nal)
    (hexec : exec i s = .next t) : t.status ≠ .accOverflow := by
  obtain ⟨ps, ts, hsends⟩ := exec_sendsAlike hi hexec
  have hself := hsends s ⟨rfl, rfl, rfl, rfl, rfl, rfl⟩
  rw [hexec] at hself
  cases hself
  exact concludeEmit_ne_accOverflow _

/-- Whatever ends with `AccOverflow` carries the fragment that did not fit. -/
theorem exec_accOverflow {i : Instr} (hexec : exec i s = .next t) (hst : t.status = .accOverflow) :
    CarriesOverflow (carriedFragment i) s := by
  cases i with
  | hunpack inp => exact hunpack_accOverflow ((action_status hexec).trans hst)
  | fua ref rest ts =>
    have hover := actFua_accOverflow (by simp [nalByte_toNat]) ((action_status hexec).trans hst)
    rw [nalByte_eq] at hover
    exact hover
  | fub ref rest ts =>
    have hover := actFub_accOverflow (by simp [nalByte_toNat]) ((action_status hexec).trans hst)
    rw [nalByte_eq] at hover
    exact hover
  | fuMid ref r otype data ts => exact ⟨_, _, _, rfl, fuBody_accOverflow ((action_status hexec).trans hst)⟩
  | fuEnd ref r otype data ts => exact ⟨_, _, _, rfl, fuBody_accOverflow ((action_status hexec).trans hst)⟩
  | fuStart ref r otype data ts => exact ⟨_, _, _, rfl, fuBody_accOverflow ((action_status hexec).trans hst)⟩
  | fuStartEnd ref r otype data ts => exact ⟨_, _, _, rfl, fuBody_accOverflow ((action_status hexec).trans hst)⟩
  | stapa ref rest ts => exact (agg_ne_accOverflow _ _ _ _ _ ((action_status hexec).trans hst)).elim
  | stapb ref rest ts => exact (agg_ne_accOverflow _ _ _ _ _ ((action_status hexec).trans hst)).elim
  | mtap16 ref rest ts => exact (agg_ne_accOverflow _ _ _ _ _ ((action_status hexec).trans hst)).elim
  | mtap24 ref rest ts => exact (agg_ne_accOverflow _ _ _ _ _ ((action_status hexec).trans hst)).elim
  | rsvd ref ty rest ts => cases (action_status hexec).trans hst
  | snal ref ty rest ts => cases (action_status hexec).trans hst
  | init | deser | serhdr | ser => exact absurd hst (command_ne_accOverflow rfl (by simp) hexec)
  | rtpfix p x cc m pt seq ts ssrc rest =>
    rw [exec_rtpfix] at hexec
    exact absurd hst (command_ne_accOverflow (i := .deser _) rfl (by simp) hexec)
  | hpack inp ts => exact absurd hst (emission_ne_accOverflow (.inl ⟨inp, ts, rfl⟩) hexec)
  | snalpkt nal => exact absurd hst (emission_ne_accOverflow (.inr (.inl ⟨nal, rfl⟩)) hexec)
  | fuapkt nal => exact absurd hst (emission_ne_accOverflow (.inr (.inr ⟨nal, rfl⟩)) hexec)

/-- Settles O59. -/
theorem overflowComesFromFragments : Obligations.OverflowComesFromFragments := by
  intro i s t hexec hst
  obtain ⟨sBit, otype, data, hcarried, ⟨hstart, hcontinue⟩, c, hcap, hover⟩ := exec_accOverflow hexec hst
  exact ⟨c, sBit, otype, data, hcap, hcarried, hover, hstart, hcontinue⟩

/-- Settles O41: the converse is O59. -/
theorem overflowNeedsCapacity : Obligations.OverflowNeedsCapacity := by
  refine ⟨?_, fun i s t hcap hexec hst => ?_⟩
  · intro sBit eBit r ref otype d0 d1 data ts s c hs hcap t hdr
    rw [show hdr = fuByte sBit eBit r otype from (fuByte_eq ..).symm]
    refine ⟨?_, ?_⟩
    · rintro rfl hlo hhi hroom
      have hlegal : FragmentLegal true otype s := ⟨fun _ => ⟨hlo, hhi⟩, by simp⟩
      have hover : FragmentOverflows true data s := ⟨c, hcap, hroom⟩
      exact start_forms hs (fun eBit => congrArg finishWith (fuBody_overflow hlegal hover eBit ref ts)) eBit r d0 d1
    · rintro rfl hne hroom
      have hlegal : FragmentLegal false otype s := ⟨by simp, fun _ => hne⟩
      have hover : FragmentOverflows false data s := ⟨c, hcap, hroom⟩
      exact continuation_forms hs (fun eBit => congrArg finishWith (fuBody_overflow hlegal hover eBit ref ts)) eBit r d0 d1
  · obtain ⟨-, -, -, -, -, c, hcap', -⟩ := exec_accOverflow hexec hst
    rw [hcap] at hcap'
    cases hcap'

/-! ### A gap in a reassembly (R133, R148 (2)) -/

theorem decodeNal_fua (ref : BitVec 3) (rest : Buffer) (ts : BitVec 32) :
    decodeNal (nalByte ref 28) rest ts = .fua ref rest ts := by
  simp [decodeNal, nalAction_eq_fua.mpr]

/-- Settles O46: the check empties `ACC`, so the END fragment continues nothing. -/
theorem gapDiscardsReassembly : Obligations.GapDiscardsReassembly := by
  intro inp s k ref otype data hs hseen hdeser hgap hpay
  have hhdr : BitVec.ofNat 8 (64 + otype.toNat) = fuByte false true false otype := by simp [fuByte_eq]
  have hpay' : k.pay = nalByte ref 28 :: fuByte false true false otype :: data := by
    rw [hpay, hhdr, nalByte_eq]
    rfl
  rw [exec_hunpack_of_payload hs (deser_of_decoded hdeser) hpay', decodeNal_fua, exec_fua (checked_session k.seq hs),
    checked_of_gap hseen hgap, fuBody_continuation_nothing rfl]
  rfl

/-! ### The round trip of a stream (R148 (1)) -/

/-- The record of a packet of the packetizer (R82). -/
def wireRecord (m : Bool) (pt : BitVec 7) (seq : BitVec 16) (ts ssrc : BitVec 32) (pay : Buffer) : Pkt :=
  { Pkt.zero with v := 2, m := m, pt := pt, seq := seq, ts := ts, ssrc := ssrc, pay := pay }

theorem deser_wirePacket (m : Bool) (pt : BitVec 7) (seq : BitVec 16) (ts ssrc : BitVec 32) (pay : Buffer) :
    deser (wirePacket m pt seq ts ssrc pay) = .ok (wireRecord m pt seq ts ssrc pay) := by
  have hwritten := deser_written (wireRecord m pt seq ts ssrc pay) rfl rfl rfl fun _ => ⟨rfl, rfl⟩
  rw [headerBytes_append_eq] at hwritten
  rw [wirePacket_eq_fixBytes]
  exact hwritten

/-- A depacketizer without a capacity and without a loss, for which `seq` is no gap. -/
structure Awaits (seq : BitVec 16) (r : State) : Prop where
  session : r.session = true
  unbounded : r.accCap = none
  lossless : r.loss = false
  inOrder : r.rxSeen = true → seq = r.rxLastSeq + 1

/-- The state once the number of a packet that is no gap is recorded (R133). -/
def recorded (seq : BitVec 16) (r : State) : State := { r with rxSeen := true, rxLastSeq := seq }

theorem Awaits.recorded_session {seq : BitVec 16} {r : State} (h : Awaits seq r) : (recorded seq r).session = true := h.session

/-- The packets of the events of sending `q` from `seq` on. -/
def wirePackets (pt : BitVec 7) (ts ssrc : BitVec 32) (seq : BitVec 16) (q : List (Bool × Buffer)) : List Buffer :=
  sentPackets (sentEvents pt ts ssrc seq q)

section RoundTrip

variable {pt : BitVec 7} {ts ssrc : BitVec 32} {seq : BitVec 16} {r r' : State}

theorem wirePackets_cons (m : Bool) (pay : Buffer) (q : List (Bool × Buffer)) :
    wirePackets pt ts ssrc seq ((m, pay) :: q) = wirePacket m pt seq ts ssrc pay :: wirePackets pt ts ssrc (seq + 1) q := rfl

/-- The number after `n + 1` packets. -/
theorem add_ofNat_succ (seq : BitVec 16) (n : Nat) : seq + BitVec.ofNat 16 (n + 1) = seq + 1 + BitVec.ofNat 16 n := by
  rw [BitVec.ofNat_add, BitVec.add_assoc, BitVec.add_comm (BitVec.ofNat 16 n)]
  rfl

theorem wirePackets_append (q q' : List (Bool × Buffer)) : wirePackets pt ts ssrc seq (q ++ q') =
    wirePackets pt ts ssrc seq q ++ wirePackets pt ts ssrc (seq + BitVec.ofNat 16 q.length) q' := by
  induction q generalizing seq with
  | nil => simp [wirePackets, sentEvents, sentPackets]
  | cons p q ih =>
    rw [List.cons_append, wirePackets_cons, wirePackets_cons, ih, List.length_cons, add_ofNat_succ, List.cons_append]

theorem unpackAll_cons {p : Buffer} (h : exec (.hunpack p) r = .next r') (ps : List Buffer) :
    unpackAll (p :: ps) r = unpackAll ps r' := by
  rw [unpackAll, h]

theorem unpackAll_append {ps : List Buffer} (h : unpackAll ps r = some r') (ps' : List Buffer) :
    unpackAll (ps ++ ps') r = unpackAll ps' r' := by
  induction ps generalizing r with
  | nil => cases h; rfl
  | cons p ps ih =>
    rw [unpackAll] at h
    split at h
    · next hexec => rw [List.cons_append, unpackAll_cons hexec, ih h]
    · cases h

/-- A packet that is no gap runs its action in the state that has only recorded its number. -/
theorem exec_hunpack_wirePacket (hr : Awaits seq r) (m : Bool) (b : Byte) (rest : Buffer) :
    exec (.hunpack (wirePacket m pt seq ts ssrc (b :: rest))) r = exec (decodeNal b rest ts) (recorded seq r) := by
  rw [exec_hunpack_of_payload hr.session (deser_wirePacket ..) rfl]
  exact congrArg _ (checked_of_no_gap hr.inOrder)

/-- From `r` the packets `q`, numbered from `seq` on, are unpacked to a state ready for the next, and deliver one unit. -/
def DeliversUnit (pt : BitVec 7) (ts ssrc : BitVec 32) (seq : BitVec 16) (q : List (Bool × Buffer)) (unit : Buffer) (r : State) :
    Prop :=
  ∃ r', unpackAll (wirePackets pt ts ssrc seq q) r = some r' ∧ Awaits (seq + BitVec.ofNat 16 q.length) r' ∧ r'.acc = [] ∧
    r'.trace = r.trace ++ [.deliverUnit unit unit.length ts 0]

/-- A packet that delivers is the last of its unit. -/
theorem deliversUnit_last {m : Bool} {pay unit : Buffer}
    (hexec : exec (.hunpack (wirePacket m pt seq ts ssrc pay)) r = .next r') (hr' : Awaits (seq + 1) r') (hacc : r'.acc = [])
    (htrace : r'.trace = r.trace ++ [.deliverUnit unit unit.length ts 0]) : DeliversUnit pt ts ssrc seq [(m, pay)] unit r :=
  ⟨r', unpackAll_cons hexec [], hr', hacc, htrace⟩

/-- A packet that delivers nothing leaves its unit to those behind it. -/
theorem deliversUnit_cons {m : Bool} {pay unit : Buffer} {q : List (Bool × Buffer)}
    (hexec : exec (.hunpack (wirePacket m pt seq ts ssrc pay)) r = .next r') (htrace : r'.trace = r.trace)
    (hrest : DeliversUnit pt ts ssrc (seq + 1) q unit r') : DeliversUnit pt ts ssrc seq ((m, pay) :: q) unit r := by
  obtain ⟨r'', hdone, hready, hacc, htrace'⟩ := hrest
  refine ⟨r'', (unpackAll_cons hexec _).trans hdone, ?_, hacc, htrace ▸ htrace'⟩
  rw [List.length_cons, add_ofNat_succ]
  exact hready

theorem deliversUnit_single {nal : Buffer} (hr : Awaits seq r) (hacc : r.acc = []) (hne : nal ≠ [])
    (hlo : 1 ≤ (byteAt nal 0).toNat % 32) (hhi : (byteAt nal 0).toNat % 32 ≤ 23) (m : Bool) :
    DeliversUnit pt ts ssrc seq [(m, nal)] nal r := by
  obtain ⟨b, rest, rfl⟩ := List.exists_cons_of_ne_nil hne
  have hexec : exec (.hunpack (wirePacket m pt seq ts ssrc (b :: rest))) r = .next (afterUnit (b :: rest) ts (recorded seq r)) :=
    (exec_hunpack_wirePacket hr m b rest).trans (exec_decodeNal_single hr.recorded_session hlo hhi rest ts)
  refine deliversUnit_last hexec ⟨hr.session, hr.unbounded, rfl, fun _ => rfl⟩ hacc ?_
  simp [afterUnit, withResult, recorded, hr.lossless]

theorem fragmentFits_of_unbounded {sBit : Bool} {otype : BitVec 5} (hcap : r.accCap = none) (h : FragmentLegal sBit otype r)
    (data : Buffer) : fragmentFits sBit otype data r := by
  obtain ⟨hstart, hcontinue⟩ := h
  exact ⟨hstart, hcontinue, by simp [hcap]⟩

theorem afterFragment_trace (sBit : Bool) (ref : BitVec 3) (otype : BitVec 5) (data : Buffer) (ts : BitVec 32) (s : State) :
    (afterFragment sBit true ref otype data ts s).trace = s.trace ++
      [.deliverUnit (gathered sBit ref otype data s) (gathered sBit ref otype data s).length ts s.loss.toNat] := rfl

/-- The unit so far: `ACC`, or for the first fragment the header (R142). -/
def unitBegun (hdr : Byte) (first : Bool) (r : State) : Buffer := if first then [hdr] else r.acc

theorem gathered_eq (hdr : Byte) (first : Bool) (chunk : Buffer) (r : State) :
    gathered first (nalRef hdr) (nalType hdr) chunk r = unitBegun hdr first r ++ chunk := by
  rw [gathered, ← nalByte_eq_rebuilt, nalByte_eta]
  rfl

/-- The state after a fragment of the packetizer. -/
def afterPiece (hdr : Byte) (first last : Bool) (chunk : Buffer) (ts : BitVec 32) (seq : BitVec 16) (r : State) : State :=
  afterFragment first last (nalRef hdr) (nalType hdr) chunk ts (recorded seq r)

theorem exec_hunpack_fragment {hdr : Byte} {first : Bool} (hr : Awaits seq r) (h : FragmentLegal first (nalType hdr) r)
    (m last : Bool) (chunk : Buffer) :
    exec (.hunpack (wirePacket m pt seq ts ssrc (fuIndicator hdr :: fuHeader hdr first last :: chunk))) r =
      .next (afterPiece hdr first last chunk ts seq r) := by
  have hfits : fragmentFits first (nalType hdr) chunk (recorded seq r) := fragmentFits_of_unbounded hr.unbounded h chunk
  rw [exec_hunpack_wirePacket hr, fuIndicator, decodeNal_fua, fuHeader, exec_fua hr.recorded_session, finish_fuBody_fits hfits]
  rfl

theorem afterPiece_awaits (hr : Awaits seq r) (hdr : Byte) (first last : Bool) (chunk : Buffer) :
    Awaits (seq + 1) (afterPiece hdr first last chunk ts seq r) := by
  cases last with
  | false => exact ⟨hr.session, hr.unbounded, hr.lossless, fun _ => rfl⟩
  | true => exact ⟨hr.session, hr.unbounded, rfl, fun _ => rfl⟩

theorem afterPiece_acc (hdr : Byte) (first : Bool) (chunk : Buffer) (r : State) :
    (afterPiece hdr first false chunk ts seq r).acc = unitBegun hdr first r ++ chunk := gathered_eq ..

theorem afterPiece_trace (hr : Awaits seq r) (hdr : Byte) (first : Bool) (chunk : Buffer) :
    (afterPiece hdr first true chunk ts seq r).trace = r.trace ++
      [.deliverUnit (unitBegun hdr first r ++ chunk) (unitBegun hdr first r ++ chunk).length ts 0] := by
  have hunit : gathered first (nalRef hdr) (nalType hdr) chunk (recorded seq r) = unitBegun hdr first r ++ chunk := gathered_eq ..
  rw [afterPiece, afterFragment_trace, hunit, show (recorded seq r).loss = false from hr.lossless]
  rfl

theorem fragmentsFrom_nil (hdr : Byte) (mc fuel : Nat) (first : Bool) : fragmentsFrom hdr mc fuel first [] = [] := by
  cases fuel <;> rfl

/-- The fragments of the bytes `data` complete the unit that has begun. -/
theorem deliversUnit_fragments {hdr : Byte} (hty : 1 ≤ hdr.toNat % 32 ∧ hdr.toNat % 32 ≤ 23) {mc : Nat} (hmc : 1 ≤ mc)
    {fuel : Nat} {first : Bool} {data : Buffer} (hfuel : data.length ≤ fuel) (hne : data ≠ []) (hr : Awaits seq r)
    (hacc : first = false → r.acc ≠ []) :
    DeliversUnit pt ts ssrc seq (fragmentsFrom hdr mc fuel first data) (unitBegun hdr first r ++ data) r := by
  induction fuel generalizing first data seq r with
  | zero => exact absurd (List.eq_nil_of_length_eq_zero (Nat.le_zero.mp hfuel)) hne
  | succ fuel ih =>
    have hlegal : FragmentLegal first (nalType hdr) r := ⟨fun _ => by rwa [nalType_toNat], hacc⟩
    have hexec := fun m last => exec_hunpack_fragment (pt := pt) (ts := ts) (ssrc := ssrc) hr hlegal m last (data.take mc)
    rw [fragmentsFrom, if_neg hne]
    by_cases hlast : data.length ≤ mc
    · rw [List.take_of_length_le hlast] at hexec ⊢
      rw [List.drop_eq_nil_of_le hlast, fragmentsFrom_nil, decide_eq_true hlast]
      exact deliversUnit_last (hexec true true) (afterPiece_awaits hr ..) rfl (afterPiece_trace hr ..)
    · rw [decide_eq_false hlast]
      refine deliversUnit_cons (hexec false false) rfl ?_
      have hnext := ih (data := data.drop mc) (by simp; omega) (by simp; omega)
        (afterPiece_awaits (ts := ts) hr hdr first false (data.take mc)) (first := false)
        fun _ => by rw [afterPiece_acc]; exact List.ne_nil_of_length_pos (by simp; omega)
      rwa [unitBegun, if_neg Bool.false_ne_true, afterPiece_acc, List.append_assoc, List.take_append_drop] at hnext

theorem deliversUnit_nalPackets {maxPkt : Nat} (hmax : 15 ≤ maxPkt) {nal : Buffer} (hr : Awaits seq r) (hacc : r.acc = [])
    (hne : nal ≠ []) (hlo : 1 ≤ (byteAt nal 0).toNat % 32) (hhi : (byteAt nal 0).toNat % 32 ≤ 23) :
    DeliversUnit pt ts ssrc seq (nalPackets maxPkt nal) nal r := by
  rw [nalPackets, fitsSingle_eq]
  by_cases hfits : 12 + nal.length ≤ maxPkt
  · rw [if_pos (decide_eq_true hfits)]
    exact deliversUnit_single hr hacc hne hlo hhi _
  · rw [if_neg (by simpa using hfits)]
    obtain ⟨hdr, data, rfl⟩ := List.exists_cons_of_ne_nil hne
    rw [List.length_cons] at hfits
    have hdata : data ≠ [] := List.ne_nil_of_length_pos (by omega)
    exact deliversUnit_fragments (first := true) ⟨hlo, hhi⟩ (mc := maxPkt - 14) (by omega) (Nat.le_succ _) hdata hr (by simp)

/-- The packets of a stream deliver its units in order. -/
theorem unpackAll_nalPackets {maxPkt : Nat} (hmax : 15 ≤ maxPkt) {nals : List Buffer}
    (hnals : ∀ nal ∈ nals, nal ≠ [] ∧ 1 ≤ (byteAt nal 0).toNat % 32 ∧ (byteAt nal 0).toNat % 32 ≤ 23)
    (hr : Awaits seq r) (hacc : r.acc = []) :
    ∃ r', unpackAll (wirePackets pt ts ssrc seq (nals.flatMap (nalPackets maxPkt))) r = some r' ∧ r'.loss = false ∧
      r'.acc = [] ∧ r'.trace = r.trace ++ nals.map fun nal => .deliverUnit nal nal.length ts 0 := by
  induction nals generalizing seq r with
  | nil => exact ⟨r, rfl, hr.lossless, hacc, by simp⟩
  | cons nal nals ih =>
    obtain ⟨⟨hne, hlo, hhi⟩, hrest⟩ := List.forall_mem_cons.mp hnals
    obtain ⟨r₁, hdone₁, hr₁, hacc₁, htrace₁⟩ := deliversUnit_nalPackets hmax hr hacc hne hlo hhi
    obtain ⟨r₂, hdone₂, hloss₂, hacc₂, htrace₂⟩ := ih hrest hr₁ hacc₁
    refine ⟨r₂, ?_, hloss₂, hacc₂, ?_⟩
    · rw [List.flatMap_cons, wirePackets_append, unpackAll_append hdone₁, hdone₂]
    · rw [htrace₂, htrace₁, List.append_assoc]
      rfl

end RoundTrip

/-- An HPACK that answers `OK` has sent every packet of its stream (R111, R120). -/
theorem sentPackets_of_ok {ts : BitVec 32} (hs : s.session = true) (hmax : 15 ≤ s.maxPkt) (htrace : s.trace = [])
    (hexec : exec (.hpack inp ts) s = .next t) (hok : t.status = .ok) :
    sentPackets t.trace = wirePackets s.tplPt ts s.tplSsrc s.txSeq (streamPackets s.maxPkt inp) := by
  rw [exec_hpack_of_le hs hmax] at hexec
  cases hexec
  obtain ⟨_, -, -, -, -, -, -, -, -, -, -, -, hend, -⟩ :=
    sentOrDenied_emitAll (streamPackets s.maxPkt inp) { s with txTs := ts }
  obtain ⟨-, -, hsent⟩ | ⟨_, _, -, hdenied, -⟩ := hend
  · rw [hsent, htrace]
    rfl
  · rw [hok] at hdenied
    cases hdenied

/-- Settles O45: HPACK finds the units (O21), and the packets of each deliver it. -/
theorem streamRoundTrip : Obligations.StreamRoundTrip := by
  intro nals ts s t r hs hmax htrace hnals hexec hok hsession hcap hseen hloss hacc
  have hr : Awaits s.txSeq r := ⟨hsession, hcap, hloss, by simp [hseen]⟩
  have hunits : nalUnits (annexB nals) = nals := annexBStreamIsSplit nals fun nal hmem => (hnals nal hmem).1
  rw [sentPackets_of_ok hs hmax htrace hexec hok, streamPackets_eq, hunits]
  refine unpackAll_nalPackets hmax (fun nal hmem => ?_) hr hacc
  obtain ⟨⟨hne, -, -⟩, hty⟩ := hnals nal hmem
  exact ⟨hne, hty⟩

end Sys2Proof.Machine

namespace Sys2Proof.Machine

/-! Session and host (spec/43_session_and_host.md): INIT, and what the instructions add to the event trace. -/

open Claims

variable {s t u : State}

/-! ### INIT (R160) -/

theorem exec_init_of_lt {maxpkt : Nat} (h : maxpkt < 15) (pt : BitVec 7) (seq0 : BitVec 16) (ssrc : BitVec 32) (s : State) :
    exec (.init pt seq0 ssrc maxpkt) s = .next (withResult .invalidConfig s) := if_pos h

theorem exec_init_of_le {maxpkt : Nat} (h : 15 ≤ maxpkt) (pt : BitVec 7) (seq0 : BitVec 16) (ssrc : BitVec 32) (s : State) :
    exec (.init pt seq0 ssrc maxpkt) s = .next (withResult .ok (openSession pt seq0 ssrc maxpkt s)) := if_neg (Nat.not_lt.mpr h)

/-- Settles O8. -/
theorem initOpensSession : Obligations.InitOpensSession := fun pt seq0 ssrc _ s hmax =>
  ⟨_, exec_init_of_le hmax pt seq0 ssrc s, rfl, rfl, rfl, rfl, rfl, rfl, rfl, rfl, rfl, rfl, rfl, rfl, rfl, rfl, ⟨rfl, rfl⟩, rfl⟩

/-- Settles O9. -/
theorem initRefusesSmallPackets : Obligations.InitRefusesSmallPackets := fun pt seq0 ssrc _ s hmax =>
  exec_init_of_lt hmax pt seq0 ssrc s

/-! ### Whole exchanges (R162) -/

theorem wholeExchanges_append {es es' : List Event} (h : wholeExchanges es) (h' : wholeExchanges es') :
    wholeExchanges (es ++ es') := by
  induction es using wholeExchanges.induct with
  | case1 => exact h'
  | case2 n es ih => exact ih h
  | case3 n b len ts flags es ih =>
    obtain ⟨hb, hlen, hes⟩ := h
    exact ⟨hb, hlen, ih hes⟩
  | case4 d len ts flags es ih => exact ih h
  | case5 es hnil hdenied hsent hunit => simp [wholeExchanges] at h

/-- From `s` to `t` the trace grew by whole exchanges. -/
def Exchanged (s t : State) : Prop := ∃ es, t.trace = s.trace ++ es ∧ wholeExchanges es

/-- An operation that emits nothing. -/
theorem Exchanged.of_trace_eq (h : t.trace = s.trace) : Exchanged s t := ⟨[], by simp [h], trivial⟩

theorem Exchanged.trans (h : Exchanged s t) (h' : Exchanged t u) : Exchanged s u := by
  obtain ⟨es, htrace, hes⟩ := h
  obtain ⟨es', htrace', hes'⟩ := h'
  exact ⟨es ++ es', by rw [htrace', htrace, List.append_assoc], wholeExchanges_append hes hes'⟩

/-- A grant and the packet sent on it are one exchange, a denial is one by itself (R117). -/
theorem emit_exchanged (m : Bool) (pay : Buffer) (s : State) : Exchanged s (emit m pay s).1 := by
  rcases emit_cases m pay s with ⟨-, hemit⟩ | ⟨-, hemit⟩ <;> rw [hemit]
  · refine ⟨_, by rw [sendPacket_trace, emitEvents_trace, takeAnswer_trace, List.append_assoc], ?_⟩
    exact ⟨buildPacket_length m pay _, rfl, trivial⟩
  · exact ⟨[.alloc (Config.rtpFixed + pay.length) false], by rw [emitEvents_trace, takeAnswer_trace], trivial⟩

theorem emitAll_exchanged (ps : List (Bool × Buffer)) (s : State) : Exchanged s (emitAll ps s).1 := by
  induction ps generalizing s with
  | nil => exact .of_trace_eq rfl
  | cons p ps ih =>
    obtain ⟨m, pay⟩ := p
    have hfirst := emit_exchanged m pay s
    unfold emitAll
    rcases he : emit m pay s with ⟨s', granted⟩
    rw [he] at hfirst
    cases granted with
    | false => exact hfirst
    | true => exact hfirst.trans (ih s')

theorem deliver_exchanged (unit : Buffer) (ts : BitVec 32) (s : State) : Exchanged s (deliver unit ts s) :=
  ⟨_, deliver_trace .., trivial⟩

theorem deliverAll_exchanged (us : List (Buffer × BitVec 32)) (s : State) : Exchanged s (deliverAll us s) := by
  induction us generalizing s with
  | nil => exact .of_trace_eq rfl
  | cons u us ih => exact (deliver_exchanged u.1 u.2 s).trans (ih _)

theorem ActionEffect.exchanged {wf : Prop} {r : State × Status} (he : ActionEffect wf s r) : Exchanged s r.1 := by
  cases he with
  | lost => exact .of_trace_eq rfl
  | overflow _ => exact .of_trace_eq rfl
  | discarded => exact .of_trace_eq rfl
  | units us _ => exact deliverAll_exchanged us s
  | gathered unit _ _ _ => exact .of_trace_eq rfl
  | finished unit ts _ _ => exact deliver_exchanged unit ts s

/-- Settles O58. -/
theorem grantsAreFreed : Obligations.GrantsAreFreed := by
  intro i s t hexec
  cases exec_effect hexec with
  | opened pt q r n hi _ => exact .inr ⟨⟨pt, q, r, n, hi⟩, rfl⟩
  | early e _ => exact .inl (Exchanged.of_trace_eq rfl)
  | record k => exact .inl (Exchanged.of_trace_eq rfl)
  | bytes out _ => exact .inl (Exchanged.of_trace_eq rfl)
  | packets ps ts _ _ => exact .inl (emitAll_exchanged ps _)
  | action r _ _ he => exact .inl he.exchanged
  | unpacked inp k r _ _ _ he => exact .inl ((Exchanged.of_trace_eq (seqCheck_trace s k.seq)).trans he.exchanged)

/-- Settles O47: whole exchanges are events (O58). -/
theorem traceOnlyGrows : Obligations.TraceOnlyGrows := fun i s t hexec =>
  (grantsAreFreed i s t hexec).imp_left fun ⟨es, htrace, _⟩ => ⟨es, htrace⟩

end Sys2Proof.Machine

namespace Sys2Proof.Machine

/-! Exceptions (spec/60_exceptions.md): the order in which the Wire Codec checks, and what each result leaves in the state and
at the result ports. -/

open Claims Laws

variable {s t : State} {inp : Buffer} {k : Pkt} {cap : Nat}

/-! ### The order of the checks (R190) -/

/-- DESER of a packet that it does not accept ends with the first failing check (R91, R190). -/
theorem exec_deser_of_not_accepts (s : State) (h : ¬deserAccepts inp) :
    exec (.deser inp) s = .next (withResult (deserStatus inp) s) := by
  rw [exec, execDeser, deser_of_not_accepts h]; rfl

/-- Settles O12: an accepted packet fails no check. -/
theorem deserChecksInOrder : Obligations.DeserChecksInOrder := by
  intro inp s
  by_cases haccept : deserAccepts inp
  · have hok := (deserAccepts_iff inp).mp haccept
    exact ⟨_, exec_deser_of_accepts s haccept, hok.symm, fun herror => absurd hok herror⟩
  · exact ⟨_, exec_deser_of_not_accepts s haccept, rfl, fun _ => rfl⟩

theorem serHdr_of_version (hv : k.v ≠ 2) (cap : Nat) : serHdr k cap = .error .versionMismatch := if_pos hv

theorem ser_of_version (hv : k.v ≠ 2) (cap : Nat) : ser k cap = .error .versionMismatch := if_pos hv

theorem serHdr_of_lt (hv : k.v = 2) (hcap : cap < headerLength k) : serHdr k cap = .error .bufferTooSmall := by
  rw [serHdr, if_neg (not_not.mpr hv : ¬k.v ≠ Config.rtpVersion), hdrLen_eq, if_pos hcap]

theorem ser_of_lt (hv : k.v = 2) (hcap : cap < headerLength k + k.pay.length) : ser k cap = .error .bufferTooSmall := by
  rw [ser, if_neg (not_not.mpr hv : ¬k.v ≠ Config.rtpVersion), hdrLen_eq, payLen, if_pos hcap]

theorem exec_serhdr_of_error {e : Status} (s : State) (h : serHdr k cap = .error e) :
    exec (.serhdr k cap) s = .next (withResult e s) := by
  rw [exec, execSerhdr, h]; rfl

theorem exec_ser_of_error {e : Status} (s : State) (h : ser k cap = .error e) :
    exec (.ser k cap) s = .next (withResult e s) := by
  rw [exec, execSer, h]; rfl

/-- Settles O16. -/
theorem serializersRefuse : Obligations.SerializersRefuse := fun _ cap s =>
  ⟨fun hv => ⟨exec_serhdr_of_error s (serHdr_of_version hv cap), exec_ser_of_error s (ser_of_version hv cap)⟩,
    fun hv hcap => exec_serhdr_of_error s (serHdr_of_lt hv hcap), fun hv hcap => exec_ser_of_error s (ser_of_lt hv hcap)⟩

/-! ### What the result registers and ports hold (R29, R177) -/

/-- After instruction `i` left `t`: `COUNT` is the number of bytes handed back, an error hands back nothing, and only a
serializer hands back bytes. -/
def ResultOf (i : Instr) (t : State) : Prop :=
  (t.count = t.resOut.length ∧ (t.status ≠ .ok → t.count = 0 ∧ t.resPkt = none ∧ t.resOut = [])) ∧
    (t.count ≠ 0 → (∃ k cap, i = .serhdr k cap) ∨ ∃ k cap, i = .ser k cap)

/-- What `raise` records is proper for every instruction. -/
theorem raise_resultOf (i : Instr) (st : Status) (s : State) : ResultOf i (raise st s) :=
  ⟨⟨rfl, fun _ => ⟨rfl, rfl, rfl⟩⟩, absurd rfl⟩

/-- Settles O48: only a decoded record and written bytes are concluded otherwise than by `raise`, both with `OK`. -/
theorem errorsRecordOnlyTheirCode : Obligations.ErrorsRecordOnlyTheirCode := by
  intro i s t hexec
  cases exec_effect hexec with
  | opened | early | packets | action | unpacked => exact raise_resultOf i _ _
  | record k => exact ⟨⟨rfl, absurd rfl⟩, absurd rfl⟩
  | bytes out hi => exact ⟨⟨rfl, absurd rfl⟩, fun _ => hi⟩

/-! ### Early errors (R191, first row) -/

/-- The results that the statement lists are the early ones. -/
theorem isEarly_of_mem : ∀ st ∈ [Status.headerTooShort, .versionMismatch, .insufficientBytes, .payloadTooShort,
    .bufferTooSmall, .invalidConfig], st.isEarly = true := by decide

/-- An action of HUNPACK, which may have changed the state, has no early error for a result. -/
theorem ActionEffect.not_early {wf : Prop} {r : State × Status} (he : ActionEffect wf s r) : r.2.isEarly ≠ true := by
  cases he with
  | lost | overflow | discarded | units | gathered | finished => exact Bool.false_ne_true

/-- Sending packets, which may have changed the state, ends with `OK` or `AllocFailed` (R120). -/
theorem concludeEmit_not_early (r : State × Bool) : (concludeEmit r).status.isEarly ≠ true := by
  obtain ⟨u, granted⟩ := r
  cases granted with
  | false | true => exact Bool.false_ne_true

/-- Settles O50: an early error is raised in the state before the instruction, and no other way to end has an early error for
its result. -/
theorem earlyErrorsChangeNothing : Obligations.EarlyErrorsChangeNothing := by
  intro i s t hexec hst
  have hearly := isEarly_of_mem _ hst
  cases exec_effect hexec with
  | early e _ => rfl
  | opened | record | bytes => exact absurd hearly Bool.false_ne_true
  | packets ps ts _ _ => exact absurd hearly (concludeEmit_not_early _)
  | action r _ _ he => exact absurd hearly he.not_early
  | unpacked inp k r _ _ _ he => exact absurd hearly he.not_early

end Sys2Proof.Machine

namespace Sys2Proof.Machine

/-! Reset and hazards (spec/70_reset_and_hazards.md): which instructions have a move before the first INIT, and where a step can
stop once there is a session. -/

open Claims

variable {s : State} {i : Instr}

/-! ### Before the first INIT (R202) -/

/-- INIT and the Wire Codec's instructions have a move in every state. -/
theorem exec_of_isPureOrInit (hi : isPureOrInit i = true) (s : State) : ∃ t, exec i s = .next t := by
  cases i with
  | init pt seq0 ssrc maxpkt =>
    rcases Nat.lt_or_ge maxpkt 15 with hlt | hle
    · exact ⟨_, exec_init_of_lt hlt pt seq0 ssrc s⟩
    · exact ⟨_, exec_init_of_le hle pt seq0 ssrc s⟩
  | deser | serhdr | ser | rtpfix => exact ⟨_, rfl⟩
  | hpack | hunpack | rsvd | snal | stapa | stapb | mtap16 | mtap24 | fua | fub | fuMid | fuEnd | fuStart | fuStartEnd | snalpkt
  | fuapkt => exact absurd hi Bool.false_ne_true

/-- The meaning of every other instruction begins with the test for a session. -/
theorem exec_before_session (hs : s.session = false) (hi : isPureOrInit i = false) : exec i s = .refused .noSession := by
  cases i with
  | init | deser | serhdr | ser | rtpfix => exact absurd hi.symm Bool.false_ne_true
  | hpack | hunpack | rsvd | snal | stapa | stapb | mtap16 | mtap24 | fua | fub | fuMid | fuEnd | fuStart | fuStartEnd | snalpkt
  | fuapkt => exact inSession_before hs _

/-- Settles O10. -/
theorem onlyPureInstructionsBeforeInit : Obligations.OnlyPureInstructionsBeforeInit := by
  intro i s hs
  cases hi : isPureOrInit i with
  | true => exact exec_of_isPureOrInit hi s
  | false => exact exec_before_session hs hi

/-! ### In a session (R204, R212) -/

/-- In a session with a legal `MAXPKT` only an emission mode that is not selected (log 12) has no move, and the host cannot ask
for one. -/
theorem exec_in_session (hs : s.session = true) (hmax : 15 ≤ s.maxPkt) (i : Instr) :
    (∃ t, exec i s = .next t) ∨ exec i s = .refused .modeNotSelected ∧ (encode i).space ≠ .cmd := by
  cases i with
  | init | deser | serhdr | ser | rtpfix => exact .inl (exec_of_isPureOrInit rfl s)
  | hpack inp ts => exact .inl ⟨_, exec_hpack_of_le hs hmax inp ts⟩
  | hunpack | rsvd | snal | stapa | stapb | mtap16 | mtap24 | fua | fub | fuMid | fuEnd | fuStart | fuStartEnd =>
    exact .inl ⟨_, inSession_of hs _⟩
  | snalpkt nal =>
    rw [exec_snalpkt hs]
    split
    · exact .inl ⟨_, rfl⟩
    · exact .inr ⟨rfl, by simp [encode]⟩
  | fuapkt nal =>
    rcases Nat.lt_or_ge s.maxPkt (12 + nal.length) with hlong | hfits
    · exact .inl ⟨_, exec_fuapkt_of_lt hs hmax hlong⟩
    · exact .inr ⟨exec_fuapkt_of_fits hs hfits, by simp [encode]⟩

theorem exec_command_next (hs : s.session = true) (hmax : 15 ≤ s.maxPkt) (hcmd : (encode i).space = .cmd) :
    ∃ t, exec i s = .next t :=
  (exec_in_session hs hmax i).resolve_right fun ⟨_, hinner⟩ => hinner hcmd

/-- Without a session the packetizer, which alone can fault, has no move; in one, Inv gives it room for a fragment (R212). -/
theorem exec_ne_fault (h : Inv s) (i : Instr) (f : Fault) : exec i s ≠ .fault f := by
  have hanswer : (∃ t, exec i s = .next t) ∨ ∃ q, exec i s = .refused q := by
    cases hs : s.session with
    | true => exact (exec_in_session hs (h.maxPkt_legal hs) i).imp_right fun ⟨hrefused, _⟩ => ⟨_, hrefused⟩
    | false =>
      cases hi : isPureOrInit i with
      | true => exact .inl (exec_of_isPureOrInit hi s)
      | false => exact .inr ⟨_, exec_before_session hs hi⟩
  rcases hanswer with ⟨t, hexec⟩ | ⟨q, hexec⟩ <;> simp [hexec]

/-- A refused step took a request that the decoder rejects, or ran a decoded command that is refused. -/
theorem step_refused {q : Refusal} (h : step s = .refused q) :
    (∃ e, q = .undecodable e) ∨
      ∃ r rest i, s.script = r :: rest ∧ decode r = .ok i ∧ exec i { s with script := rest } = .refused q := by
  cases hs : s.script with
  | nil => simp [step_of_script_nil hs] at h
  | cons r rest =>
    cases hd : decode r with
    | error e =>
      rw [step_of_decode_error hs hd] at h
      exact .inl ⟨e, (Host.Outcome.refused.inj h).symm⟩
    | ok i => exact .inr ⟨r, rest, i, rfl, hd, step_of_decode_ok hs hd ▸ h⟩

/-- Settles O54: a fault is a decoded command's, and a host's command that is decoded answers a next state. -/
theorem noStepFaults : Obligations.NoStepFaults := by
  refine ⟨fun s h f hstep => ?_, fun s h hs q hstep => ?_⟩
  · obtain ⟨r, rest, i, -, -, hexec⟩ := step_fault hstep
    exact exec_ne_fault (script_inv rest h) i f hexec
  · refine (step_refused hstep).resolve_right fun ⟨r, rest, i, hscript, hd, hexec⟩ => ?_
    have hr : isCommand r = true := List.all_eq_true.mp h.commands r (by simp [hscript])
    obtain ⟨t, hnext⟩ := exec_command_next (s := { s with script := rest }) hs (h.inv.maxPkt_legal hs)
      (decode_command_space hr hd)
    simp [hnext] at hexec

end Sys2Proof.Machine
